-- ==== Sys2Proof/Word.lean ====
section
/-! DEFINITION. The word types of the block (R223) and nothing else. -/

namespace Sys2Proof

/-- A byte: `latch`, track bytes, nibbles, `wdata`, results of reads (R223). -/
abbrev Byte := BitVec 8

/-- A six-bit value of the 6-and-2 code: `hi[i]`, `lo[j]`, the XOR chain, an index into `GCR62` (R223). -/
abbrev Six := BitVec 6

/-- A clock value: a tick count modulo 2^31, so that every sum wraps as R1 says. -/
abbrev Clock := BitVec 31

/-- A place in a track buffer, 0..6655 (R16). -/
abbrev Offset := Fin 6656

/-- A track buffer of a drive, 0..34 (R20). -/
abbrev TrackIndex := Fin 35

/-- A half-track position, 0..69 (R19). -/
abbrev HalfTrack := Fin 70

/-- An axis or a button, 0..3 (R215). -/
abbrev Index4 := Fin 4

end Sys2Proof
end

