-- ==== Sys2Proof/Config.lean ====
section
/-! DEFINITION. What the spec fixes (00_scope.md section 4), what it leaves to an implementation (the fields of `Config`) and
the free values (the constants with no body). -/

namespace Sys2Proof

/-! ### Fixed by the source -/

/-- RAW_TRACK_BYTES: the bytes of one track buffer. -/
abbrev rawTrackBytes : Nat := 6656

/-- NUM_TRACKS. -/
abbrev numTracks : Nat := 35

/-- NUM_SECTORS. -/
abbrev numSectors : Nat := 16

/-- SECTOR_BYTES. -/
abbrev sectorBytes : Nat := 256

/-- TRACK_DATA_BYTES: the image bytes of one track in a sector-ordered layout. -/
abbrev trackDataBytes : Nat := 4096

/-- The bytes of all 35 track buffers of one drive. -/
abbrev driveBytes : Nat := 232960

/-- SYNC_BEFORE_ADDRESS. -/
abbrev syncBeforeAddress : Nat := 12

/-- SYNC_BEFORE_DATA. -/
abbrev syncBeforeData : Nat := 8

/-- The sync nibble (R67). -/
abbrev syncNibble : Byte := 0xFF#8

/-- PAD_NIBBLE: the pad nibble, which the sequencer takes for "no more structured data" (R67, R172). -/
abbrev padNibble : Byte := 0x7F#8

/-- SCAN_BOUND: one track's length of iterations (R171, R172). -/
abbrev scanBound : Nat := 6656

/-- IMG2_HEADER_BYTES. -/
abbrev img2HeaderBytes : Nat := 64

/-- IMG2_PRODOS_BLOCKS. -/
abbrev img2ProdosBlocks : Nat := 280

/-! ### Left to the implementation -/

/-- The parameters of the block. They stand in `State` as plain data, no operation writes them, and a statement about every
state is a statement about every choice of them (log 10). -/
structure Config where
  /-- `GCR62`, the 64 symbols of the 6-and-2 code (R68). -/
  gcr62 : List Byte
  /-- `ORDER_DOS`: for each physical sector the logical sector it holds (R69). -/
  orderDos : List (Fin 16)
  /-- `ORDER_PRODOS` (R69). -/
  orderProdos : List (Fin 16)
  /-- `DEFAULT_VOLUME` (R113). -/
  defaultVolume : Byte
  /-- `INIT_WP` of drive 0 (R18). -/
  initWp0 : Bool
  /-- `INIT_WP` of drive 1 (R18). -/
  initWp1 : Bool
  /-- `INIT_VOLUME` (R23). -/
  initVolume : BitVec 3
  /-- `INIT_DISK` of drive 0: the listed bytes, keyed by 6656*t + o (R20). -/
  initDisk0 : List Host.Cell
  /-- `INIT_DISK` of drive 1. -/
  initDisk1 : List Host.Cell
  /-- `ROM`, 256 bytes (R48). -/
  rom : List Byte
  /-- `POLL_WINDOW_BASE` (R175). -/
  pollWindowBase : Int
  /-- False fixes `poll = false`, which disables the poll scan (R175). -/
  pollEnabled : Bool
  /-- `SAMPLE_RATE` in Hz (R191). -/
  sampleRate : Nat
  /-- `FLIP_RING_SIZE` (R30). -/
  flipRingSize : Nat
  /-- `SLOT`; no rule reads it (R50). -/
  slot : Nat
deriving DecidableEq, Repr

/-! ### Free values: nothing in Lean can say what they are -/

/-- The n-th noise draw: "uniformly random bytes", under no law (R4, D17; log 6). -/
opaque Config.noise : Nat → Byte

/-- The bytes of the n-th result the spec calls unspecified (R129, R205; log 7). -/
opaque Config.unspecified : Nat → Nat → Byte

/-- Byte k of the controller's ROM, whose contents the source does not give (R48, D16; log 11). -/
opaque Config.romByte : Nat → Byte

/-! ### The tables of the spec -/

/-- The 6-and-2 write-translate table of R68, eight entries a row. -/
def Config.gcr62Table : List Byte :=
  [0x96#8, 0x97#8, 0x9A#8, 0x9B#8, 0x9D#8, 0x9E#8, 0x9F#8, 0xA6#8] ++
  [0xA7#8, 0xAB#8, 0xAC#8, 0xAD#8, 0xAE#8, 0xAF#8, 0xB2#8, 0xB3#8] ++
  [0xB4#8, 0xB5#8, 0xB6#8, 0xB7#8, 0xB9#8, 0xBA#8, 0xBB#8, 0xBC#8] ++
  [0xBD#8, 0xBE#8, 0xBF#8, 0xCB#8, 0xCD#8, 0xCE#8, 0xCF#8, 0xD3#8] ++
  [0xD6#8, 0xD7#8, 0xD9#8, 0xDA#8, 0xDB#8, 0xDC#8, 0xDD#8, 0xDE#8] ++
  [0xDF#8, 0xE5#8, 0xE6#8, 0xE7#8, 0xE9#8, 0xEA#8, 0xEB#8, 0xEC#8] ++
  [0xED#8, 0xEE#8, 0xEF#8, 0xF2#8, 0xF3#8, 0xF4#8, 0xF5#8, 0xF6#8] ++
  [0xF7#8, 0xF9#8, 0xFA#8, 0xFB#8, 0xFC#8, 0xFD#8, 0xFE#8, 0xFF#8]

/-- ORDER_DOS of R69. -/
def Config.orderDosTable : List (Fin 16) := [0, 7, 14, 6, 13, 5, 12, 4, 11, 3, 10, 2, 9, 1, 8, 15]

/-- ORDER_PRODOS of R69. -/
def Config.orderProdosTable : List (Fin 16) := [0, 8, 1, 9, 2, 10, 3, 11, 4, 12, 5, 13, 6, 14, 7, 15]

/-- The parameters `State.reset` is built with: the values the spec gives or calls usual (logs 5, 10, 11, 12, 18). -/
def Config.standard : Config where
  gcr62 := Config.gcr62Table
  orderDos := Config.orderDosTable
  orderProdos := Config.orderProdosTable
  defaultVolume := 254#8
  initWp0 := false
  initWp1 := false
  initVolume := 4#3
  initDisk0 := []
  initDisk1 := []
  rom := (List.range 256).map Config.romByte
  pollWindowBase := -3
  pollEnabled := true
  sampleRate := 44100
  flipRingSize := 4096
  slot := 6

end Sys2Proof
end

