-- ==== Sys2Proof/Syntax.lean ====
section
/-! DEFINITION. The operations of the block: one constructor of `Instr` for each row of spec/opcode_table.json, and the access
(bus or host) that carries one. -/

namespace Sys2Proof

/-- The selected or named drive, 0 or 1 (R10, R100). -/
inductive Drive where
  | d0
  | d1
deriving DecidableEq, Repr

/-- MOUNT's filename hint (R100, R101). -/
inductive Hint where
  | img2
  | po
  | nib
  | dos
deriving DecidableEq, Repr

/-- The two interleave tables (R69). -/
inductive Order where
  | dos
  | prodos
deriving DecidableEq, Repr

/-- The 65 operations. An RD constructor carries nothing (the address selects the constructor, R60, R62); a WR constructor
carries the data byte `wdata`, its only operand (R60). A host operation carries the operands of R72. -/
inductive Instr where
  /-- RD.PH0OFF (R150). -/
  | rdPh0off
  /-- RD.PH0ON (R151). -/
  | rdPh0on
  /-- RD.PH1OFF (R152). -/
  | rdPh1off
  /-- RD.PH1ON (R153). -/
  | rdPh1on
  /-- RD.PH2OFF (R154). -/
  | rdPh2off
  /-- RD.PH2ON (R155). -/
  | rdPh2on
  /-- RD.PH3OFF (R156). -/
  | rdPh3off
  /-- RD.PH3ON (R157). -/
  | rdPh3on
  /-- RD.MOTOROFF (R158). -/
  | rdMotoroff
  /-- RD.MOTORON (R159). -/
  | rdMotoron
  /-- RD.DRV0 (R160). -/
  | rdDrv0
  /-- RD.DRV1 (R161). -/
  | rdDrv1
  /-- RD.SHIFT (R162). -/
  | rdShift
  /-- RD.LOAD (R163). -/
  | rdLoad
  /-- RD.RDMODE (R176). -/
  | rdRdmode
  /-- RD.WRMODE (R177). -/
  | rdWrmode
  /-- WR.PH0OFF (R150). -/
  | wrPh0off (wdata : Byte)
  /-- WR.PH0ON (R151). -/
  | wrPh0on (wdata : Byte)
  /-- WR.PH1OFF (R152). -/
  | wrPh1off (wdata : Byte)
  /-- WR.PH1ON (R153). -/
  | wrPh1on (wdata : Byte)
  /-- WR.PH2OFF (R154). -/
  | wrPh2off (wdata : Byte)
  /-- WR.PH2ON (R155). -/
  | wrPh2on (wdata : Byte)
  /-- WR.PH3OFF (R156). -/
  | wrPh3off (wdata : Byte)
  /-- WR.PH3ON (R157). -/
  | wrPh3on (wdata : Byte)
  /-- WR.MOTOROFF (R158). -/
  | wrMotoroff (wdata : Byte)
  /-- WR.MOTORON (R159). -/
  | wrMotoron (wdata : Byte)
  /-- WR.DRV0 (R160). -/
  | wrDrv0 (wdata : Byte)
  /-- WR.DRV1 (R161). -/
  | wrDrv1 (wdata : Byte)
  /-- WR.SHIFT (R162). -/
  | wrShift (wdata : Byte)
  /-- WR.LOAD (R163). -/
  | wrLoad (wdata : Byte)
  /-- WR.RDMODE (R176). -/
  | wrRdmode (wdata : Byte)
  /-- WR.WRMODE (R177). -/
  | wrWrmode (wdata : Byte)
  /-- NIORD, number 0x00 (R91). -/
  | niord (addr : Nat)
  /-- NIOWR, number 0x01 (R92). -/
  | niowr (addr : Nat) (value : Byte)
  /-- NMEMRD, number 0x02 (R93). -/
  | nmemrd (addr : Nat)
  /-- NMEMWR, number 0x03 (R94). -/
  | nmemwr (addr : Nat) (value : Byte)
  /-- NRESET, number 0x04 (R95). -/
  | nreset
  /-- ENC44, number 0x10 (R120). -/
  | enc44 (v : Byte)
  /-- DEC44, number 0x11 (R121). -/
  | dec44 (x y : Byte)
  /-- SPLIT62, number 0x12 (R122). -/
  | split62 (b : List Byte)
  /-- JOIN62, number 0x13 (R124). -/
  | join62 (hi lo : List Six)
  /-- WRSYNC, number 0x14 (R125). -/
  | wrsync (n : Nat)
  /-- WRADDR, number 0x15 (R126). -/
  | wraddr (volume track sector : Byte)
  /-- RDADDR, number 0x16 (R127). -/
  | rdaddr (n : List Byte)
  /-- WRDATA, number 0x17 (R128). -/
  | wrdata (hi lo : List Six)
  /-- RDDATA, number 0x18 (R129). -/
  | rddata (n : List Byte)
  /-- ENCTRACK, number 0x19 (R130). -/
  | enctrack (data : List Byte) (volume track : Byte) (order : Order)
  /-- MOUNT, number 0x20 (R100). -/
  | mount (d : Drive) (hint : Hint) (stream : List Byte) (wpRequest : Bool)
  /-- UNMOUNT, number 0x21 (R112). -/
  | unmount (d : Drive)
  /-- DMEMRD, number 0x30 (R179). -/
  | dmemrd (romOffset : Nat)
  /-- DMEMWR, number 0x31 (R180). -/
  | dmemwr (addr : Nat) (value : Byte)
  /-- DRESET, number 0x32 (R252). -/
  | dreset
  /-- SPKTOGGLE, number 0x40 (R190). -/
  | spktoggle
  /-- SPKFILL, number 0x41 (R196). -/
  | spkfill (clockEnd : Clock)
  /-- SPKREFRESH, number 0x42 (R206). -/
  | spkrefresh
  /-- SPKVOL, number 0x43 (R203). -/
  | spkvol (v : Nat)
  /-- SPKPAUSE, number 0x44 (R204). -/
  | spkpause
  /-- SPKRESUME, number 0x45 (R205). -/
  | spkresume
  /-- SPKRESET, number 0x46 (R253). -/
  | spkreset
  /-- PDLSET, number 0x50 (R216). -/
  | pdlset (a : Nat) (value : Byte)
  /-- PDLTRIG, number 0x51 (R217). -/
  | pdltrig
  /-- PDLREAD, number 0x52 (R218). -/
  | pdlread (a : Nat)
  /-- BTNSET, number 0x53 (R219). -/
  | btnset (b : Nat) (pressed : Bool)
  /-- BTNREAD, number 0x54 (R220). -/
  | btnread (b : Nat)
  /-- PDLRESET, number 0x55 (R254). -/
  | pdlreset
deriving DecidableEq, Repr

/-- How an operation reaches the block: a bus access of the CPU core (format SSW, R60; R90 names the two calls), or a host
operation as the bytes of format HOP, its number first and its operands after it (R72; log 3). -/
inductive Access where
  /-- `ioRead(addr)`; only the low four bits of the address count (R62). -/
  | ioRead (addr : Nat)
  /-- `ioWrite(addr, value)`. -/
  | ioWrite (addr : Nat) (wdata : Byte)
  /-- A host operation. -/
  | host (bytes : List Byte)
deriving DecidableEq, Repr

/-- Why an access names no operation. Format SSW has no such case (R62, R73). -/
inductive DecodeError where
  /-- A host operation without a byte. -/
  | emptyRequest
  /-- A HOP number that is not in the table of R72 (R73). -/
  | noOperation (op : Byte)
  /-- The bytes end before the operands do. -/
  | operandMissing
  /-- An operand byte holds a value the operand does not have (a third drive, a clock of 2^31, a six-bit value of 64). -/
  | operandRange
deriving DecidableEq, Repr

end Sys2Proof
end

