-- ==== Sys2Proof/WellFormed.lean ====
section
/-! DEFINITION. Which terms are operations: the operand lists have the lengths their rules give. Everything else is in the
types of `Instr`. -/

namespace Sys2Proof

/-- The well-formedness check, one row per constructor. -/
def Instr.wf : Instr → Bool
  | .rdPh0off => true
  | .rdPh0on => true
  | .rdPh1off => true
  | .rdPh1on => true
  | .rdPh2off => true
  | .rdPh2on => true
  | .rdPh3off => true
  | .rdPh3on => true
  | .rdMotoroff => true
  | .rdMotoron => true
  | .rdDrv0 => true
  | .rdDrv1 => true
  | .rdShift => true
  | .rdLoad => true
  | .rdRdmode => true
  | .rdWrmode => true
  | .wrPh0off _ => true
  | .wrPh0on _ => true
  | .wrPh1off _ => true
  | .wrPh1on _ => true
  | .wrPh2off _ => true
  | .wrPh2on _ => true
  | .wrPh3off _ => true
  | .wrPh3on _ => true
  | .wrMotoroff _ => true
  | .wrMotoron _ => true
  | .wrDrv0 _ => true
  | .wrDrv1 _ => true
  | .wrShift _ => true
  | .wrLoad _ => true
  | .wrRdmode _ => true
  | .wrWrmode _ => true
  | .niord _ => true
  | .niowr _ _ => true
  | .nmemrd _ => true
  | .nmemwr _ _ => true
  | .nreset => true
  | .enc44 _ => true
  | .dec44 _ _ => true
  | .split62 b => b.length == 256
  | .join62 hi lo => hi.length == 256 && lo.length == 86
  | .wrsync _ => true
  | .wraddr _ _ _ => true
  | .rdaddr n => n.length == 14
  | .wrdata hi lo => hi.length == 256 && lo.length == 86
  | .rddata n => n.length == 349
  | .enctrack data _ _ _ => data.length == 4096
  | .mount _ _ _ _ => true
  | .unmount _ => true
  | .dmemrd _ => true
  | .dmemwr _ _ => true
  | .dreset => true
  | .spktoggle => true
  | .spkfill _ => true
  | .spkrefresh => true
  | .spkvol _ => true
  | .spkpause => true
  | .spkresume => true
  | .spkreset => true
  | .pdlset _ _ => true
  | .pdltrig => true
  | .pdlread _ => true
  | .btnset _ _ => true
  | .btnread _ => true
  | .pdlreset => true

end Sys2Proof
end

