-- ==== Sys2Proof/Decode.lean ====
section
/-! DEFINITION. From an access to an operation, and back. Format SSW is R60 to R62; the HOP numbers are R72's; how operands
follow a HOP number is the model's own choice (log 3). -/

namespace Sys2Proof

/-! ### Format SSW -/

/-- The 5-bit selector of a bus access, `(w << 4) | (addr & 0xF)` (R60). -/
def selector (w : Bool) (addr : Nat) : BitVec 5 :=
  ((if w then 1#5 else 0#5) <<< 4) ||| (BitVec.ofNat 5 addr &&& 0xF#5)

/-- The 32-way decode of the selector, with nothing left over (R61, R62, R73). -/
def decodeSelector (sel : BitVec 5) (wdata : Byte) : Instr :=
  match sel.toNat with
  | 0x00 => .rdPh0off
  | 0x01 => .rdPh0on
  | 0x02 => .rdPh1off
  | 0x03 => .rdPh1on
  | 0x04 => .rdPh2off
  | 0x05 => .rdPh2on
  | 0x06 => .rdPh3off
  | 0x07 => .rdPh3on
  | 0x08 => .rdMotoroff
  | 0x09 => .rdMotoron
  | 0x0A => .rdDrv0
  | 0x0B => .rdDrv1
  | 0x0C => .rdShift
  | 0x0D => .rdLoad
  | 0x0E => .rdRdmode
  | 0x0F => .rdWrmode
  | 0x10 => .wrPh0off wdata
  | 0x11 => .wrPh0on wdata
  | 0x12 => .wrPh1off wdata
  | 0x13 => .wrPh1on wdata
  | 0x14 => .wrPh2off wdata
  | 0x15 => .wrPh2on wdata
  | 0x16 => .wrPh3off wdata
  | 0x17 => .wrPh3on wdata
  | 0x18 => .wrMotoroff wdata
  | 0x19 => .wrMotoron wdata
  | 0x1A => .wrDrv0 wdata
  | 0x1B => .wrDrv1 wdata
  | 0x1C => .wrShift wdata
  | 0x1D => .wrLoad wdata
  | 0x1E => .wrRdmode wdata
  | _ => .wrWrmode wdata

/-! ### Operands of format HOP (log 3)

A byte, a flag or a name is one byte; a list of a fixed length is that many bytes; a clock value is four bytes, low byte
first; a number without a bound is a little-endian base-128 number whose last byte is below 128; an image stream is its
length as such a number and then its bytes. An operand with a default (R100's `wpRequest`) may be left out at the end. -/

/-- What an operand reader answers: the operand and the bytes after it. -/
abbrev Parsed (α : Type) := Except DecodeError (α × List Byte)

/-- Read one operand and go on with the bytes after it. -/
def operand {α β : Type} (p : Parsed α) (f : α → List Byte → Parsed β) : Parsed β :=
  match p with
  | .ok (x, r) => f x r
  | .error e => .error e

/-- One byte. -/
def takeByte : List Byte → Parsed Byte
  | [] => .error .operandMissing
  | b :: rest => .ok (b, rest)

/-- `n` bytes. -/
def takeBytes (n : Nat) (l : List Byte) : Parsed (List Byte) :=
  if l.length < n then .error .operandMissing else .ok (l.take n, l.drop n)

/-- A number without a bound. -/
def takeNat : List Byte → Parsed Nat
  | [] => .error .operandMissing
  | b :: rest =>
    if b.toNat < 128 then .ok (b.toNat, rest)
    else
      match takeNat rest with
      | .ok (n, r) => .ok (b.toNat - 128 + 128 * n, r)
      | .error e => .error e

/-- A boolean: 0 or 1. -/
def takeBool (l : List Byte) : Parsed Bool :=
  operand (takeByte l) fun b r => if b = 0#8 then .ok (false, r) else if b = 1#8 then .ok (true, r) else .error .operandRange

/-- MOUNT's `wpRequest`, the last operand: a boolean, `false` where the request ends before it (R100, D22). -/
def takeWpRequest : List Byte → Parsed Bool
  | [] => .ok (false, [])
  | b :: r => takeBool (b :: r)

/-- A drive: 0 or 1 (R100). -/
def takeDrive (l : List Byte) : Parsed Drive :=
  operand (takeByte l) fun b r => if b = 0#8 then .ok (.d0, r) else if b = 1#8 then .ok (.d1, r) else .error .operandRange

/-- An interleave table: 0 is `ORDER_DOS`, 1 is `ORDER_PRODOS`. -/
def takeOrder (l : List Byte) : Parsed Order :=
  operand (takeByte l) fun b r => if b = 0#8 then .ok (.dos, r) else if b = 1#8 then .ok (.prodos, r) else .error .operandRange

/-- A filename hint, numbered in the order of R100. -/
def takeHint (l : List Byte) : Parsed Hint :=
  operand (takeByte l) fun b r =>
    if b = 0#8 then .ok (.img2, r) else if b = 1#8 then .ok (.po, r) else if b = 2#8 then .ok (.nib, r)
    else if b = 3#8 then .ok (.dos, r) else .error .operandRange

/-- A clock value, below 2^31 (R1). -/
def takeClock (l : List Byte) : Parsed Clock :=
  match l with
  | b0 :: b1 :: b2 :: b3 :: rest =>
    if b3.toNat < 128 then .ok (((b3 ++ b2) ++ (b1 ++ b0)).setWidth 31, rest) else .error .operandRange
  | _ => .error .operandMissing

/-- `n` six-bit values, a byte each. -/
def takeSixes (n : Nat) (l : List Byte) : Parsed (List Six) :=
  operand (takeBytes n l) fun bs r => if bs.all (fun b => b.toNat < 64) then .ok (bs.map (fun b => b.setWidth 6), r) else .error .operandRange

/-- A list of bytes with its length before it. -/
def takeStream (l : List Byte) : Parsed (List Byte) :=
  operand (takeNat l) fun n r => takeBytes n r

/-- A host operation from its bytes: the number of R72 and then the operands. The second part of the answer is the bytes after
them, which the operation does not have. -/
def decodeHop : List Byte → Parsed Instr
  | [] => .error .emptyRequest
  | op :: r =>
    match op.toNat with
    | 0x00 =>
      operand (takeNat r) fun addr r =>
      .ok (.niord addr, r)
    | 0x01 =>
      operand (takeNat r) fun addr r =>
      operand (takeByte r) fun value r =>
      .ok (.niowr addr value, r)
    | 0x02 =>
      operand (takeNat r) fun addr r =>
      .ok (.nmemrd addr, r)
    | 0x03 =>
      operand (takeNat r) fun addr r =>
      operand (takeByte r) fun value r =>
      .ok (.nmemwr addr value, r)
    | 0x04 => .ok (.nreset, r)
    | 0x10 =>
      operand (takeByte r) fun v r =>
      .ok (.enc44 v, r)
    | 0x11 =>
      operand (takeByte r) fun x r =>
      operand (takeByte r) fun y r =>
      .ok (.dec44 x y, r)
    | 0x12 =>
      operand (takeBytes 256 r) fun b r =>
      .ok (.split62 b, r)
    | 0x13 =>
      operand (takeSixes 256 r) fun hi r =>
      operand (takeSixes 86 r) fun lo r =>
      .ok (.join62 hi lo, r)
    | 0x14 =>
      operand (takeNat r) fun n r =>
      .ok (.wrsync n, r)
    | 0x15 =>
      operand (takeByte r) fun volume r =>
      operand (takeByte r) fun track r =>
      operand (takeByte r) fun sector r =>
      .ok (.wraddr volume track sector, r)
    | 0x16 =>
      operand (takeBytes 14 r) fun n r =>
      .ok (.rdaddr n, r)
    | 0x17 =>
      operand (takeSixes 256 r) fun hi r =>
      operand (takeSixes 86 r) fun lo r =>
      .ok (.wrdata hi lo, r)
    | 0x18 =>
      operand (takeBytes 349 r) fun n r =>
      .ok (.rddata n, r)
    | 0x19 =>
      operand (takeBytes 4096 r) fun data r =>
      operand (takeByte r) fun volume r =>
      operand (takeByte r) fun track r =>
      operand (takeOrder r) fun order r =>
      .ok (.enctrack data volume track order, r)
    | 0x20 =>
      operand (takeDrive r) fun d r =>
      operand (takeHint r) fun hint r =>
      operand (takeStream r) fun stream r =>
      operand (takeWpRequest r) fun wpRequest r =>
      .ok (.mount d hint stream wpRequest, r)
    | 0x21 =>
      operand (takeDrive r) fun d r =>
      .ok (.unmount d, r)
    | 0x30 =>
      operand (takeNat r) fun romOffset r =>
      .ok (.dmemrd romOffset, r)
    | 0x31 =>
      operand (takeNat r) fun addr r =>
      operand (takeByte r) fun value r =>
      .ok (.dmemwr addr value, r)
    | 0x32 => .ok (.dreset, r)
    | 0x40 => .ok (.spktoggle, r)
    | 0x41 =>
      operand (takeClock r) fun clockEnd r =>
      .ok (.spkfill clockEnd, r)
    | 0x42 => .ok (.spkrefresh, r)
    | 0x43 =>
      operand (takeNat r) fun v r =>
      .ok (.spkvol v, r)
    | 0x44 => .ok (.spkpause, r)
    | 0x45 => .ok (.spkresume, r)
    | 0x46 => .ok (.spkreset, r)
    | 0x50 =>
      operand (takeNat r) fun a r =>
      operand (takeByte r) fun value r =>
      .ok (.pdlset a value, r)
    | 0x51 => .ok (.pdltrig, r)
    | 0x52 =>
      operand (takeNat r) fun a r =>
      .ok (.pdlread a, r)
    | 0x53 =>
      operand (takeNat r) fun b r =>
      operand (takeBool r) fun pressed r =>
      .ok (.btnset b pressed, r)
    | 0x54 =>
      operand (takeNat r) fun b r =>
      .ok (.btnread b, r)
    | 0x55 => .ok (.pdlreset, r)
    | _ => .error (.noOperation op)

/-- The operation an access names. Every bus access names one (R62); a host operation may fail, by name (R73). Bytes after
the operands belong to no operand and are ignored (log 3). -/
def decodeAccess : Access → Except DecodeError Instr
  | .ioRead addr => .ok (decodeSelector (selector false addr) 0#8)
  | .ioWrite addr wdata => .ok (decodeSelector (selector true addr) wdata)
  | .host bytes =>
    match decodeHop bytes with
    | .ok (i, _) => .ok i
    | .error e => .error e

/-! ### The encoder -/

/-- One byte. -/
def putByte (b : Byte) : List Byte := [b]

/-- A list of a fixed length. -/
def putBytes (l : List Byte) : List Byte := l

/-- The base-128 digits of `n`, with fuel at least `n`. -/
def putNatFuel : Nat → Nat → List Byte
  | 0, n => [BitVec.ofNat 8 (n % 128)]
  | fuel + 1, n =>
    if n < 128 then [BitVec.ofNat 8 n] else BitVec.ofNat 8 (128 + n % 128) :: putNatFuel fuel (n / 128)

/-- A number without a bound. -/
def putNat (n : Nat) : List Byte := putNatFuel n n

/-- A boolean. -/
def putBool (p : Bool) : List Byte := [if p then 1#8 else 0#8]

/-- A drive. -/
def putDrive : Drive → List Byte
  | .d0 => [0#8]
  | .d1 => [1#8]

/-- An interleave table. -/
def putOrder : Order → List Byte
  | .dos => [0#8]
  | .prodos => [1#8]

/-- A filename hint. -/
def putHint : Hint → List Byte
  | .img2 => [0#8]
  | .po => [1#8]
  | .nib => [2#8]
  | .dos => [3#8]

/-- A clock value, four bytes, low byte first. -/
def putClock (c : Clock) : List Byte :=
  let w : BitVec 32 := c.setWidth 32
  [w.extractLsb' 0 8, w.extractLsb' 8 8, w.extractLsb' 16 8, w.extractLsb' 24 8]

/-- Six-bit values, a byte each. -/
def putSixes (l : List Six) : List Byte := l.map (fun x => x.setWidth 8)

/-- A list of bytes with its length before it. -/
def putStream (l : List Byte) : List Byte := putNat l.length ++ l

/-- The access that carries an operation. -/
def encode : Instr → Access
  | .rdPh0off => .ioRead 0x0
  | .rdPh0on => .ioRead 0x1
  | .rdPh1off => .ioRead 0x2
  | .rdPh1on => .ioRead 0x3
  | .rdPh2off => .ioRead 0x4
  | .rdPh2on => .ioRead 0x5
  | .rdPh3off => .ioRead 0x6
  | .rdPh3on => .ioRead 0x7
  | .rdMotoroff => .ioRead 0x8
  | .rdMotoron => .ioRead 0x9
  | .rdDrv0 => .ioRead 0xA
  | .rdDrv1 => .ioRead 0xB
  | .rdShift => .ioRead 0xC
  | .rdLoad => .ioRead 0xD
  | .rdRdmode => .ioRead 0xE
  | .rdWrmode => .ioRead 0xF
  | .wrPh0off wdata => .ioWrite 0x0 wdata
  | .wrPh0on wdata => .ioWrite 0x1 wdata
  | .wrPh1off wdata => .ioWrite 0x2 wdata
  | .wrPh1on wdata => .ioWrite 0x3 wdata
  | .wrPh2off wdata => .ioWrite 0x4 wdata
  | .wrPh2on wdata => .ioWrite 0x5 wdata
  | .wrPh3off wdata => .ioWrite 0x6 wdata
  | .wrPh3on wdata => .ioWrite 0x7 wdata
  | .wrMotoroff wdata => .ioWrite 0x8 wdata
  | .wrMotoron wdata => .ioWrite 0x9 wdata
  | .wrDrv0 wdata => .ioWrite 0xA wdata
  | .wrDrv1 wdata => .ioWrite 0xB wdata
  | .wrShift wdata => .ioWrite 0xC wdata
  | .wrLoad wdata => .ioWrite 0xD wdata
  | .wrRdmode wdata => .ioWrite 0xE wdata
  | .wrWrmode wdata => .ioWrite 0xF wdata
  | .niord addr => .host (0x00#8 :: (putNat addr))
  | .niowr addr value => .host (0x01#8 :: (putNat addr ++ putByte value))
  | .nmemrd addr => .host (0x02#8 :: (putNat addr))
  | .nmemwr addr value => .host (0x03#8 :: (putNat addr ++ putByte value))
  | .nreset => .host (0x04#8 :: [])
  | .enc44 v => .host (0x10#8 :: (putByte v))
  | .dec44 x y => .host (0x11#8 :: (putByte x ++ putByte y))
  | .split62 b => .host (0x12#8 :: (putBytes b))
  | .join62 hi lo => .host (0x13#8 :: (putSixes hi ++ putSixes lo))
  | .wrsync n => .host (0x14#8 :: (putNat n))
  | .wraddr volume track sector => .host (0x15#8 :: (putByte volume ++ putByte track ++ putByte sector))
  | .rdaddr n => .host (0x16#8 :: (putBytes n))
  | .wrdata hi lo => .host (0x17#8 :: (putSixes hi ++ putSixes lo))
  | .rddata n => .host (0x18#8 :: (putBytes n))
  | .enctrack data volume track order => .host (0x19#8 :: (putBytes data ++ putByte volume ++ putByte track ++ putOrder order))
  | .mount d hint stream wpRequest => .host (0x20#8 :: (putDrive d ++ putHint hint ++ putStream stream ++ putBool wpRequest))
  | .unmount d => .host (0x21#8 :: (putDrive d))
  | .dmemrd romOffset => .host (0x30#8 :: (putNat romOffset))
  | .dmemwr addr value => .host (0x31#8 :: (putNat addr ++ putByte value))
  | .dreset => .host (0x32#8 :: [])
  | .spktoggle => .host (0x40#8 :: [])
  | .spkfill clockEnd => .host (0x41#8 :: (putClock clockEnd))
  | .spkrefresh => .host (0x42#8 :: [])
  | .spkvol v => .host (0x43#8 :: (putNat v))
  | .spkpause => .host (0x44#8 :: [])
  | .spkresume => .host (0x45#8 :: [])
  | .spkreset => .host (0x46#8 :: [])
  | .pdlset a value => .host (0x50#8 :: (putNat a ++ putByte value))
  | .pdltrig => .host (0x51#8 :: [])
  | .pdlread a => .host (0x52#8 :: (putNat a))
  | .btnset b pressed => .host (0x53#8 :: (putNat b ++ putBool pressed))
  | .btnread b => .host (0x54#8 :: (putNat b))
  | .pdlreset => .host (0x55#8 :: [])

/-! ### Words of the opcode table (log 4) -/

/-- The HOP numbers of R72. -/
def hopNumbers : List Nat :=
  [0x00, 0x01, 0x02, 0x03, 0x04] ++
  [0x10, 0x11, 0x12, 0x13, 0x14, 0x15, 0x16, 0x17, 0x18, 0x19] ++
  [0x20, 0x21, 0x30, 0x31, 0x32] ++
  [0x40, 0x41, 0x42, 0x43, 0x44, 0x45, 0x46] ++
  [0x50, 0x51, 0x52, 0x53, 0x54, 0x55]

/-- The bytes of the longest operation of a fixed length: ENCTRACK's number, 4096 data bytes and three more. -/
abbrev longestOperation : Nat := 4100

/-- The access a word of the opcode table stands for. A word of fewer than eight bits is a selector of format SSW; one of eight
or more is a HOP number with its operand bytes above it, but where its low byte is no HOP number and fits in five bits it is a
selector, with `wdata` in the next byte (log 4). -/
def tableAccess (nbits w : Nat) : Access :=
  let op := w % 256
  if nbits < 8 ∨ (hopNumbers.contains op = false ∧ op < 32) then
    if op % 32 < 16 then .ioRead (op % 16) else .ioWrite (op % 16) (BitVec.ofNat 8 (w / 256))
  else .host ((List.range longestOperation).map (fun k => BitVec.ofNat 8 (w >>> (8 * k))))

/-- The operation the decoder reads from a word of the opcode table. -/
def decodeTableWord (nbits w : Nat) : Option Instr :=
  match decodeAccess (tableAccess nbits w) with
  | .ok i => some i
  | .error _ => none

end Sys2Proof
end

