-- ==== Sys2Proof/Machine/State.lean ====
section
/-! DEFINITION. What the machine holds, what it returns, why it stops, and its state right after power-on (10_state.md, R250). -/

namespace Sys2Proof.Machine

/-! ### Memories -/

/-- A sparse memory: the listed bytes, addresses strictly rising. Every track buffer byte of a drive has the key
6656*t + o; a byte of CPU memory has its address. -/
abbrev Memory := List Host.Cell

/-- The one canonical form: addresses strictly rising and below `size`, and no entry equal to `unlisted`, which is what an
unlisted address reads as. -/
abbrev Memory.wf (unlisted : Byte) (size : Nat) (m : Memory) : Prop :=
  m.Pairwise (fun p q => p.1 < q.1) ∧ ∀ c ∈ m, c.1 < size ∧ c.2 ≠ unlisted

/-- What an unlisted byte of a track buffer reads as: 0x7F, the unformatted disk of R256 (DESIGN CHOICE, log 5). -/
abbrev trackUnlisted : Byte := 0x7F#8

/-- What an unlisted byte of CPU memory reads as (DESIGN CHOICE, log 2; every memory can be listed). -/
abbrev cpuUnlisted : Byte := 0x00#8

/-! ### The units -/

/-- Per-drive state (R18 to R20). -/
structure DriveState where
  /-- Write-protect flag (R18). -/
  wp : Bool
  /-- Half-track position (R19). -/
  pos : HalfTrack
  /-- The 35 track buffers (R20). -/
  trk : Memory
deriving DecidableEq, Repr

/-- The Disk II controller (R10 to R17) and its two drives. -/
structure Disk where
  /-- Selected drive (R10). -/
  drive : Drive
  /-- Phase-magnet bitmask; bit k is magnet k (R11). -/
  phases : BitVec 4
  /-- Motor-on flag (R12). -/
  motorOn : Bool
  /-- The 8-bit data register (R13). -/
  latch : Byte
  /-- True is write mode (R14). -/
  writeMode : Bool
  /-- True is armed (R15). -/
  loadMode : Bool
  /-- Current nibble offset, one for the whole controller (R16). -/
  off : Offset
  /-- The drive-spin hack counter (R17). -/
  spin : BitVec 4
  /-- Drive 0. -/
  d0 : DriveState
  /-- Drive 1. -/
  d1 : DriveState
deriving DecidableEq, Repr

/-- The speaker synthesizer (R23 to R29). -/
structure Speaker where
  /-- Volume 0..7 (R23). -/
  volume : BitVec 3
  /-- Flip-buffer read cursor (R24). -/
  ringRd : Nat
  /-- Output level; true is level 1 (R25). -/
  level : Bool
  /-- clocksPerSample (R26). -/
  cps : Nat
  /-- The tick up to which samples have been produced (R27). -/
  sclk : Clock
  /-- The PCM chunk size in bytes (R28). -/
  bufSize : Nat
  /-- The PCM scratch buffer, `bufSize` bytes (R28). -/
  pcm : List Byte
  /-- True between a successful SPKRESUME and the next SPKPAUSE (R29). -/
  sinkOpen : Bool
deriving DecidableEq, Repr

/-- The flip ring buffer and its write cursor, owned by the CPU core (R30). -/
structure FlipRing where
  /-- The timestamps (R30). -/
  ring : List Clock
  /-- The shared write cursor (R30). -/
  ringWr : Nat
deriving DecidableEq, Repr

/-- The paddles (R32). -/
structure Paddle where
  /-- Stored increments in clock ticks. -/
  inc : Vector Nat 4
  /-- The tick at which the axis stops reading high. -/
  event : Vector Clock 4
  /-- Button latches. -/
  button : Vector Bool 4
deriving DecidableEq, Repr

/-- What the CPU core and the host supply to one operation, read and never written by it (R6, R31, R192; log 2). -/
structure Inputs where
  /-- The CPU core's clock (R31). -/
  clockNow : Clock
  /-- The CPU core's program counter (R31). -/
  pc : BitVec 16
  /-- What `CpuMemRead` sees (R47). -/
  cpuMem : Memory
  /-- The reported CPU speed in kHz (R31). -/
  cpuSpeedKHz : Nat
  /-- The sink's answer to `isAudioAvailable()` (R192). -/
  audioAvailable : Bool
  /-- The sink's answer to `initAudio()`: a byte count, or none where it fails (R192). -/
  initAudio : Option Nat
deriving DecidableEq, Repr

/-- An operation that has been issued: how it reaches the block and the inputs of its moment. -/
structure Request where
  access : Access
  inputs : Inputs
deriving DecidableEq, Repr

/-! ### What an operation answers -/

/-- The reason FormatError records (R230). -/
inductive FormatReason where
  | truncated
  | magic
  | headerSize
  | imageFormat
  | numBlocks
deriving DecidableEq, Repr

/-- The four conditions of 60_exceptions.md. -/
inductive Condition where
  /-- Code 1, reported to the caller of MOUNT (R230). -/
  | formatError (why : FormatReason)
  /-- Code 2, not an error and reported to nobody (R231). -/
  | boundedScanExhausted
  /-- Code 3, never an error (R232). -/
  | unmappedAddress
  /-- Code 4, reported to the caller of SPKRESUME (R233). -/
  | resourceUnavailable
deriving DecidableEq, Repr

/-- What an operation returns (R72, R249). -/
inductive Result where
  /-- Nothing. -/
  | none
  /-- A byte: the port reads, DEC44, PDLREAD, BTNREAD. -/
  | byte (b : Byte)
  /-- Nibbles: ENC44, WRSYNC, WRADDR, WRDATA, ENCTRACK. -/
  | nibbles (l : List Byte)
  /-- SPLIT62's six-bit values. -/
  | split (hi lo : List Six)
  /-- JOIN62's bytes. -/
  | bytes (b : List Byte)
  /-- RDADDR accepts: its fields, with `ok = true`. -/
  | address (volume track sector : Byte)
  /-- RDADDR rejects: `ok = false`, "no partial result" (93_implementation_defined.md row 29; log 17). -/
  | addressRejected
  /-- RDDATA's bytes. -/
  | sector (b : List Byte) (ok : Bool)
  /-- SPKFILL's byte count. -/
  | count (n : Nat)
  /-- MOUNT or SPKRESUME succeeded: `ok = true`. -/
  | ok
  /-- MOUNT or SPKRESUME reports a condition: `ok = false` (R237). -/
  | failed (c : Condition)
deriving DecidableEq, Repr

/-- A call the synthesizer makes on the audio sink (R192), with the answer it got. -/
inductive SinkCall where
  | initAudio (answer : Option Nat)
  | isAudioAvailable (answer : Bool)
  | audioWrite (chunk : List Byte)
  | closeAudio
deriving DecidableEq, Repr

/-! ### The state -/

/-- The state of the block with what stands around it. -/
structure State where
  /-- The parameters; no operation writes them. -/
  cfg : Config
  /-- The Disk II controller. -/
  disk : Disk
  /-- The speaker synthesizer. -/
  spk : Speaker
  /-- The flip ring (the CPU core's). -/
  flips : FlipRing
  /-- The paddles. -/
  pdl : Paddle
  /-- The inputs of the operation that runs (log 2). -/
  inp : Inputs
  /-- The operations issued and not yet run, oldest first (log 1). -/
  queue : List Request
  /-- What the last operation returned (log 13). -/
  result : Result
  /-- The sink calls made since power-on, oldest first (log 13). -/
  sinkCalls : List SinkCall
  /-- How many free values have been drawn (logs 6 and 7). -/
  draws : Nat
deriving DecidableEq, Repr

/-! ### Why the machine stops -/

/-- The faults: none. "The step function of the block is total" (R249), and nothing in it is fatal (R96, R234). -/
inductive Fault
deriving DecidableEq, Repr

/-- The refusals. -/
inductive Refusal where
  /-- An instruction without a meaning in this model, by its mnemonic; raised by `exec` alone. Safe. -/
  | notModelled (mnemonic : String)
  /-- The step, for a request that names no operation (R73: "such an operation cannot be formed"). Safe (log 3). -/
  | undecodable (why : DecodeError)
deriving DecidableEq, Repr

/-! ### Power-on -/

/-- The controller after construction (R250, D13, D14). -/
def Disk.powerOn (cfg : Config) : Disk where
  drive := .d0
  phases := 0#4
  motorOn := false
  latch := 0x00#8
  writeMode := false
  loadMode := false
  off := 0
  spin := 0#4
  d0 := { wp := cfg.initWp0, pos := 0, trk := cfg.initDisk0 }
  d1 := { wp := cfg.initWp1, pos := 0, trk := cfg.initDisk1 }

/-- The synthesizer after construction: paused (R250, D28, D34). `cps` is unspecified there and 1 here (log 8). -/
def Speaker.powerOn (cfg : Config) : Speaker where
  volume := cfg.initVolume
  ringRd := 0
  level := false
  cps := 1
  sclk := 0#31
  bufSize := 0
  pcm := []
  sinkOpen := false

/-- The flip ring after construction; its elements are unspecified in R250 and 0 here (log 9). -/
def FlipRing.powerOn (cfg : Config) : FlipRing where
  ring := List.replicate cfg.flipRingSize 0#31
  ringWr := 0

/-- The paddles after construction (R250, D38). -/
def Paddle.powerOn : Paddle where
  inc := Vector.replicate 4 8
  event := Vector.replicate 4 0#31
  button := Vector.replicate 4 false

/-- The inputs before any operation has supplied its own (log 2). -/
def Inputs.powerOn : Inputs where
  clockNow := 0#31
  pc := 0#16
  cpuMem := []
  cpuSpeedKHz := 0
  audioAvailable := false
  initAudio := none

/-- The state after construction with given parameters (R250, R251): no sink call has been made, nothing is queued. -/
def State.powerOn (cfg : Config) : State where
  cfg := cfg
  disk := Disk.powerOn cfg
  spk := Speaker.powerOn cfg
  flips := FlipRing.powerOn cfg
  pdl := Paddle.powerOn
  inp := Inputs.powerOn
  queue := []
  result := .none
  sinkCalls := []
  draws := 0

/-- The machine right after reset, with the parameters of `Config.standard`. -/
def State.reset : State := State.powerOn Config.standard

end Sys2Proof.Machine
end

