-- ==== Sys2Proof/Machine/Operands.lean ====
section
/-! DEFINITION. Operand forms and effective addresses (R223, R224, R227): how a number an operation is given, or a field of the
state, becomes the index it stands for. -/

namespace Sys2Proof.Machine

/-! ### Indices -/

/-- An axis or button operand: the low two bits of the number given (R221). -/
def index4 (n : Nat) : Index4 := ⟨n % 4, Nat.mod_lt n (by decide)⟩

/-- SPKVOL's operand: the low three bits of the number given (R203). -/
def volumeOf (v : Nat) : BitVec 3 := BitVec.ofNat 3 v

/-- The ROM index of a `romOffset` (R48, R179). -/
def romIndex (romOffset : Nat) : Nat := romOffset % 256

/-- The offset after `o`: `(o + 1) mod 6656` (R16, R174). -/
def nextOffset (o : Offset) : Offset := ⟨(o.val + 1) % 6656, Nat.mod_lt _ (by decide)⟩

/-- The track index of a half-track position, `pos >> 1` (R21). -/
def trackOf (p : HalfTrack) : TrackIndex := ⟨p.val >>> 1, by rw [Nat.shiftRight_eq_div_pow]; omega⟩

/-- The half-track position `clamp(z, 0, 69)` (R166, R229: the sum is formed in the integers, then clamped). -/
def clampPos (z : Int) : HalfTrack := ⟨(max 0 (min z 69)).toNat, by omega⟩

/-- The key of place (t, o) in a drive's track memory. -/
def trackKey (t : TrackIndex) (o : Offset) : Nat := 6656 * t.val + o.val

/-! ### The active drive -/

/-- The state of drive `d`. -/
def driveState (k : Disk) : Drive → DriveState
  | .d0 => k.d0
  | .d1 => k.d1

/-- The controller with the state of drive `d` replaced. -/
def setDriveState (k : Disk) (d : Drive) (x : DriveState) : Disk :=
  match d with
  | .d0 => { k with d0 := x }
  | .d1 => { k with d1 := x }

/-- The state of the selected drive, looked up afresh at each use (R21). -/
def activeDrive (k : Disk) : DriveState := driveState k k.drive

/-- The index of the active track buffer, `pos[drive] >> 1` (R21). -/
def activeTrack (k : Disk) : TrackIndex := trackOf (activeDrive k).pos

/-! ### 2IMG header fields, little-endian (R71, R43) -/

/-- Byte `k` of a header. -/
def headerByte (h : List Byte) (k : Nat) : Nat := (h.getD k 0#8).toNat

/-- The 16-bit field at offset `k`. -/
def header16 (h : List Byte) (k : Nat) : Nat := headerByte h k + 256 * headerByte h (k + 1)

/-- The 32-bit field at offset `k`. -/
def header32 (h : List Byte) (k : Nat) : Nat := header16 h k + 65536 * header16 h (k + 2)

/-! ### Filename hints -/

/-- Whether a name ends in `suffix`, letter case ignored (R101). -/
def endsWith (name : List Char) (suffix : List Char) : Bool :=
  suffix.isSuffixOf (name.map Char.toLower)

/-- The hint a filename gives; advisory, since MOUNT takes the hint itself as an operand (R101, D18; log 19). -/
def hintOfFilename (name : List Char) : Hint :=
  if endsWith name ['.', '2', 'm', 'g'] || endsWith name ['.', '2', 'i', 'm', 'g'] then .img2
  else if endsWith name ['.', 'p', 'o'] then .po
  else if endsWith name ['.', 'n', 'i', 'b'] then .nib
  else .dos

end Sys2Proof.Machine
end

