-- ==== Sys2Proof/Machine/Flags.lean ====
section
/-! DEFINITION. Every condition an operation tests. The block has no condition codes (R223): its flags are the mode bits of the
controller, `level`, and the comparisons below. -/

namespace Sys2Proof.Machine

/-! ### The clock -/

/-- `a` is strictly earlier than `b` within the half window: `((a - b) mod 2^31) >= 2^30` (R2). -/
def before (a b : Clock) : Bool := decide (2 ^ 30 ≤ (a - b).toNat)

/-! ### The stepper -/

/-- Whether magnet `m mod 4` is energized (R11). -/
def magnet (phases : BitVec 4) (m : Nat) : Bool := phases.getLsbD (m % 4)

/-- `dir`, the difference of the two neighbour bits, in {-1, 0, +1} (R166, R229). -/
def stepDirection (phases : BitVec 4) (p : HalfTrack) : Int :=
  (if magnet phases (p.val + 1) then 1 else 0) - (if magnet phases (p.val + 3) then 1 else 0)

/-! ### The sequencer -/

/-- Motor on, write mode, load mode armed: the test of the write-latch rule (R165). -/
def writeLatchOpen (k : Disk) : Bool := k.motorOn && k.writeMode && k.loadMode

/-- Motor on and read mode: a read of LOAD senses write protection (R163). -/
def senseEnabled (k : Disk) : Bool := k.motorOn && !k.writeMode

/-- The bytes `10 FB C9 D5` of R175. -/
def pollPattern : List Byte := [0x10#8, 0xFB#8, 0xC9#8, 0xD5#8]

/-- A byte of a sparse memory. -/
def memRead (unlisted : Byte) : Memory → Nat → Byte
  | [], _ => unlisted
  | c :: m, a => if c.1 = a then c.2 else memRead unlisted m a

/-- `CpuMemRead(a)`, free of side effects (R47). -/
def cpuMemRead (m : Memory) (a : Nat) : Byte := memRead cpuUnlisted m a

/-- The address of byte `k` of the poll window, `(pc + B + k) mod 65536` (R175). -/
def pollAddress (cfg : Config) (pc : BitVec 16) (k : Nat) : Nat :=
  (((pc.toNat : Int) + cfg.pollWindowBase + (k : Int)) % 65536).toNat

/-- The poll predicate: the four bytes of the window are the pattern, unless the configuration fixes it false (R175). -/
def pollMatches (cfg : Config) (inp : Inputs) : Bool :=
  cfg.pollEnabled &&
    (List.range 4).all (fun k => cpuMemRead inp.cpuMem (pollAddress cfg inp.pc k) == pollPattern.getD k 0#8)

/-! ### The synthesizer -/

/-- The end of the sample window that begins at `sclk`, `(sclk + cps) mod 2^31` (R193). -/
def sampleEnd (k : Speaker) : Clock := k.sclk + BitVec.ofNat 31 k.cps

/-- STOP(clockEnd): the gap test or the boundary test (R197). -/
def fillStops (k : Speaker) (clockEnd : Clock) : Bool :=
  before clockEnd k.sclk || before clockEnd (sampleEnd k)

/-- A flip event is pending and lies before `sclk`: the condition of the drain loop (R198). -/
def flipDue (f : FlipRing) (k : Speaker) : Bool :=
  decide (k.ringRd ≠ f.ringWr) && before (f.ring.getD k.ringRd 0#31) k.sclk

/-- The step is 0 modulo 2^31: no sample would move the clock (log 14). -/
def clockStands (k : Speaker) : Bool := decide (k.cps % 2 ^ 31 = 0)

end Sys2Proof.Machine
end

