-- ==== Sys2Proof/Machine/Ops.lean ====
section
/-! DEFINITION. The shared operations over memories, the result register, the free values, the conditions and the request
queue. Every meaning is built from these. -/

namespace Sys2Proof.Machine

/-- What a meaning answers. -/
abbrev Answer := Host.Outcome State Fault Refusal

/-! ### Memories -/

/-- Store `v` at `a` in a sparse memory, keeping the canonical form: writing what an unlisted address reads as removes the
entry. -/
def memWrite (unlisted : Byte) : Memory → Nat → Byte → Memory
  | [], a, v => if v = unlisted then [] else [(a, v)]
  | c :: m, a, v =>
    if a < c.1 then (if v = unlisted then c :: m else (a, v) :: c :: m)
    else if c.1 = a then (if v = unlisted then m else (a, v) :: m)
    else c :: memWrite unlisted m a v

/-- The memory that holds the bytes of a list from address `a` on and nothing else. -/
def memOfBytes (unlisted : Byte) : Nat → List Byte → Memory
  | _, [] => []
  | a, v :: l => if v = unlisted then memOfBytes unlisted (a + 1) l else (a, v) :: memOfBytes unlisted (a + 1) l

/-- `TrkRead(d, t, o)` on drive d's memory (R41). -/
def trkRead (m : Memory) (t : TrackIndex) (o : Offset) : Byte := memRead trackUnlisted m (trackKey t o)

/-- `TrkWrite(d, t, o, v)` on drive d's memory (R42). -/
def trkWrite (m : Memory) (t : TrackIndex) (o : Offset) (v : Byte) : Memory :=
  memWrite trackUnlisted m (trackKey t o) v

/-- The 35 buffers of a drive replaced at once, from 35 lists of 6656 bytes (R111). -/
def trkWriteAll (tracks : List (List Byte)) : Memory := memOfBytes trackUnlisted 0 tracks.flatten

/-- The byte of the active track buffer at offset `o`. -/
def headRead (k : Disk) (o : Offset) : Byte := trkRead (activeDrive k).trk (activeTrack k) o

/-- The active track buffer with `v` stored at offset `o`. -/
def headWrite (k : Disk) (o : Offset) (v : Byte) : Disk :=
  setDriveState k k.drive { activeDrive k with trk := trkWrite (activeDrive k).trk (activeTrack k) o v }

/-! ### Results -/

/-- The operation returns `r` and changes nothing else. -/
def returns (r : Result) (s : State) : State := { s with result := r }

/-- The operation returns a fresh noise draw: one draw, never used again (R4; log 6). -/
def returnsNoise (s : State) : State :=
  { s with result := .byte (Config.noise s.draws), draws := s.draws + 1 }

/-- `n` fresh bytes that the spec calls unspecified: the n-th draw (log 7). -/
def unspecifiedBytes (s : State) (n : Nat) : List Byte := (List.range n).map (Config.unspecified s.draws)

/-- The sink is called (R192). -/
def callSink (c : SinkCall) (s : State) : State := { s with sinkCalls := s.sinkCalls ++ [c] }

/-! ### Conditions -/

/-- Report a condition: it is the return value of the host operation that raised it; there is no trap entry, no saved state
and no mode change (R237), so nothing is returned from (R238). -/
def raise (c : Condition) (s : State) : State := returns (.failed c) s

/-- The code of a condition (60_exceptions.md section 1). -/
def conditionCode : Condition → Nat
  | .formatError _ => 1
  | .boundedScanExhausted => 2
  | .unmappedAddress => 3
  | .resourceUnavailable => 4

/-! ### The sequence of operations -/

/-- The oldest request and the state it runs in: the request leaves the queue and its inputs become the current ones
(R3, R6; logs 1 and 2). -/
def fetch (s : State) : Option (Access × State) :=
  match s.queue with
  | [] => none
  | r :: q => some (r.access, { s with queue := q, inp := r.inputs })

/-- A request put before all others, with the current inputs. -/
def enqueueFirst (s : State) (a : Access) : State :=
  { s with queue := { access := a, inputs := s.inp } :: s.queue }

end Sys2Proof.Machine
end

