-- ==== Sys2Proof/Machine/Controller.lean ====
section
/-! DEFINITION. The Disk II controller: the 32 bus accesses, DMEMRD, DMEMWR, DRESET (43_disk2_controller.md, R252). -/

namespace Sys2Proof.Machine

/-! ### The access skeleton (R167) -/

/-- A read of an even address after the switch effect gave `k`: it returns the latch (R164). -/
def readEven (s : State) (k : Disk) : Answer := .next (returns (.byte k.latch) { s with disk := k })

/-- A read of an odd address after the switch effect gave `k`: it returns noise (R164). -/
def readOdd (s : State) (k : Disk) : Answer := .next (returnsNoise { s with disk := k })

/-- The write-latch rule, on the state after the switch effect (R165). -/
def writeLatch (wdata : Byte) (k : Disk) : Disk :=
  { k with latch := if writeLatchOpen k then wdata else k.latch }

/-- A write of any address after the switch effect gave `k`: the write-latch rule, and nothing is returned. -/
def writeAccess (s : State) (wdata : Byte) (k : Disk) : Answer :=
  .next (returns .none { s with disk := writeLatch wdata k })

/-! ### Phase magnets and the stepper -/

/-- Stepper re-evaluation, on the selected drive only (R166). -/
def stepper (k : Disk) : Disk :=
  setDriveState k k.drive
    { activeDrive k with
      pos := clampPos (((activeDrive k).pos.val : Int) + stepDirection k.phases (activeDrive k).pos) }

/-- Magnet `m` off, then the stepper (R150, R152, R154, R156). -/
def phaseOff (m : Fin 4) (k : Disk) : Disk := stepper { k with phases := k.phases &&& ~~~(1#4 <<< m.val) }

/-- Magnet `m` on, then the stepper (R151, R153, R155, R157). -/
def phaseOn (m : Fin 4) (k : Disk) : Disk := stepper { k with phases := k.phases ||| (1#4 <<< m.val) }

/-- RD.PH0OFF (R150). -/
def execRdPh0off (s : State) : Answer := readEven s (phaseOff 0 s.disk)

/-- RD.PH0ON (R151). -/
def execRdPh0on (s : State) : Answer := readOdd s (phaseOn 0 s.disk)

/-- RD.PH1OFF (R152). -/
def execRdPh1off (s : State) : Answer := readEven s (phaseOff 1 s.disk)

/-- RD.PH1ON (R153). -/
def execRdPh1on (s : State) : Answer := readOdd s (phaseOn 1 s.disk)

/-- RD.PH2OFF (R154). -/
def execRdPh2off (s : State) : Answer := readEven s (phaseOff 2 s.disk)

/-- RD.PH2ON (R155). -/
def execRdPh2on (s : State) : Answer := readOdd s (phaseOn 2 s.disk)

/-- RD.PH3OFF (R156). -/
def execRdPh3off (s : State) : Answer := readEven s (phaseOff 3 s.disk)

/-- RD.PH3ON (R157). -/
def execRdPh3on (s : State) : Answer := readOdd s (phaseOn 3 s.disk)

/-- WR.PH0OFF (R150). -/
def execWrPh0off (wdata : Byte) (s : State) : Answer := writeAccess s wdata (phaseOff 0 s.disk)

/-- WR.PH0ON (R151). -/
def execWrPh0on (wdata : Byte) (s : State) : Answer := writeAccess s wdata (phaseOn 0 s.disk)

/-- WR.PH1OFF (R152). -/
def execWrPh1off (wdata : Byte) (s : State) : Answer := writeAccess s wdata (phaseOff 1 s.disk)

/-- WR.PH1ON (R153). -/
def execWrPh1on (wdata : Byte) (s : State) : Answer := writeAccess s wdata (phaseOn 1 s.disk)

/-- WR.PH2OFF (R154). -/
def execWrPh2off (wdata : Byte) (s : State) : Answer := writeAccess s wdata (phaseOff 2 s.disk)

/-- WR.PH2ON (R155). -/
def execWrPh2on (wdata : Byte) (s : State) : Answer := writeAccess s wdata (phaseOn 2 s.disk)

/-- WR.PH3OFF (R156). -/
def execWrPh3off (wdata : Byte) (s : State) : Answer := writeAccess s wdata (phaseOff 3 s.disk)

/-- WR.PH3ON (R157). -/
def execWrPh3on (wdata : Byte) (s : State) : Answer := writeAccess s wdata (phaseOn 3 s.disk)

/-! ### Motor, drive select, modes -/

/-- RD.MOTOROFF (R158). -/
def execRdMotoroff (s : State) : Answer := readEven s { s.disk with motorOn := false }

/-- RD.MOTORON (R159). -/
def execRdMotoron (s : State) : Answer := readOdd s { s.disk with motorOn := true }

/-- RD.DRV0 (R160). -/
def execRdDrv0 (s : State) : Answer := readEven s { s.disk with drive := .d0 }

/-- RD.DRV1 (R161). -/
def execRdDrv1 (s : State) : Answer := readOdd s { s.disk with drive := .d1 }

/-- RD.RDMODE (R176). -/
def execRdRdmode (s : State) : Answer := readEven s { s.disk with writeMode := false }

/-- RD.WRMODE (R177). -/
def execRdWrmode (s : State) : Answer := readOdd s { s.disk with writeMode := true }

/-- WR.MOTOROFF (R158). -/
def execWrMotoroff (wdata : Byte) (s : State) : Answer := writeAccess s wdata { s.disk with motorOn := false }

/-- WR.MOTORON (R159). -/
def execWrMotoron (wdata : Byte) (s : State) : Answer := writeAccess s wdata { s.disk with motorOn := true }

/-- WR.DRV0 (R160). -/
def execWrDrv0 (wdata : Byte) (s : State) : Answer := writeAccess s wdata { s.disk with drive := .d0 }

/-- WR.DRV1 (R161). -/
def execWrDrv1 (wdata : Byte) (s : State) : Answer := writeAccess s wdata { s.disk with drive := .d1 }

/-- WR.RDMODE (R176). -/
def execWrRdmode (wdata : Byte) (s : State) : Answer := writeAccess s wdata { s.disk with writeMode := false }

/-- WR.WRMODE (R177). -/
def execWrWrmode (wdata : Byte) (s : State) : Answer := writeAccess s wdata { s.disk with writeMode := true }

/-! ### The sequencer -/

/-- The two fast-forward scans: while the latch is not as wanted and steps are left, advance the offset and read there; a
test-first loop (R171, R172, D10). It answers the latch and the offset. -/
def scan (wanted : Byte → Bool) (read : Offset → Byte) : Nat → Byte → Offset → Byte × Offset
  | 0, latch, off => (latch, off)
  | steps + 1, latch, off =>
    if wanted latch then (latch, off)
    else scan wanted read steps (read (nextOffset off)) (nextOffset off)

/-- POLL-SCAN wants the prologue byte 0xD5 (R171). -/
def isPrologue (b : Byte) : Bool := b == 0xD5#8

/-- SENTINEL-SCAN wants a byte that is not the pad nibble (R172). -/
def isNotPad (b : Byte) : Bool := b != padNibble

/-- READ, then one of the scans or none: the latch and the offset before ADVANCE (R168, R170 to R172). -/
def readHead (poll : Bool) (k : Disk) : Byte × Offset :=
  let first := headRead k k.off
  if poll then scan isPrologue (headRead k) scanBound first k.off
  else scan isNotPad (headRead k) scanBound first k.off

/-- SPIN: the counter that motor-off read cycles count (R169). -/
def spun (k : Disk) : Disk := { k with spin := k.spin + 1#4 }

/-- READ, the scans and ADVANCE (R168, R174). -/
def readCycle (poll : Bool) (k : Disk) : Disk :=
  { k with latch := (readHead poll k).1, off := nextOffset (readHead poll k).2 }

/-- STORE and ADVANCE, gated by the mode alone (R173, R174). -/
def storeCycle (k : Disk) : Disk :=
  let k' := headWrite k k.off k.latch
  { k' with off := nextOffset k'.off }

/-- The shift/latch cycle (R168). -/
def shiftCycle (poll : Bool) (k : Disk) : Disk :=
  let k := { k with loadMode := false }
  if k.writeMode then storeCycle k
  else if k.motorOn then readCycle poll k
  else
    let k := spun k
    if k.spin = 0#4 then { k with latch := padNibble } else readCycle poll k

/-- RD.SHIFT (R162). -/
def execRdShift (s : State) : Answer := readEven s (shiftCycle (pollMatches s.cfg s.inp) s.disk)

/-- WR.SHIFT (R162): the same cycle, then the write-latch rule. -/
def execWrShift (wdata : Byte) (s : State) : Answer :=
  writeAccess s wdata (shiftCycle (pollMatches s.cfg s.inp) s.disk)

/-- The write-protect sense of a read of LOAD: bit 7 becomes the active drive's flag, bits 6:0 are kept (R163). -/
def senseProtect (k : Disk) : Disk :=
  if senseEnabled k then
    { k with latch := if (activeDrive k).wp then (k.latch &&& 0x7F#8) ||| 0x80#8 else k.latch &&& 0x7F#8 }
  else k

/-- RD.LOAD (R163). -/
def execRdLoad (s : State) : Answer := readOdd s (senseProtect { s.disk with loadMode := true })

/-- WR.LOAD (R163). -/
def execWrLoad (wdata : Byte) (s : State) : Answer := writeAccess s wdata { s.disk with loadMode := true }

/-! ### ROM window and bus reset -/

/-- DMEMRD (R179). -/
def execDmemrd (romOffset : Nat) (s : State) : Answer :=
  .next (returns (.byte (s.cfg.rom.getD (romIndex romOffset) 0#8)) s)

/-- DMEMWR: the ROM cannot be written (R180). -/
def execDmemwr (_addr : Nat) (_value : Byte) (s : State) : Answer := .next (returns .none s)

/-- DRESET: the motor goes off and nothing else changes (R252, D15). -/
def execDreset (s : State) : Answer := .next (returns .none { s with disk := { s.disk with motorOn := false } })

end Sys2Proof.Machine
end

