-- ==== Sys2Proof/Machine/Codec.lean ====
section
/-! DEFINITION. The nibble codec: pure functions, and the ten operations that return them (42_nibble_codec.md). A list operand
that is shorter than its rule says reads as 0 beyond its end; no decoded operation has one (log 16). -/

namespace Sys2Proof.Machine

/-! ### 4-and-4 (R63, R120, R121) -/

/-- ENC44: the odd bits, then the even bits. -/
def enc44 (v : Byte) : List Byte := [(v >>> 1) ||| 0xAA#8, v ||| 0xAA#8]

/-- DEC44; the shift is cut to eight bits, as R224 says of the result. -/
def dec44 (x y : Byte) : Byte := ((x <<< 1) ||| 1#8) &&& y

/-! ### 6-and-2 (R122 to R124) -/

/-- `SWAP2 = {0, 2, 1, 3}`: the two bits exchanged. -/
def swap2 (x : BitVec 2) : BitVec 2 :=
  if x = 1#2 then 2#2 else if x = 2#2 then 1#2 else x

/-- `SWAP2[b & 3]`, as a six-bit value. -/
def foldBits (b : Byte) : Six := (swap2 (b.setWidth 2)).setWidth 6

/-- One fold of byte `v` into slot `j`: `lo[j] <- (lo[j] << 2) | SWAP2[v & 3]`. The slots are six bits wide, which is the mask
that R122 applies at the end. -/
def foldInto (lo : List Six) (j : Nat) (v : Byte) : List Six := lo.modify j (fun x => (x <<< 2) ||| foldBits v)

/-- The slot after `j` in the rotation. -/
def nextSlot (j : Nat) : Nat := if j = 85 then 0 else j + 1

/-- The 86 slots seeded with byte 1 and then byte 0 (R122). -/
def seedSlots (b : List Byte) : List Six :=
  ((List.replicate 86 0#6).set 0 (foldBits (b.getD 1 0#8))).set 1 (foldBits (b.getD 0 0#8))

/-- The loop of R122: the bytes `count - 1` down to 0, from slot `j` on. -/
def foldLoop (b : List Byte) : Nat → Nat → List Six → List Six
  | 0, _, lo => lo
  | i + 1, j, lo => foldLoop b i (nextSlot j) (foldInto lo j (b.getD i 0#8))

/-- SPLIT62's 256 high values. -/
def splitHigh (b : List Byte) : List Six := (List.range 256).map (fun i => ((b.getD i 0#8) >>> 2).setWidth 6)

/-- SPLIT62's 86 low values, by the procedure of R122. -/
def splitLow (b : List Byte) : List Six := foldLoop b 256 2 (seedSlots b)

/-- JOIN62's byte `i` (R124). -/
def joinByte (hi lo : List Six) (i : Nat) : Byte :=
  ((hi.getD i 0#6).setWidth 8 <<< 2) |||
    (swap2 ((lo.getD (85 - i % 86) 0#6 >>> (2 * (i / 86))).setWidth 2)).setWidth 8

/-- JOIN62 (R124). -/
def join62 (hi lo : List Six) : List Byte := (List.range 256).map (joinByte hi lo)

/-! ### Fields -/

/-- The address prologue, the data prologue and the epilogue (R64, R65). -/
def addressPrologue : List Byte := [0xD5#8, 0xAA#8, 0x96#8]

/-- The data prologue (R65). -/
def dataPrologue : List Byte := [0xD5#8, 0xAA#8, 0xAD#8]

/-- The epilogue of both fields. -/
def epilogue : List Byte := [0xDE#8, 0xAA#8, 0xEB#8]

/-- WRSYNC (R125). -/
def wrsync (n : Nat) : List Byte := List.replicate n syncNibble

/-- WRADDR (R64, R126). -/
def wraddr (volume track sector : Byte) : List Byte :=
  addressPrologue ++ enc44 volume ++ enc44 track ++ enc44 sector ++ enc44 (volume ^^^ track ^^^ sector) ++ epilogue

/-- Nibble `k` of a field. -/
def nibbleAt (n : List Byte) (k : Nat) : Byte := n.getD k 0#8

/-- The 4-and-4 value at offset `k` of a field. -/
def field44 (n : List Byte) (k : Nat) : Byte := dec44 (nibbleAt n k) (nibbleAt n (k + 1))

/-- The odd bit positions are 1, as in every 4-and-4 nibble (R63). -/
def oddBitsSet (x : Byte) : Bool := x &&& 0xAA#8 == 0xAA#8

/-- RDADDR's `ok`: the formula of R127, and no 4-and-4 nibble has a zero in an odd bit position (R73; D27, 93 row 29;
log 23). -/
def addressOk (n : List Byte) : Bool :=
  n.take 3 == addressPrologue && (n.drop 11).take 3 == epilogue && ((n.drop 3).take 8).all oddBitsSet &&
    field44 n 9 == (field44 n 3 ^^^ field44 n 5 ^^^ field44 n 7)

/-- `GCR62[x]` (R68). -/
def gcr (cfg : Config) (x : Six) : Byte := cfg.gcr62.getD x.toNat 0#8

/-- `INV62[n]`, none where `n` is no value of `GCR62` (R129). -/
def inv62 (cfg : Config) (n : Byte) : Option Six := (cfg.gcr62.idxOf? n).map (BitVec.ofNat 6)

/-- The checksum chain from `last` on: each value XORed with the one before it, and the last value once more (R65, R128). -/
def chain (cfg : Config) : Six → List Six → List Byte
  | last, [] => [gcr cfg last]
  | last, p :: ps => gcr cfg (last ^^^ p) :: chain cfg p ps

/-- WRDATA: `lo[85]` down to `lo[0]`, then `hi[0]` up to `hi[255]` (R65, R128). -/
def wrdata (cfg : Config) (hi lo : List Six) : List Byte :=
  dataPrologue ++ chain cfg 0#6 (lo.reverse ++ hi) ++ epilogue

/-- The chain undone: the running XOR of the decoded nibbles (R129). -/
def unchain : Six → List Six → List Six
  | _, [] => []
  | last, x :: xs => (last ^^^ x) :: unchain (last ^^^ x) xs

/-- The plaintext of a data field's 343 nibbles, none where one of them is no value of `GCR62` (R129). -/
def fieldPlaintext (cfg : Config) (n : List Byte) : Option (List Six) :=
  (((n.drop 3).take 343).mapM (inv62 cfg)).map (unchain 0#6)

/-- RDDATA: the 256 bytes, or none where `ok` is false (R129). -/
def rddata (cfg : Config) (n : List Byte) : Option (List Byte) :=
  if n.take 3 == dataPrologue && (n.drop 346).take 3 == epilogue then
    match fieldPlaintext cfg n with
    | none => none
    | some p => if p.getD 342 0#6 = 0#6 then some (join62 ((p.drop 86).take 256) (p.take 86).reverse) else none
  else none

/-! ### Tracks (R66, R130 to R132) -/

/-- The interleave table of an order (R69). -/
def interleave (cfg : Config) : Order → List (Fin 16)
  | .dos => cfg.orderDos
  | .prodos => cfg.orderProdos

/-- The 256 image bytes of logical sector `l` of a track. -/
def sectorData (data : List Byte) (l : Fin 16) : List Byte := (data.drop (256 * l.val)).take 256

/-- Physical sector `s` of an encoded track, 383 nibbles (R66, R130). -/
def encSector (cfg : Config) (data : List Byte) (volume track : Byte) (order : Order) (s : Nat) : List Byte :=
  let b := sectorData data ((interleave cfg order).getD s 0)
  wrsync syncBeforeAddress ++ wraddr volume track (BitVec.ofNat 8 s) ++ wrsync syncBeforeData ++
    wrdata cfg (splitHigh b) (splitLow b)

/-- The sixteen sectors of a track. -/
def encSectors (cfg : Config) (data : List Byte) (volume track : Byte) (order : Order) : List Byte :=
  (List.range numSectors).flatMap (encSector cfg data volume track order)

/-- A track buffer filled up with the pad nibble (R132). -/
def padTrack (l : List Byte) : List Byte := l ++ List.replicate (rawTrackBytes - l.length) padNibble

/-- ENCTRACK (R130). -/
def enctrack (cfg : Config) (data : List Byte) (volume track : Byte) (order : Order) : List Byte :=
  padTrack (encSectors cfg data volume track order)

/-! ### The operations -/

/-- ENC44 (R120). -/
def execEnc44 (v : Byte) (s : State) : Answer := .next (returns (.nibbles (enc44 v)) s)

/-- DEC44 (R121). -/
def execDec44 (x y : Byte) (s : State) : Answer := .next (returns (.byte (dec44 x y)) s)

/-- SPLIT62 (R122). -/
def execSplit62 (b : List Byte) (s : State) : Answer := .next (returns (.split (splitHigh b) (splitLow b)) s)

/-- JOIN62 (R124). -/
def execJoin62 (hi lo : List Six) (s : State) : Answer := .next (returns (.bytes (join62 hi lo)) s)

/-- WRSYNC (R125). -/
def execWrsync (n : Nat) (s : State) : Answer := .next (returns (.nibbles (wrsync n)) s)

/-- WRADDR (R126). -/
def execWraddr (volume track sector : Byte) (s : State) : Answer :=
  .next (returns (.nibbles (wraddr volume track sector)) s)

/-- RDADDR's result: the decoded fields where `ok` is true, no partial result where it is false (R127, 93 row 29; log 17). -/
def rdaddr (n : List Byte) : Result :=
  if addressOk n then .address (field44 n 3) (field44 n 5) (field44 n 7) else .addressRejected

/-- RDADDR (R127). -/
def execRdaddr (n : List Byte) (s : State) : Answer := .next (returns (rdaddr n) s)

/-- WRDATA (R128). -/
def execWrdata (hi lo : List Six) (s : State) : Answer := .next (returns (.nibbles (wrdata s.cfg hi lo)) s)

/-- What RDDATA leaves: where `ok` is false its 256 bytes are unspecified, a fresh free value (R129; log 7). -/
def rddataResult (n : List Byte) (s : State) : State :=
  match rddata s.cfg n with
  | some b => returns (.sector b true) s
  | none => returns (.sector (unspecifiedBytes s 256) false) { s with draws := s.draws + 1 }

/-- RDDATA (R129). -/
def execRddata (n : List Byte) (s : State) : Answer := .next (rddataResult n s)

/-- ENCTRACK (R130). -/
def execEnctrack (data : List Byte) (volume track : Byte) (order : Order) (s : State) : Answer :=
  .next (returns (.nibbles (enctrack s.cfg data volume track order)) s)

end Sys2Proof.Machine
end

