-- ==== Sys2Proof/Machine/Loader.lean ====
section
/-! DEFINITION. The image loader (41_image_loader.md): MOUNT and UNMOUNT. -/

namespace Sys2Proof.Machine

/-- The three payload layouts (R76). -/
inductive Layout where
  | dos
  | prodos
  | nib
deriving DecidableEq, Repr

/-- What is known once the header, if there is one, has been read: the layout, the volume for the address fields, the new
write-protect flag, and the payload. -/
structure Image where
  layout : Layout
  volume : Byte
  wp : Bool
  payload : List Byte
deriving DecidableEq, Repr

/-- The ASCII bytes "2IMG" (R71, R103). -/
def img2Magic : List Byte := [0x32#8, 0x49#8, 0x4D#8, 0x47#8]

/-- The format code of a 2IMG header (R105). -/
def layoutOf (h : List Byte) : Option Layout :=
  match header32 h 12 with
  | 0 => some .dos
  | 1 => some .prodos
  | 2 => some .nib
  | _ => none

/-- The volume the flags word gives: its bits 7:0 where bit 8 is set (R107). -/
def flagsVolume (cfg : Config) (flags : Nat) : Byte :=
  if flags.testBit 8 then BitVec.ofNat 8 flags else cfg.defaultVolume

/-- The 2IMG header, its checks in their order (R102 to R107). -/
def readHeader (cfg : Config) (stream : List Byte) (wpRequest : Bool) : Except FormatReason Image :=
  if stream.length < img2HeaderBytes then .error .truncated
  else if stream.take 4 ≠ img2Magic then .error .magic
  else if header16 stream 8 ≠ img2HeaderBytes then .error .headerSize
  else
    match layoutOf stream with
    | none => .error .imageFormat
    | some layout =>
      if layout = .prodos ∧ header32 stream 20 ≠ img2ProdosBlocks then .error .numBlocks
      else
        .ok { layout := layout
              volume := flagsVolume cfg (header32 stream 16)
              wp := wpRequest || (header32 stream 16).testBit 31
              payload := stream.drop img2HeaderBytes }

/-- The image a hint and a stream give (R102, R108). -/
def readImage (cfg : Config) (hint : Hint) (stream : List Byte) (wpRequest : Bool) : Except FormatReason Image :=
  match hint with
  | .img2 => readHeader cfg stream wpRequest
  | .po => .ok { layout := .prodos, volume := cfg.defaultVolume, wp := wpRequest, payload := stream }
  | .nib => .ok { layout := .nib, volume := cfg.defaultVolume, wp := wpRequest, payload := stream }
  | .dos => .ok { layout := .dos, volume := cfg.defaultVolume, wp := wpRequest, payload := stream }

/-- How many stream bytes one track takes (R76). -/
def trackBytes : Layout → Nat
  | .dos => trackDataBytes
  | .prodos => trackDataBytes
  | .nib => rawTrackBytes

/-- The buffer of track `t` from its stream bytes (R109). -/
def ingestTrack (cfg : Config) (layout : Layout) (volume : Byte) (t : Nat) (data : List Byte) : List Byte :=
  match layout with
  | .dos => enctrack cfg data volume (BitVec.ofNat 8 t) .dos
  | .prodos => enctrack cfg data volume (BitVec.ofNat 8 t) .prodos
  | .nib => data

/-- The buffers of `count` tracks from track `t` on, read front to back; a stream that ends early is an error (R55, R109). -/
def ingest (cfg : Config) (layout : Layout) (volume : Byte) :
    Nat → Nat → List Byte → Except FormatReason (List (List Byte))
  | 0, _, _ => .ok []
  | count + 1, t, stream =>
    if stream.length < trackBytes layout then .error .truncated
    else
      match ingest cfg layout volume count (t + 1) (stream.drop (trackBytes layout)) with
      | .error e => .error e
      | .ok rest => .ok (ingestTrack cfg layout volume t (stream.take (trackBytes layout)) :: rest)

/-- Everything MOUNT works out before it commits: the new write-protect flag and the 35 buffers, or the first failing check
(R102 to R110). -/
def loadImage (cfg : Config) (hint : Hint) (stream : List Byte) (wpRequest : Bool) :
    Except FormatReason (Bool × List (List Byte)) :=
  match readImage cfg hint stream wpRequest with
  | .error e => .error e
  | .ok image =>
    match ingest cfg image.layout image.volume numTracks 0 image.payload with
    | .error e => .error e
    | .ok tracks => .ok (image.wp, tracks)

/-- The commit: the write-protect flag and the 35 buffers of one drive, and nothing else (R111). -/
def commitMount (d : Drive) (wp : Bool) (tracks : List (List Byte)) (k : Disk) : Disk :=
  setDriveState k d { driveState k d with wp := wp, trk := trkWriteAll tracks }

/-- What MOUNT leaves: a failed one writes no state (R110). -/
def mountResult (d : Drive) (hint : Hint) (stream : List Byte) (wpRequest : Bool) (s : State) : State :=
  match loadImage s.cfg hint stream wpRequest with
  | .error e => raise (.formatError e) s
  | .ok (wp, tracks) => returns .ok { s with disk := commitMount d wp tracks s.disk }

/-- MOUNT (R100). -/
def execMount (d : Drive) (hint : Hint) (stream : List Byte) (wpRequest : Bool) (s : State) : Answer :=
  .next (mountResult d hint stream wpRequest s)

/-- UNMOUNT: nothing (R112, D41). -/
def execUnmount (_d : Drive) (s : State) : Answer := .next (returns .none s)

end Sys2Proof.Machine
end

