-- ==== Sys2Proof/Machine/Paddle.lean ====
section
/-! DEFINITION. The paddle model (45_paddle.md, R254). -/

namespace Sys2Proof.Machine

/-- `value * 11 + 8` clock ticks (R216). -/
def paddleIncrement (value : Byte) : Nat := value.toNat * 11 + 8

/-- A one-bit answer in bit 7 (R218, R220). -/
def bit7 (p : Bool) : Byte := if p then 0x80#8 else 0x00#8

/-- PDLSET (R216). -/
def execPdlset (a : Nat) (value : Byte) (s : State) : Answer :=
  .next (returns .none
    { s with pdl := { s.pdl with inc := s.pdl.inc.set (index4 a).val (paddleIncrement value) (index4 a).isLt } })

/-- PDLTRIG: all four axes at once (R217). -/
def execPdltrig (s : State) : Answer :=
  .next (returns .none
    { s with pdl := { s.pdl with event := s.pdl.inc.map (fun n => s.inp.clockNow + BitVec.ofNat 31 n) } })

/-- PDLREAD: high while the clock is strictly before the axis's event (R218, C7). -/
def execPdlread (a : Nat) (s : State) : Answer :=
  .next (returns (.byte (bit7 (before s.inp.clockNow (s.pdl.event.get (index4 a))))) s)

/-- BTNSET (R219). -/
def execBtnset (b : Nat) (pressed : Bool) (s : State) : Answer :=
  .next (returns .none
    { s with pdl := { s.pdl with button := s.pdl.button.set (index4 b).val pressed (index4 b).isLt } })

/-- BTNREAD (R220). -/
def execBtnread (b : Nat) (s : State) : Answer :=
  .next (returns (.byte (bit7 (s.pdl.button.get (index4 b)))) s)

/-- PDLRESET: no state change (R254). -/
def execPdlreset (s : State) : Answer := .next (returns .none s)

end Sys2Proof.Machine
end

