-- ==== Sys2Proof/Machine/Port.lean ====
section
/-! DEFINITION. The null device of the peripheral port (40_peripheral.md). -/

namespace Sys2Proof.Machine

/-- NIORD: floating-bus noise, whatever the address (R91). -/
def execNiord (_addr : Nat) (s : State) : Answer := .next (returnsNoise s)

/-- NIOWR: nothing (R92). -/
def execNiowr (_addr : Nat) (_value : Byte) (s : State) : Answer := .next (returns .none s)

/-- NMEMRD: floating-bus noise (R93). -/
def execNmemrd (_addr : Nat) (s : State) : Answer := .next (returnsNoise s)

/-- NMEMWR: nothing (R94). -/
def execNmemwr (_addr : Nat) (_value : Byte) (s : State) : Answer := .next (returns .none s)

/-- NRESET: the null device has no state (R95, R255). -/
def execNreset (s : State) : Answer := .next (returns .none s)

end Sys2Proof.Machine
end

