-- ==== Sys2Proof/Machine/Speaker.lean ====
section
/-! DEFINITION. The speaker synthesizer (44_speaker.md, R253). -/

namespace Sys2Proof.Machine

/-! ### Samples -/

/-- `A(level, volume)`: plus or minus `1 << (volume + 8)` (R200). -/
def amplitude (level : Bool) (volume : BitVec 3) : Int :=
  if level then 2 ^ (volume.toNat + 8) else -(2 ^ (volume.toNat + 8))

/-- `SAMPLE(level, volume) = A mod 65536` (R201). -/
def sample (level : Bool) (volume : BitVec 3) : BitVec 16 := BitVec.ofInt 16 (amplitude level volume)

/-- `PcmWrite(i, b)` (R46). -/
def pcmWrite (k : Speaker) (i : Nat) (b : Byte) : Speaker := { k with pcm := k.pcm.set i b }

/-- EMIT at `n`: the sample, low byte first (R199, R70). -/
def emit (n : Nat) (k : Speaker) : Speaker :=
  let v := sample k.level k.volume
  pcmWrite (pcmWrite k n (v.setWidth 8)) (n + 1) ((v >>> 8).setWidth 8)

/-! ### One fill -/

/-- The cursor after `i` in a ring of `size` elements (R190, R198). -/
def nextInRing (size i : Nat) : Nat := (i + 1) % size

/-- DRAIN: every pending event before `sclk` flips the level; at most `fuel` events, and FLIP_RING_SIZE bounds the loop
(R198, R226; log 15). -/
def drain (size : Nat) (f : FlipRing) : Nat → Speaker → Speaker
  | 0, k => k
  | fuel + 1, k =>
    if flipDue f k then drain size f fuel { k with ringRd := nextInRing size k.ringRd, level := !k.level }
    else k

/-- One sample slot: advance the clock, drain, emit at `n` (R196). -/
def sampleSlot (size : Nat) (f : FlipRing) (n : Nat) (k : Speaker) : Speaker :=
  emit n (drain size f size { k with sclk := sampleEnd k })

/-- The loop of SPKFILL with `slots` sample slots left and `n` bytes written: it answers the byte count and the synthesizer
(R196, R197). -/
def fillLoop (size : Nat) (f : FlipRing) (clockEnd : Clock) : Nat → Nat → Speaker → Nat × Speaker
  | 0, n, k => (n, k)
  | slots + 1, n, k =>
    if fillStops k clockEnd then (n, k) else fillLoop size f clockEnd slots (n + 2) (sampleSlot size f n k)

/-- SPKFILL on the synthesizer: `bufSize div 2` slots, since a slot at `n` needs `n + 2 <= bufSize` (R196, D32). -/
def fill (size : Nat) (f : FlipRing) (clockEnd : Clock) (k : Speaker) : Nat × Speaker :=
  fillLoop size f clockEnd (k.bufSize / 2) 0 k

/-! ### The refresh -/

/-- More fills than a refresh can make: `sclk` takes at most 2^31 values, and where `cps` is no multiple of 2^31 one of them
stops the fill. (R226 gives the closer bound `gap div cps + 1`.) -/
abbrev refreshBound : Nat := 2 ^ 31 + 1

/-- The chunk loop: fill until a fill produces nothing; it answers the chunks for the sink and the synthesizer (R206). -/
def refreshLoop (size : Nat) (f : FlipRing) (clockEnd : Clock) : Nat → Speaker → List (List Byte) × Speaker
  | 0, k => ([], k)
  | fuel + 1, k =>
    let r := fill size f clockEnd k
    if r.1 = 0 then ([], r.2)
    else
      let rest := refreshLoop size f clockEnd fuel r.2
      (r.2.pcm.take r.1 :: rest.1, rest.2)

/-- What a refresh that gets past its two early returns delivers and leaves. Where no sample would move the clock it produces
none: R206 counts `gap div cps` samples, which is 0 for every `cps` of 2^31 and more, and the operation completes in every
state (R234, R249; log 14). -/
def refresh (size : Nat) (f : FlipRing) (clockEnd : Clock) (k : Speaker) : List (List Byte) × Speaker :=
  if clockStands k then ([], k) else refreshLoop size f clockEnd refreshBound k

/-- The bytes passed to `audioWrite` so far, concatenated: the block's audio output (R192). -/
def audioOutput (s : State) : List Byte :=
  (s.sinkCalls.map (fun c =>
    match c with
    | .audioWrite chunk => chunk
    | .initAudio _ => []
    | .isAudioAvailable _ => []
    | .closeAudio => [])).flatten

/-! ### The operations -/

/-- SPKTOGGLE: the CPU core appends `clock_now` to the flip ring (R190). -/
def execSpktoggle (s : State) : Answer :=
  .next (returns .none
    { s with flips := { ring := s.flips.ring.set s.flips.ringWr s.inp.clockNow,
                        ringWr := nextInRing s.cfg.flipRingSize s.flips.ringWr } })

/-- SPKFILL (R196). -/
def execSpkfill (clockEnd : Clock) (s : State) : Answer :=
  let r := fill s.cfg.flipRingSize s.flips clockEnd s.spk
  .next (returns (.count r.1) { s with spk := r.2 })

/-- The refresh of an open and available sink: every chunk is handed to the sink (R206). -/
def deliver (s : State) : State :=
  let r := refresh s.cfg.flipRingSize s.flips s.inp.clockNow s.spk
  { s with spk := r.2, sinkCalls := s.sinkCalls ++ r.1.map SinkCall.audioWrite }

/-- What SPKREFRESH leaves: nothing new while paused, nothing but the question while the sink is not available (R206). -/
def refreshed (s : State) : State :=
  if s.spk.sinkOpen = false then s
  else if s.inp.audioAvailable = false then callSink (.isAudioAvailable false) s
  else deliver (callSink (.isAudioAvailable true) s)

/-- SPKREFRESH (R206). -/
def execSpkrefresh (s : State) : Answer := .next (returns .none (refreshed s))

/-- SPKVOL (R203). -/
def execSpkvol (v : Nat) (s : State) : Answer :=
  .next (returns .none { s with spk := { s.spk with volume := volumeOf v } })

/-- Give up the sink if it is held (R204, R205). -/
def closeSink (s : State) : State :=
  if s.spk.sinkOpen then callSink .closeAudio { s with spk := { s.spk with sinkOpen := false } } else s

/-- SPKPAUSE (R204). -/
def execSpkpause (s : State) : Answer := .next (returns .none (closeSink s))

/-- `(cpuSpeed_kHz * 1000) div SAMPLE_RATE` (R191). -/
def clocksPerSample (cfg : Config) (inp : Inputs) : Nat := inp.cpuSpeedKHz * 1000 / cfg.sampleRate

/-- The sink has answered `initAudio()` with `bytes`: the synthesizer runs, with a buffer of unspecified contents (R205). -/
def openSink (bytes : Nat) (s : State) : State :=
  { s with
    spk := { s.spk with cps := clocksPerSample s.cfg s.inp, bufSize := bytes, pcm := unspecifiedBytes s bytes,
                        sinkOpen := true },
    draws := s.draws + 1 }

/-- SPKRESUME after the sink has been given up: refuse a step of 0, ask the sink, open it (R205). -/
def resume (s : State) : State :=
  if clocksPerSample s.cfg s.inp = 0 then raise .resourceUnavailable s
  else
    match s.inp.initAudio with
    | none => raise .resourceUnavailable (callSink (.initAudio none) s)
    | some bytes => returns .ok (openSink bytes (callSink (.initAudio (some bytes)) s))

/-- SPKRESUME (R205). -/
def execSpkresume (s : State) : Answer := .next (resume (closeSink s))

/-- SPKRESET: no state change and no sink call (R253). -/
def execSpkreset (s : State) : Answer := .next (returns .none s)

end Sys2Proof.Machine
end

