-- ==== Sys2Proof/Machine/Dispatch.lean ====
section
/-! DEFINITION. One arm per operation of the opcode table. -/

namespace Sys2Proof.Machine

def exec (i : Instr) (s : State) : Host.Outcome State Fault Refusal :=
  match i with
  | .rdPh0off => Sys2Proof.Machine.execRdPh0off s
  | .rdPh0on => Sys2Proof.Machine.execRdPh0on s
  | .rdPh1off => Sys2Proof.Machine.execRdPh1off s
  | .rdPh1on => Sys2Proof.Machine.execRdPh1on s
  | .rdPh2off => Sys2Proof.Machine.execRdPh2off s
  | .rdPh2on => Sys2Proof.Machine.execRdPh2on s
  | .rdPh3off => Sys2Proof.Machine.execRdPh3off s
  | .rdPh3on => Sys2Proof.Machine.execRdPh3on s
  | .rdMotoroff => Sys2Proof.Machine.execRdMotoroff s
  | .rdMotoron => Sys2Proof.Machine.execRdMotoron s
  | .rdDrv0 => Sys2Proof.Machine.execRdDrv0 s
  | .rdDrv1 => Sys2Proof.Machine.execRdDrv1 s
  | .rdShift => Sys2Proof.Machine.execRdShift s
  | .rdLoad => Sys2Proof.Machine.execRdLoad s
  | .rdRdmode => Sys2Proof.Machine.execRdRdmode s
  | .rdWrmode => Sys2Proof.Machine.execRdWrmode s
  | .wrPh0off wdata => Sys2Proof.Machine.execWrPh0off wdata s
  | .wrPh0on wdata => Sys2Proof.Machine.execWrPh0on wdata s
  | .wrPh1off wdata => Sys2Proof.Machine.execWrPh1off wdata s
  | .wrPh1on wdata => Sys2Proof.Machine.execWrPh1on wdata s
  | .wrPh2off wdata => Sys2Proof.Machine.execWrPh2off wdata s
  | .wrPh2on wdata => Sys2Proof.Machine.execWrPh2on wdata s
  | .wrPh3off wdata => Sys2Proof.Machine.execWrPh3off wdata s
  | .wrPh3on wdata => Sys2Proof.Machine.execWrPh3on wdata s
  | .wrMotoroff wdata => Sys2Proof.Machine.execWrMotoroff wdata s
  | .wrMotoron wdata => Sys2Proof.Machine.execWrMotoron wdata s
  | .wrDrv0 wdata => Sys2Proof.Machine.execWrDrv0 wdata s
  | .wrDrv1 wdata => Sys2Proof.Machine.execWrDrv1 wdata s
  | .wrShift wdata => Sys2Proof.Machine.execWrShift wdata s
  | .wrLoad wdata => Sys2Proof.Machine.execWrLoad wdata s
  | .wrRdmode wdata => Sys2Proof.Machine.execWrRdmode wdata s
  | .wrWrmode wdata => Sys2Proof.Machine.execWrWrmode wdata s
  | .niord addr => Sys2Proof.Machine.execNiord addr s
  | .niowr addr value => Sys2Proof.Machine.execNiowr addr value s
  | .nmemrd addr => Sys2Proof.Machine.execNmemrd addr s
  | .nmemwr addr value => Sys2Proof.Machine.execNmemwr addr value s
  | .nreset => Sys2Proof.Machine.execNreset s
  | .enc44 v => Sys2Proof.Machine.execEnc44 v s
  | .dec44 x y => Sys2Proof.Machine.execDec44 x y s
  | .split62 b => Sys2Proof.Machine.execSplit62 b s
  | .join62 hi lo => Sys2Proof.Machine.execJoin62 hi lo s
  | .wrsync n => Sys2Proof.Machine.execWrsync n s
  | .wraddr volume track sector => Sys2Proof.Machine.execWraddr volume track sector s
  | .rdaddr n => Sys2Proof.Machine.execRdaddr n s
  | .wrdata hi lo => Sys2Proof.Machine.execWrdata hi lo s
  | .rddata n => Sys2Proof.Machine.execRddata n s
  | .enctrack data volume track order => Sys2Proof.Machine.execEnctrack data volume track order s
  | .mount d hint stream wpRequest => Sys2Proof.Machine.execMount d hint stream wpRequest s
  | .unmount d => Sys2Proof.Machine.execUnmount d s
  | .dmemrd romOffset => Sys2Proof.Machine.execDmemrd romOffset s
  | .dmemwr addr value => Sys2Proof.Machine.execDmemwr addr value s
  | .dreset => Sys2Proof.Machine.execDreset s
  | .spktoggle => Sys2Proof.Machine.execSpktoggle s
  | .spkfill clockEnd => Sys2Proof.Machine.execSpkfill clockEnd s
  | .spkrefresh => Sys2Proof.Machine.execSpkrefresh s
  | .spkvol v => Sys2Proof.Machine.execSpkvol v s
  | .spkpause => Sys2Proof.Machine.execSpkpause s
  | .spkresume => Sys2Proof.Machine.execSpkresume s
  | .spkreset => Sys2Proof.Machine.execSpkreset s
  | .pdlset a value => Sys2Proof.Machine.execPdlset a value s
  | .pdltrig => Sys2Proof.Machine.execPdltrig s
  | .pdlread a => Sys2Proof.Machine.execPdlread a s
  | .btnset b pressed => Sys2Proof.Machine.execBtnset b pressed s
  | .btnread b => Sys2Proof.Machine.execBtnread b s
  | .pdlreset => Sys2Proof.Machine.execPdlreset s

end Sys2Proof.Machine
end

