-- ==== Sys2Proof/Machine/Step.lean ====
section
/-! DEFINITION. One step: the oldest request is taken from the queue, decoded and run (R3; log 1). -/

namespace Sys2Proof.Machine

/-- One step. Where nothing has been issued nothing happens: "Nothing in the block waits and nothing wakes it" (R246). -/
def step (s : State) : Host.Outcome State Fault Refusal :=
  match fetch s with
  | none => .next s
  | some (a, s') =>
    match decodeAccess a with
    | .error e => .refused (.undecodable e)
    | .ok i => exec i s'

/-- The state with the operation of an opcode-table word issued before all others (logs 1 and 4). -/
def State.withFetchWord (s : State) (nbits w : Nat) : State := enqueueFirst s (tableAccess nbits w)

end Sys2Proof.Machine
end

