-- ==== Sys2Proof/Safety.lean ====
section
/-! DEFINITION. What counts as a legal state and a safe run, in the terms the statements use, and the laws of R133. -/

namespace Sys2Proof.Machine

/-- The constraints on the parameters (00_scope.md section 4, R68, R69): `GCR62` has 64 distinct entries, none of them 0xD5,
0xAA or 0x7F; the interleave tables are permutations; the ROM has 256 bytes; the rate and the ring size are positive; the
power-on disks are in canonical form. -/
abbrev ConfigLegal (c : Config) : Prop :=
  c.gcr62.length = 64 ∧ c.gcr62.Nodup ∧ 0xD5#8 ∉ c.gcr62 ∧ 0xAA#8 ∉ c.gcr62 ∧ 0x7F#8 ∉ c.gcr62 ∧
  c.orderDos.length = 16 ∧ c.orderDos.Nodup ∧ c.orderProdos.length = 16 ∧ c.orderProdos.Nodup ∧
  c.rom.length = 256 ∧ 0 < c.sampleRate ∧ 0 < c.flipRingSize ∧
  Memory.wf trackUnlisted driveBytes c.initDisk0 ∧ Memory.wf trackUnlisted driveBytes c.initDisk1

/-- CPU memory is in canonical form over its 65536 addresses. -/
abbrev InputsLegal (x : Inputs) : Prop := Memory.wf cpuUnlisted 65536 x.cpuMem

/-- The track memories of both drives are in canonical form over their 35 x 6656 places (R20, R41, R42). -/
abbrev DiskLegal (k : Disk) : Prop :=
  Memory.wf trackUnlisted driveBytes k.d0.trk ∧ Memory.wf trackUnlisted driveBytes k.d1.trk

/-- The synthesizer's invariants (R212, R24, R28). -/
abbrev SpeakerLegal (c : Config) (k : Speaker) : Prop :=
  k.ringRd < c.flipRingSize ∧ k.pcm.length = k.bufSize ∧ (k.sinkOpen = true → 1 ≤ k.cps)

/-- The flip ring has FLIP_RING_SIZE elements and its cursor is one of them (R30). -/
abbrev RingLegal (c : Config) (f : FlipRing) : Prop := f.ring.length = c.flipRingSize ∧ f.ringWr < c.flipRingSize

/-- Every increment is one that some position 0..255 gives (R216, R224). -/
abbrev PaddleLegal (p : Paddle) : Prop := ∀ a : Index4, ∃ v : Byte, p.inc.get a = v.toNat * 11 + 8

/-- The invariant of the machine. The other ranges of R181 and R212 (drive, position, offset, spin, latch, volume, level,
clocks) are in the types. -/
abbrev Legal (s : State) : Prop :=
  ConfigLegal s.cfg ∧ DiskLegal s.disk ∧ SpeakerLegal s.cfg s.spk ∧ RingLegal s.cfg s.flips ∧ PaddleLegal s.pdl ∧
  InputsLegal s.inp ∧ ∀ r ∈ s.queue, InputsLegal r.inputs

/-- R133: the laws of the codec with the parameters `cfg`. -/
structure CodecLaws (cfg : Config) : Prop where
  /-- (a) DEC44 undoes ENC44. -/
  nibblePairs : ∀ v : Byte, ∃ x y, enc44 v = [x, y] ∧ dec44 x y = v
  /-- (b) JOIN62 undoes SPLIT62. -/
  splitValues : ∀ b : List Byte, b.length = 256 → join62 (splitHigh b) (splitLow b) = b
  /-- (c) RDADDR undoes WRADDR. -/
  addressFields : ∀ v t s : Byte, rdaddr (wraddr v t s) = .address v t s
  /-- (d) RDDATA undoes WRDATA of SPLIT62. -/
  dataFields : ∀ b : List Byte, b.length = 256 → rddata cfg (wrdata cfg (splitHigh b) (splitLow b)) = some b
  /-- (e) Both fields of every sector of an encoded track read back. -/
  tracks : ∀ (data : List Byte) (v t : Byte) (order : Order), data.length = 4096 → ∀ s < 16,
    rdaddr (((enctrack cfg data v t order).drop (383 * s + 12)).take 14) = .address v t (BitVec.ofNat 8 s) ∧
    rddata cfg (((enctrack cfg data v t order).drop (383 * s + 34)).take 349) =
      some (sectorData data ((interleave cfg order).getD s 0))
  /-- (f) Every structured nibble of an encoded track has bit 7 set. -/
  structuredNibbles : ∀ (data : List Byte) (v t : Byte) (order : Order), data.length = 4096 → ∀ o < 6128,
    ((enctrack cfg data v t order).getD o 0#8).getLsbD 7 = true

/-- A run of `n` steps that ends in a next state, neither a fault nor a refusal. -/
def RunsTo (n : Nat) (s t : State) : Prop :=
  match n with
  | 0 => s = t
  | n + 1 => ∃ m, step s = .next m ∧ RunsTo n m t

end Sys2Proof.Machine
end

