-- ==== Sys2Proof/Certificates/Slice0/Obligations.lean ====
section
/-! DEFINITION. The statements about the model, each formalising the rules its docstring names. -/

namespace Sys2Proof.Claims

open Sys2Proof.Machine

/-! ### What a bus access returns (R164, R165, R167) -/

/-- The access named by address nibble `a` in its two forms, whatever the upper address bits (R60 to R62). -/
def Encoded (a : Nat) (rd : Instr) (wr : Byte → Instr) : Prop :=
  ∀ addr : Nat, addr % 16 = a →
    decodeAccess (.ioRead addr) = .ok rd ∧ ∀ v : Byte, decodeAccess (.ioWrite addr v) = .ok (wr v)

/-- A read that returns the latch of the controller `k` it leaves. -/
def returnLatch (s : State) (k : Disk) : State := { s with disk := k, result := .byte k.latch }

/-- A read that returns a fresh noise draw and leaves the controller `k`. -/
def returnNoise (s : State) (k : Disk) : State :=
  { s with disk := k, result := .byte (Config.noise s.draws), draws := s.draws + 1 }

/-- A write of `v` whose switch effect gives `k`: the latch is loaded exactly when `k` has motor on, write mode and load mode. -/
def afterWrite (s : State) (k : Disk) (v : Byte) : State :=
  { s with
    disk := { k with latch := if k.motorOn = true ∧ k.writeMode = true ∧ k.loadMode = true then v else k.latch }
    result := .none }

/-- An even switch: encoding, read form, write form; `effect k k'` says the switch effect takes `k` to `k'`. -/
def EvenSwitch (a : Nat) (rd : Instr) (wr : Byte → Instr) (effect : Disk → Disk → Prop) : Prop :=
  Encoded a rd wr ∧ ∀ (s : State) (k : Disk), effect s.disk k →
    exec rd s = .next (returnLatch s k) ∧ ∀ v : Byte, exec (wr v) s = .next (afterWrite s k v)

/-- An odd switch. -/
def OddSwitch (a : Nat) (rd : Instr) (wr : Byte → Instr) (effect : Disk → Disk → Prop) : Prop :=
  Encoded a rd wr ∧ ∀ (s : State) (k : Disk), effect s.disk k →
    exec rd s = .next (returnNoise s k) ∧ ∀ v : Byte, exec (wr v) s = .next (afterWrite s k v)

/-! ### The stepper (R166) -/

/-- Magnet `m mod 4` as a number, 0 or 1. -/
def magnetBit (phases : BitVec 4) (m : Nat) : Int := (phases.getLsbD (m % 4)).toNat

/-- The half-track `q` the head at `p` moves to: `clamp(p + dir, 0, 69)`. -/
def HeadMoves (phases : BitVec 4) (p q : HalfTrack) : Prop :=
  (q.val : Int) = max 0 (min 69 ((p.val : Int) + (magnetBit phases (p.val + 1) - magnetBit phases (p.val + 3))))

/-- The switch effect that makes the magnets `f phases` and then moves the selected drive's head. -/
def Steps (f : BitVec 4 → BitVec 4) (k k' : Disk) : Prop :=
  match k.drive with
  | .d0 => ∃ q, HeadMoves (f k.phases) k.d0.pos q ∧ k' = { k with phases := f k.phases, d0 := { k.d0 with pos := q } }
  | .d1 => ∃ q, HeadMoves (f k.phases) k.d1.pos q ∧ k' = { k with phases := f k.phases, d1 := { k.d1 with pos := q } }

/-! ### The track under the head (R21, R41) -/

/-- The selected drive's state. -/
def selected (k : Disk) : DriveState :=
  match k.drive with
  | .d0 => k.d0
  | .d1 => k.d1

/-- The byte `j` places after the head in the active track buffer `trk[drive][pos[drive] >> 1]`. -/
def ahead (k : Disk) (j : Nat) : Byte :=
  memRead 0x7F#8 (selected k).trk (6656 * ((selected k).pos.val / 2) + (k.off.val + j) % 6656)

/-- Byte `o` of track `t` of drive `d`. -/
def trackByte (k : Disk) (d : Drive) (t o : Nat) : Byte :=
  match d with
  | .d0 => memRead 0x7F#8 k.d0.trk (6656 * t + o)
  | .d1 => memRead 0x7F#8 k.d1.trk (6656 * t + o)

/-- The poll predicate: four bytes of CPU memory from `pc + POLL_WINDOW_BASE` on (R175). -/
def Polls (s : State) : Prop :=
  s.cfg.pollEnabled = true ∧
  ∀ k : Fin 4, ∃ a : Nat, (a : Int) = ((s.inp.pc.toNat : Int) + s.cfg.pollWindowBase + k.val) % 65536 ∧
    memRead 0x00#8 s.inp.cpuMem a = [0x10#8, 0xFB#8, 0xC9#8, 0xD5#8].getD k.val 0#8

/-- A scan that starts at the head stops `j` places on: at the first byte with `p`, or after 6656 steps without one. -/
def ScanStops (k : Disk) (p : Byte → Prop) (j : Nat) : Prop :=
  j ≤ 6656 ∧ (∀ i < j, ¬ p (ahead k i)) ∧ (j < 6656 → p (ahead k j))

/-! ### Which operation belongs to which unit (R5) -/

/-- The units of 00_scope.md; the two environment parts of the speaker stand apart. -/
inductive Part where
  | disk
  | speaker
  | flips
  | paddle
  | pure
deriving DecidableEq, Repr

/-- The unit an operation acts on; a codec or null-device operation acts on none. -/
def partOf : Instr → Part
  | .rdPh0off | .rdPh0on | .rdPh1off | .rdPh1on | .rdPh2off | .rdPh2on | .rdPh3off | .rdPh3on => .disk
  | .rdMotoroff | .rdMotoron | .rdDrv0 | .rdDrv1 | .rdShift | .rdLoad | .rdRdmode | .rdWrmode => .disk
  | .wrPh0off _ | .wrPh0on _ | .wrPh1off _ | .wrPh1on _ | .wrPh2off _ | .wrPh2on _ | .wrPh3off _ | .wrPh3on _ => .disk
  | .wrMotoroff _ | .wrMotoron _ | .wrDrv0 _ | .wrDrv1 _ | .wrShift _ | .wrLoad _ | .wrRdmode _ | .wrWrmode _ => .disk
  | .niord _ | .niowr _ _ | .nmemrd _ | .nmemwr _ _ | .nreset => .pure
  | .enc44 _ | .dec44 _ _ | .split62 _ | .join62 _ _ | .wrsync _ | .wraddr _ _ _ | .rdaddr _ | .wrdata _ _ => .pure
  | .rddata _ | .enctrack _ _ _ _ => .pure
  | .mount _ _ _ _ | .unmount _ | .dmemrd _ | .dmemwr _ _ | .dreset => .disk
  | .spktoggle => .flips
  | .spkfill _ | .spkrefresh | .spkvol _ | .spkpause | .spkresume | .spkreset => .speaker
  | .pdlset _ _ | .pdltrig | .pdlread _ | .btnset _ _ | .btnread _ | .pdlreset => .paddle

/-- The address nibble of a bus access. -/
def nibbleOf : Instr → Option Nat
  | .rdPh0off | .wrPh0off _ => some 0x0
  | .rdPh0on | .wrPh0on _ => some 0x1
  | .rdPh1off | .wrPh1off _ => some 0x2
  | .rdPh1on | .wrPh1on _ => some 0x3
  | .rdPh2off | .wrPh2off _ => some 0x4
  | .rdPh2on | .wrPh2on _ => some 0x5
  | .rdPh3off | .wrPh3off _ => some 0x6
  | .rdPh3on | .wrPh3on _ => some 0x7
  | .rdMotoroff | .wrMotoroff _ => some 0x8
  | .rdMotoron | .wrMotoron _ => some 0x9
  | .rdDrv0 | .wrDrv0 _ => some 0xA
  | .rdDrv1 | .wrDrv1 _ => some 0xB
  | .rdShift | .wrShift _ => some 0xC
  | .rdLoad | .wrLoad _ => some 0xD
  | .rdRdmode | .wrRdmode _ => some 0xE
  | .rdWrmode | .wrWrmode _ => some 0xF
  | _ => none

/-- The data byte of a bus write. -/
def writtenByte : Instr → Option Byte
  | .wrPh0off v | .wrPh0on v | .wrPh1off v | .wrPh1on v | .wrPh2off v | .wrPh2on v | .wrPh3off v | .wrPh3on v => some v
  | .wrMotoroff v | .wrMotoron v | .wrDrv0 v | .wrDrv1 v | .wrShift v | .wrLoad v | .wrRdmode v | .wrWrmode v => some v
  | _ => none

/-! ### The codec -/

/-- The two nibbles of a 4-and-4 pair, bit by bit from bit 7 down (R63). -/
def pair44 (v : Byte) : List Byte :=
  let b := v.getLsbD
  [BitVec.ofBoolListBE [true, b 7, true, b 5, true, b 3, true, b 1],
   BitVec.ofBoolListBE [true, b 6, true, b 4, true, b 2, true, b 0]]

/-- The low two bits of a byte exchanged, a number 0..3. -/
def swapped (b : Byte) : Nat := 2 * (b.getLsbD 0).toNat + (b.getLsbD 1).toNat

/-- The plaintext order of a data field: `lo[85]` down to `lo[0]`, then `hi[0]` up to `hi[255]`; 0 before the first (R65). -/
def plain (hi lo : List Six) (k : Nat) : Six := if k < 86 then lo.getD (85 - k) 0#6 else hi.getD (k - 86) 0#6

/-- The symbol of a six-bit value. -/
def symbol (c : Config) (x : Six) : Byte := c.gcr62.getD x.toNat 0#8

/-- Nibbles `a .. a + n - 1` of a sequence. -/
def slice (l : List Byte) (a n : Nat) : List Byte := (l.drop a).take n

/-- An operation that answers `r` and changes nothing. -/
def OnlyReturns (i : Instr) (s : State) (r : Result) : Prop := exec i s = .next { s with result := r }

/-! ### The loader -/

/-- A little-endian field of a header (R71). -/
def field (h : List Byte) (off size : Nat) : Nat :=
  ((List.range size).map (fun k => (h.getD (off + k) 0#8).toNat * 256 ^ k)).sum

/-- What a MOUNT that reports `why` leaves. -/
def MountFails (d : Drive) (hint : Hint) (st : List Byte) (wp : Bool) (why : FormatReason) : Prop :=
  ∀ s : State, exec (.mount d hint st wp) s = .next { s with result := .failed (.formatError why) }

/-- What a successful MOUNT leaves: the flag, the buffers `buf t` of drive `d`, and nothing else (R111). -/
def Mounted (s t : State) (d : Drive) (wp : Bool) (buf : Nat → List Byte) : Prop :=
  ∃ m : Memory, Memory.wf 0x7F#8 232960 m ∧
    (∀ tr < 35, ∀ o < 6656, memRead 0x7F#8 m (6656 * tr + o) = (buf tr).getD o 0x7F#8) ∧
    t = { s with
          result := .ok
          disk := match d with
            | .d0 => { s.disk with d0 := { s.disk.d0 with wp := wp, trk := m } }
            | .d1 => { s.disk with d1 := { s.disk.d1 with wp := wp, trk := m } } }

/-! ### The speaker -/

/-- How many ticks `b` is after `a`, modulo 2^31. -/
def ticks (a b : Clock) : Nat := (b - a).toNat

/-- `a` is strictly earlier than `b` (R2). -/
def Earlier (a b : Clock) : Prop := 2 ^ 30 ≤ ticks b a

/-- The event `i` places after the read cursor is pending and earlier than `c`. -/
def EventDue (s : State) (c : Clock) (i : Nat) : Prop :=
  (s.spk.ringRd + i) % s.cfg.flipRingSize ≠ s.flips.ringWr ∧
  Earlier (s.flips.ring.getD ((s.spk.ringRd + i) % s.cfg.flipRingSize) 0#31) c

/-- The chunks handed to the sink between two states. -/
def delivered (s t : State) : List (List Byte) :=
  (t.sinkCalls.drop s.sinkCalls.length).filterMap (fun c =>
    match c with
    | .audioWrite chunk => some chunk
    | _ => none)

/-- The state of a refresh that gets past its two early returns. -/
def Refreshing (s : State) : Prop :=
  s.spk.sinkOpen = true ∧ s.inp.audioAvailable = true ∧ 1 ≤ s.spk.cps ∧ s.spk.cps ≤ 2 ^ 30 ∧ 2 ≤ s.spk.bufSize ∧
  s.spk.pcm.length = s.spk.bufSize

end Sys2Proof.Claims

open Sys2Proof Sys2Proof.Machine Sys2Proof.Claims

/-! ## Power-on, the invariant, the step -/

/-- R250: the power-on value of every field, for every choice of the parameters. Model's choices in it: `cps` (log 8), the ring
elements (log 9), the inputs (log 2), `queue`, `result`, `sinkCalls`, `draws` (logs 1, 6, 13). -/
def Obligations.PowerOnValues : Prop :=
  State.reset = State.powerOn Config.standard ∧ ∀ c : Config,
    (State.powerOn c).cfg = c ∧
    (State.powerOn c).disk =
      { drive := .d0, phases := 0b0000#4, motorOn := false, latch := 0x00#8, writeMode := false, loadMode := false,
        off := 0, spin := 0#4, d0 := { wp := c.initWp0, pos := 0, trk := c.initDisk0 },
        d1 := { wp := c.initWp1, pos := 0, trk := c.initDisk1 } } ∧
    (State.powerOn c).spk =
      { volume := c.initVolume, ringRd := 0, level := false, cps := 1, sclk := 0#31, bufSize := 0, pcm := [],
        sinkOpen := false } ∧
    (State.powerOn c).flips = { ring := List.replicate c.flipRingSize 0#31, ringWr := 0 } ∧
    (∀ a : Fin 4, (State.powerOn c).pdl.inc.get a = 8 ∧ (State.powerOn c).pdl.event.get a = 0#31 ∧
      (State.powerOn c).pdl.button.get a = false) ∧
    (State.powerOn c).queue = [] ∧ (State.powerOn c).sinkCalls = []

/-- The invariant holds after power-on, for every legal choice of the parameters, and at reset. -/
def Obligations.PowerOnIsLegal : Prop := Legal State.reset ∧ ∀ c : Config, ConfigLegal c → Legal (State.powerOn c)

/-- R181, R212: every step from a legal state, reachable or not, leads to a legal state: track memories and CPU memories stay
canonical, cursors stay in the ring, the PCM buffer keeps its size, an open sink has a positive `cps`, the parameters keep
their constraints. -/
def Obligations.EveryStepKeepsTheInvariant : Prop := ∀ s t : State, Legal s → step s = .next t → Legal t

/-- The step runs what the oldest request decodes to, in the state with that request taken off the queue and its inputs in
place; with nothing issued it changes nothing; a request that names no operation is refused by name. -/
def Obligations.StepRunsTheDecodedOperation : Prop :=
  (∀ (s : State) (r : Request) (q : List Request) (i : Instr), s.queue = r :: q → decodeAccess r.access = .ok i →
    step s = exec i { s with queue := q, inp := r.inputs }) ∧
  (∀ (s : State) (r : Request) (q : List Request) (e : DecodeError), s.queue = r :: q → decodeAccess r.access = .error e →
    step s = .refused (.undecodable e)) ∧
  ∀ s : State, s.queue = [] → step s = .next s

/-- R96, R234, R249: the function is total. Every operation answers a next state, for every operand and in every state; no meaning
faults or refuses. (What a refresh with a step of 0 modulo 2^31 does is log 14.) -/
def Obligations.EveryOperationAnswersNext : Prop := ∀ (i : Instr) (s : State), ∃ t, exec i s = .next t

/-! ## Encodings -/

/-- Decoding what the encoder writes gives the operation back, for every well-formed operation and every operand. -/
def Obligations.DecodeUndoesEncode : Prop := ∀ i : Instr, i.wf = true → decodeAccess (encode i) = .ok i

/-- Whatever the bytes, what the decoder answers is a well-formed operation. -/
def Obligations.DecodedOperationsAreWellFormed : Prop :=
  ∀ (a : Access) (i : Instr), decodeAccess a = .ok i → i.wf = true

/-- R62: the upper address bits are ignored, and every bus access, of all 32 selectors, names an operation. -/
def Obligations.BusDecodeUsesLowFourBits : Prop :=
  ∀ (addr : Nat) (v : Byte),
    decodeAccess (.ioRead addr) = decodeAccess (.ioRead (addr % 16)) ∧
    decodeAccess (.ioWrite addr v) = decodeAccess (.ioWrite (addr % 16) v) ∧
    (∃ i, decodeAccess (.ioRead addr) = .ok i ∧ nibbleOf i = some (addr % 16) ∧ writtenByte i = none) ∧
    ∃ i, decodeAccess (.ioWrite addr v) = .ok i ∧ nibbleOf i = some (addr % 16) ∧ writtenByte i = some v

/-- R73: a HOP number outside the table of R72 names no operation, whatever bytes follow it. -/
def Obligations.NumbersOutsideTheTableNameNothing : Prop :=
  ∀ (op : Byte) (rest : List Byte),
    op.toNat ∉ [0x00, 0x01, 0x02, 0x03, 0x04, 0x10, 0x11, 0x12, 0x13, 0x14, 0x15, 0x16, 0x17, 0x18, 0x19, 0x20, 0x21,
      0x30, 0x31, 0x32, 0x40, 0x41, 0x42, 0x43, 0x44, 0x45, 0x46, 0x50, 0x51, 0x52, 0x53, 0x54, 0x55] →
    decodeAccess (.host (op :: rest)) = .error (.noOperation op)

/-- A few words written out from R61 and R72; and MOUNT's default (R100, D22): a request that ends before `wpRequest` is the MOUNT with
`false` (operand bytes: log 3). -/
def Obligations.TableWordsDecode : Prop :=
  decodeAccess (.ioRead 0xC) = .ok .rdShift ∧ decodeAccess (.ioWrite 0xD 0xD5#8) = .ok (.wrLoad 0xD5#8) ∧
  decodeAccess (.host [0x10#8, 0xFE#8]) = .ok (.enc44 0xFE#8) ∧ decodeAccess (.host [0x32#8]) = .ok .dreset ∧
  decodeAccess (.host [0x42#8]) = .ok .spkrefresh ∧ decodeAccess (.host [0x50#8, 0x00#8, 0xFF#8]) = .ok (.pdlset 0 255#8) ∧
  decodeTableWord 5 0x1F = some (.wrWrmode 0#8) ∧ decodeTableWord 8 0x45 = some .spkresume ∧
  ∀ (d : Drive) (hint : Hint) (stream bytes : List Byte), encode (.mount d hint stream false) = .host (bytes ++ [0x00#8]) →
    decodeAccess (.host bytes) = .ok (.mount d hint stream false)

/-! ## The Disk II controller -/

/-- R150 to R157, R166: the eight phase switches. Each sets or clears one bit of `phases`, re-evaluates the stepper on the
selected drive and changes nothing else; an even one returns the latch, an odd one noise. -/
def Obligations.PhaseSwitchesStepTheHead : Prop :=
  EvenSwitch 0x0 .rdPh0off .wrPh0off (Steps (· &&& 0b1110#4)) ∧
  OddSwitch 0x1 .rdPh0on .wrPh0on (Steps (· ||| 0b0001#4)) ∧
  EvenSwitch 0x2 .rdPh1off .wrPh1off (Steps (· &&& 0b1101#4)) ∧
  OddSwitch 0x3 .rdPh1on .wrPh1on (Steps (· ||| 0b0010#4)) ∧
  EvenSwitch 0x4 .rdPh2off .wrPh2off (Steps (· &&& 0b1011#4)) ∧
  OddSwitch 0x5 .rdPh2on .wrPh2on (Steps (· ||| 0b0100#4)) ∧
  EvenSwitch 0x6 .rdPh3off .wrPh3off (Steps (· &&& 0b0111#4)) ∧
  OddSwitch 0x7 .rdPh3on .wrPh3on (Steps (· ||| 0b1000#4))

/-- R158 to R161, R176, R177: motor, drive and mode switches write one field each. -/
def Obligations.MotorDriveAndModeSwitches : Prop :=
  EvenSwitch 0x8 .rdMotoroff .wrMotoroff (fun k k' => k' = { k with motorOn := false }) ∧
  OddSwitch 0x9 .rdMotoron .wrMotoron (fun k k' => k' = { k with motorOn := true }) ∧
  EvenSwitch 0xA .rdDrv0 .wrDrv0 (fun k k' => k' = { k with drive := .d0 }) ∧
  OddSwitch 0xB .rdDrv1 .wrDrv1 (fun k k' => k' = { k with drive := .d1 }) ∧
  EvenSwitch 0xE .rdRdmode .wrRdmode (fun k k' => k' = { k with writeMode := false }) ∧
  OddSwitch 0xF .rdWrmode .wrWrmode (fun k k' => k' = { k with writeMode := true })

/-- R163: LOAD arms load mode; a read with the motor on and in read mode makes bit 7 of the latch the active drive's
write-protect flag and keeps bits 6:0; a write only arms, and then the write-latch rule applies to the armed controller (effect
before test: the spec's reading D7). What the read returns is a fresh draw (R164, D17; log 6). -/
def Obligations.LoadArmsAndSenses : Prop :=
  Encoded 0xD .rdLoad .wrLoad ∧ ∀ s : State,
    (∃ l : Byte,
      (s.disk.motorOn = true ∧ s.disk.writeMode = false →
        l.getLsbD 7 = (selected s.disk).wp ∧ ∀ b < 7, l.getLsbD b = s.disk.latch.getLsbD b) ∧
      (¬(s.disk.motorOn = true ∧ s.disk.writeMode = false) → l = s.disk.latch) ∧
      exec .rdLoad s = .next (returnNoise s { s.disk with loadMode := true, latch := l })) ∧
    ∀ v : Byte, exec (.wrLoad v) s = .next (afterWrite s { s.disk with loadMode := true } v)

/-- R169: with the motor off and in read mode the sixteenth cycle wraps the spin counter: latch 0x7F, no read, no advance; in
both forms, and load mode is cleared. -/
def Obligations.SpinShortCircuit : Prop :=
  ∀ (s : State) (k : Disk), s.disk.writeMode = false → s.disk.motorOn = false → s.disk.spin = 15#4 →
    k = { s.disk with loadMode := false, spin := 0#4, latch := 0x7F#8 } →
    exec .rdShift s = .next (returnLatch s k) ∧
    ∀ v : Byte, exec (.wrShift v) s = .next { s with disk := k, result := .none }

/-- R168, R170 to R172, R174: a read-mode cycle that SPIN does not cut short. It reads at the head; where the poll predicate
holds it scans to the first 0xD5, otherwise to the first byte that is not 0x7F, at most 6656 steps, and then advances by one.
The write form does the same and drops its byte. -/
def Obligations.ReadCycleScansAndAdvances : Prop :=
  ∀ s : State, s.disk.writeMode = false → (s.disk.motorOn = true ∨ s.disk.spin ≠ 15#4) →
    ∃ (j : Nat) (o : Offset),
      (Polls s → ScanStops s.disk (fun b => b = 0xD5#8) j) ∧
      (¬ Polls s → ScanStops s.disk (fun b => b ≠ 0x7F#8) j) ∧
      o.val = (s.disk.off.val + j + 1) % 6656 ∧
      ∀ k : Disk,
        k = { s.disk with
              loadMode := false
              spin := if s.disk.motorOn = true then s.disk.spin else s.disk.spin + 1#4
              latch := ahead s.disk j
              off := o } →
        exec .rdShift s = .next (returnLatch s k) ∧
        ∀ v : Byte, exec (.wrShift v) s = .next { s with disk := k, result := .none }

/-- R173, R174: a write-mode cycle stores the latch at the head of the active buffer, whatever the motor, the write-protect flag
and load mode say, and advances; every other byte of both drives is unchanged. -/
def Obligations.WriteCycleStoresTheLatch : Prop :=
  ∀ s : State, DiskLegal s.disk → s.disk.writeMode = true →
    ∃ (k : Disk) (o : Offset) (m : Memory),
      o.val = (s.disk.off.val + 1) % 6656 ∧
      k = (match s.disk.drive with
        | .d0 => { s.disk with loadMode := false, off := o, d0 := { s.disk.d0 with trk := m } }
        | .d1 => { s.disk with loadMode := false, off := o, d1 := { s.disk.d1 with trk := m } }) ∧
      (∀ t < 35, ∀ b < 6656, memRead 0x7F#8 m (6656 * t + b) =
        if t = (selected s.disk).pos.val / 2 ∧ b = s.disk.off.val then s.disk.latch
        else memRead 0x7F#8 (selected s.disk).trk (6656 * t + b)) ∧
      exec .rdShift s = .next (returnLatch s k) ∧
      ∀ v : Byte, exec (.wrShift v) s = .next { s with disk := k, result := .none }

/-- R164: over all sixteen addresses, an even read returns the latch as it stands after the switch effect and an odd one a
fresh draw; nothing else is drawn. -/
def Obligations.EvenReadsReturnTheLatch : Prop :=
  ∀ (addr : Nat) (i : Instr) (s : State), decodeAccess (.ioRead addr) = .ok i →
    ∃ t, exec i s = .next t ∧
      (addr % 2 = 0 → t.result = .byte t.disk.latch ∧ t.draws = s.draws) ∧
      (addr % 2 = 1 → t.result = .byte (Config.noise s.draws) ∧ t.draws = s.draws + 1)

/-- R165: a write to any address loads the latch when, after its switch effect, motor, write mode and load mode are all set, and
otherwise leaves what the switch effect left: outside SHIFT the latch as it was. -/
def Obligations.AnyWriteAddressLoadsTheLatch : Prop :=
  ∀ (addr : Nat) (v : Byte) (i : Instr) (s : State), decodeAccess (.ioWrite addr v) = .ok i →
    ∃ t, exec i s = .next t ∧ t.result = .none ∧
      (t.disk.motorOn = true ∧ t.disk.writeMode = true ∧ t.disk.loadMode = true → t.disk.latch = v) ∧
      (¬(t.disk.motorOn = true ∧ t.disk.writeMode = true ∧ t.disk.loadMode = true) → addr % 16 ≠ 0xC →
        t.disk.latch = s.disk.latch)

/-- R167: the switch effect is the same for a read and a write of an address; apart from the latch the two leave the same
controller. -/
def Obligations.ReadsAndWritesShareTheSwitchEffect : Prop :=
  ∀ (addr : Nat) (v : Byte) (i j : Instr) (s t u : State), decodeAccess (.ioRead addr) = .ok i →
    decodeAccess (.ioWrite addr v) = .ok j → exec i s = .next t → exec j s = .next u →
    { t.disk with latch := 0#8 } = { u.disk with latch := 0#8 }

/-- R166's invariant, over every operation: a position changes by at most one, only on the selected drive, only by a phase
switch, and only towards the one adjacent magnet that is energized alone. -/
def Obligations.HeadMovesOnlyTowardsOneMagnet : Prop :=
  ∀ (i : Instr) (s t : State) (d : Drive), exec i s = .next t →
    let p := (driveState s.disk d).pos.val
    let q := (driveState t.disk d).pos.val
    p = q ∨
      d = s.disk.drive ∧ (∃ a, nibbleOf i = some a ∧ a < 8) ∧
        ((q = p + 1 ∧ t.disk.phases.getLsbD ((p + 1) % 4) = true ∧ t.disk.phases.getLsbD ((p + 3) % 4) = false) ∨
         (p = q + 1 ∧ t.disk.phases.getLsbD ((p + 1) % 4) = false ∧ t.disk.phases.getLsbD ((p + 3) % 4) = true))

/-- R10 to R17: which operations write each controller register. -/
def Obligations.ControllerRegistersHaveFewWriters : Prop :=
  ∀ (i : Instr) (s t : State), exec i s = .next t →
    (t.disk.drive ≠ s.disk.drive → nibbleOf i = some 0xA ∨ nibbleOf i = some 0xB) ∧
    (t.disk.phases ≠ s.disk.phases → ∃ a, nibbleOf i = some a ∧ a < 8) ∧
    (t.disk.motorOn ≠ s.disk.motorOn → nibbleOf i = some 0x8 ∨ nibbleOf i = some 0x9 ∨ i = .dreset) ∧
    (t.disk.latch ≠ s.disk.latch → nibbleOf i = some 0xC ∨ i = .rdLoad ∨ ∃ v, writtenByte i = some v) ∧
    (t.disk.writeMode ≠ s.disk.writeMode → nibbleOf i = some 0xE ∨ nibbleOf i = some 0xF) ∧
    (t.disk.loadMode ≠ s.disk.loadMode → nibbleOf i = some 0xC ∨ nibbleOf i = some 0xD) ∧
    (t.disk.off ≠ s.disk.off → nibbleOf i = some 0xC) ∧
    (t.disk.spin ≠ s.disk.spin → nibbleOf i = some 0xC)

/-- R18, R20, R42, R111, R173: a track byte changes only where a write-mode cycle stores, or on the drive a successful MOUNT
names; a write-protect flag changes only by such a MOUNT. -/
def Obligations.OnlyTheSequencerAndMountWriteTracks : Prop :=
  ∀ (i : Instr) (s t : State) (d : Drive), exec i s = .next t →
    (∀ tr < 35, ∀ o < 6656, trackByte t.disk d tr o ≠ trackByte s.disk d tr o →
      (nibbleOf i = some 0xC ∧ s.disk.writeMode = true ∧ d = s.disk.drive ∧ tr = (selected s.disk).pos.val / 2 ∧
        o = s.disk.off.val) ∨
      (∃ h st wp, i = .mount d h st wp) ∧ t.result = .ok) ∧
    ((driveState t.disk d).wp ≠ (driveState s.disk d).wp → (∃ h st wp, i = .mount d h st wp) ∧ t.result = .ok)

/-- R163, R264, R265: the write-protect sense is seen one access late: with motor on and read mode, a read of LOAD and then of
any even switch but SHIFT returns the active drive's flag in bit 7, if the second access keeps the drive. -/
def Obligations.SenseIsSeenByTheNextEvenRead : Prop :=
  ∀ (addr : Nat) (i : Instr) (s t : State), s.disk.motorOn = true → s.disk.writeMode = false →
    decodeAccess (.ioRead addr) = .ok i → addr % 2 = 0 → addr % 16 ≠ 0xC → exec .rdLoad s = .next t →
    ∃ (u : State) (b : Byte), exec i t = .next u ∧ u.result = .byte b ∧ b.getLsbD 7 = (selected s.disk).wp

/-- R182, R51: the usual write of a nibble: with motor on and write mode, WR.LOAD `v` and then RD.SHIFT returns `v`, leaves `v`
at the place the head was over, and moves the head on. -/
def Obligations.WrittenNibbleIsOnTheTrack : Prop :=
  ∀ (s t : State) (v : Byte), DiskLegal s.disk → s.disk.motorOn = true → s.disk.writeMode = true →
    exec (.wrLoad v) s = .next t →
    ∃ u, exec .rdShift t = .next u ∧ u.result = .byte v ∧ u.disk.loadMode = false ∧
      u.disk.off.val = (s.disk.off.val + 1) % 6656 ∧
      trackByte u.disk s.disk.drive ((selected s.disk).pos.val / 2) s.disk.off.val = v

/-! ## Units, inputs, draws -/

/-- R5, R6, R222: an operation of one unit leaves the state of every other unit, the parameters, the inputs and the queue as they
were; only the three sink operations call the sink, and calls are only appended. -/
def Obligations.UnitsShareNoState : Prop :=
  ∀ (i : Instr) (s t : State), exec i s = .next t →
    (partOf i ≠ .disk → t.disk = s.disk) ∧ (partOf i ≠ .speaker → t.spk = s.spk) ∧
    (partOf i ≠ .flips → t.flips = s.flips) ∧ (partOf i ≠ .paddle → t.pdl = s.pdl) ∧
    t.cfg = s.cfg ∧ t.inp = s.inp ∧ t.queue = s.queue ∧ s.draws ≤ t.draws ∧
    (∃ calls, t.sinkCalls = s.sinkCalls ++ calls) ∧
    (i ≠ .spkrefresh → i ≠ .spkpause → i ≠ .spkresume → t.sinkCalls = s.sinkCalls)

/-- R5 over whole runs: what the speaker, the flip ring and the paddles hold cannot influence the disk side: two runs that
differ only there keep equal controllers, drives and parameters. -/
def Obligations.DiskIsBlindToSpeakerAndPaddles : Prop :=
  ∀ (n : Nat) (s s' t t' : State), s.disk = s'.disk → s.cfg = s'.cfg → s.queue = s'.queue → s.draws = s'.draws →
    RunsTo n s t → RunsTo n s' t' → t.disk = t'.disk ∧ t.cfg = t'.cfg ∧ t.queue = t'.queue ∧ t.draws = t'.draws

/-! ## The null device, the ROM window, the resets -/

/-- R91 to R95: the null device reads as noise, a fresh draw each time, and keeps nothing. -/
def Obligations.NullDeviceIsFloatingBus : Prop :=
  ∀ (addr : Nat) (v : Byte) (s : State),
    exec (.niord addr) s = .next { s with result := .byte (Config.noise s.draws), draws := s.draws + 1 } ∧
    exec (.nmemrd addr) s = .next { s with result := .byte (Config.noise s.draws), draws := s.draws + 1 } ∧
    OnlyReturns (.niowr addr v) s .none ∧ OnlyReturns (.nmemwr addr v) s .none ∧ OnlyReturns .nreset s .none ∧
    (∃ r, encode (.niord addr) = .host (0x00#8 :: r)) ∧ (∃ r, encode (.niowr addr v) = .host (0x01#8 :: r)) ∧
    (∃ r, encode (.nmemrd addr) = .host (0x02#8 :: r)) ∧ (∃ r, encode (.nmemwr addr v) = .host (0x03#8 :: r)) ∧
    encode .nreset = .host [0x04#8]

/-- R48, R179, R180: the ROM window: an index modulo 256, and writes are ignored. -/
def Obligations.RomWindow : Prop :=
  ∀ (k : Nat) (v : Byte) (s : State), s.cfg.rom.length = 256 →
    (∃ b, s.cfg.rom[k % 256]? = some b ∧ OnlyReturns (.dmemrd k) s (.byte b)) ∧
    OnlyReturns (.dmemwr k v) s .none ∧
    (∃ r, encode (.dmemrd k) = .host (0x30#8 :: r)) ∧ ∃ r, encode (.dmemwr k v) = .host (0x31#8 :: r)

/-- R112, R252 to R254: DRESET turns the motor off and does nothing else; SPKRESET, PDLRESET and UNMOUNT change nothing. -/
def Obligations.ResetsAndUnmount : Prop :=
  ∀ (s : State) (d : Drive),
    exec .dreset s = .next { s with disk := { s.disk with motorOn := false }, result := .none } ∧
    OnlyReturns .spkreset s .none ∧ OnlyReturns .pdlreset s .none ∧ OnlyReturns (.unmount d) s .none ∧
    encode .dreset = .host [0x32#8] ∧ encode .spkreset = .host [0x46#8] ∧ encode .pdlreset = .host [0x55#8] ∧
    ∃ r, encode (.unmount d) = .host (0x21#8 :: r)

/-! ## The nibble codec -/

/-- R63, R120: the 4-and-4 code bit by bit; and the decoder, which the spec marks as its own derivation (R121; C12, D27; log 22),
bit by bit, and that it undoes the encoding. -/
def Obligations.FourAndFour : Prop :=
  ∀ (v x y : Byte) (s : State),
    OnlyReturns (.enc44 v) s (.nibbles (pair44 v)) ∧
    (∃ w : Byte, OnlyReturns (.dec44 x y) s (.byte w) ∧
      w.getLsbD 0 = y.getLsbD 0 ∧ ∀ b < 7, w.getLsbD (b + 1) = (x.getLsbD b && y.getLsbD (b + 1))) ∧
    OnlyReturns (.dec44 ((pair44 v).getD 0 0#8) ((pair44 v).getD 1 0#8)) s (.byte v)

/-- R122, R123: the 6-and-2 procedure computes its closed form: byte i's swapped low bits sit in slot 85 - (i mod 86) at bit
2 * (i div 86), and slots 0 and 1 hold a second copy of bytes 1 and 0. -/
def Obligations.SplitHasItsClosedForm : Prop :=
  ∀ (b : List Byte) (s : State), b.length = 256 →
    ∃ hi lo : List Six, OnlyReturns (.split62 b) s (.split hi lo) ∧ hi.length = 256 ∧ lo.length = 86 ∧
      (∀ i < 256, (hi.getD i 0#6).toNat = (b.getD i 0#8).toNat / 4) ∧
      ∀ j < 86, (lo.getD j 0#6).toNat =
        16 * swapped (b.getD ((257 - j) % 256) 0#8) + 4 * swapped (b.getD (171 - j) 0#8) + swapped (b.getD (85 - j) 0#8)

/-- R124: JOIN62 computes each byte from its high value and two bits of a slot. -/
def Obligations.JoinFormula : Prop :=
  ∀ (hi lo : List Six) (s : State), hi.length = 256 → lo.length = 86 →
    ∃ b : List Byte, OnlyReturns (.join62 hi lo) s (.bytes b) ∧ b.length = 256 ∧
      ∀ i < 256, (b.getD i 0#8).toNat =
        4 * (hi.getD i 0#6).toNat +
          (2 * ((lo.getD (85 - i % 86) 0#6).getLsbD (2 * (i / 86))).toNat +
            ((lo.getD (85 - i % 86) 0#6).getLsbD (2 * (i / 86) + 1)).toNat)

/-- R124, R133 (b): joining what the split gives returns the 256 bytes. -/
def Obligations.JoinUndoesSplit : Prop :=
  ∀ (b : List Byte) (s : State), b.length = 256 →
    ∃ hi lo : List Six, OnlyReturns (.split62 b) s (.split hi lo) ∧ OnlyReturns (.join62 hi lo) s (.bytes b)

/-- R64, R125, R126: sync gaps and the fourteen nibbles of an address field. -/
def Obligations.SyncAndAddressField : Prop :=
  ∀ (n : Nat) (v t c : Byte) (s : State),
    OnlyReturns (.wrsync n) s (.nibbles (List.replicate n 0xFF#8)) ∧
    OnlyReturns (.wraddr v t c) s
      (.nibbles ([0xD5#8, 0xAA#8, 0x96#8] ++ pair44 v ++ pair44 t ++ pair44 c ++ pair44 (v ^^^ t ^^^ c) ++
        [0xDE#8, 0xAA#8, 0xEB#8]))

/-- R127, R73, R133 (c): RDADDR accepts fourteen nibbles exactly when prologue, epilogue and checksum are right and no 4-and-4 nibble
has a zero in an odd bit position, and then returns the three decoded fields; otherwise it returns no partial result (93 row 29,
D27; log 17). It reads back what WRADDR writes, and accepts nothing else: the two are strict inverses (D27; C12). The odd bit
positions are R73's; 95_test_vectors.md section 2.4 has it otherwise (log 23). -/
def Obligations.AddressFieldReadsBack : Prop :=
  (∀ (v t c : Byte) (l : List Byte) (s : State), OnlyReturns (.wraddr v t c) s (.nibbles l) →
    OnlyReturns (.rdaddr l) s (.address v t c)) ∧
  ∀ (n : List Byte) (s : State), n.length = 14 →
    ∃ (f : Nat → Byte) (ok : Bool),
      OnlyReturns (.rdaddr n) s (if ok then .address (f 3) (f 5) (f 7) else .addressRejected) ∧
      (∀ k, OnlyReturns (.dec44 (n.getD k 0#8) (n.getD (k + 1) 0#8)) s (.byte (f k))) ∧
      (ok = true ↔ slice n 0 3 = [0xD5#8, 0xAA#8, 0x96#8] ∧ slice n 11 3 = [0xDE#8, 0xAA#8, 0xEB#8] ∧
        f 9 = f 3 ^^^ f 5 ^^^ f 7 ∧ ∀ k, 3 ≤ k → k < 11 → ∀ b < 8, b % 2 = 1 → (n.getD k 0#8).getLsbD b = true) ∧
      (ok = true → OnlyReturns (.wraddr (f 3) (f 5) (f 7)) s (.nibbles n))

/-- R65, R128: the 349 nibbles of a data field: prologue, 342 chained symbols, checksum, epilogue. -/
def Obligations.DataFieldFormat : Prop :=
  ∀ (hi lo : List Six) (s : State), hi.length = 256 → lo.length = 86 →
    ∃ l : List Byte, OnlyReturns (.wrdata hi lo) s (.nibbles l) ∧ l.length = 349 ∧
      slice l 0 3 = [0xD5#8, 0xAA#8, 0xAD#8] ∧ slice l 346 3 = [0xDE#8, 0xAA#8, 0xEB#8] ∧
      l.getD 3 0#8 = symbol s.cfg (plain hi lo 0) ∧
      (∀ k, 1 ≤ k → k < 342 → l.getD (3 + k) 0#8 = symbol s.cfg (plain hi lo k ^^^ plain hi lo (k - 1))) ∧
      l.getD 345 0#8 = symbol s.cfg (plain hi lo 341)

/-- R129, R133 (d): with 64 distinct symbols RDDATA returns the 256 bytes that SPLIT62 and WRDATA were given. -/
def Obligations.DataFieldReadsBack : Prop :=
  ∀ (b : List Byte) (s : State), s.cfg.gcr62.length = 64 → s.cfg.gcr62.Nodup → b.length = 256 →
    ∃ (hi lo : List Six) (l : List Byte), OnlyReturns (.split62 b) s (.split hi lo) ∧
      OnlyReturns (.wrdata hi lo) s (.nibbles l) ∧ OnlyReturns (.rddata l) s (.sector b true)

/-- R129: what RDDATA accepts: the prologue, the epilogue, and 343 symbols whose values XOR to 0; it then returns JOIN62 of the
running XORs, the first 86 of them being `lo[85]` down to `lo[0]` and the next 256 `hi[0]` up to `hi[255]`. Anything else is
answered with `ok = false`, unspecified bytes (a free value, log 7) and no other change. -/
def Obligations.DataFieldAcceptance : Prop :=
  ∀ (n : List Byte) (s : State), s.cfg.gcr62.length = 64 → s.cfg.gcr62.Nodup → n.length = 349 →
    (∀ x : List Six, slice n 0 3 = [0xD5#8, 0xAA#8, 0xAD#8] → slice n 346 3 = [0xDE#8, 0xAA#8, 0xEB#8] →
      x.map (symbol s.cfg) = slice n 3 343 → x.foldl (· ^^^ ·) 0#6 = 0#6 →
      ∃ (hi lo : List Six) (b : List Byte), hi.length = 256 ∧ lo.length = 86 ∧ b.length = 256 ∧
        (∀ k < 342, plain hi lo k = (x.take (k + 1)).foldl (· ^^^ ·) 0#6) ∧
        OnlyReturns (.join62 hi lo) s (.bytes b) ∧ OnlyReturns (.rddata n) s (.sector b true)) ∧
    (¬(slice n 0 3 = [0xD5#8, 0xAA#8, 0xAD#8] ∧ slice n 346 3 = [0xDE#8, 0xAA#8, 0xEB#8] ∧
      ∃ x : List Six, x.map (symbol s.cfg) = slice n 3 343 ∧ x.foldl (· ^^^ ·) 0#6 = 0#6) →
      exec (.rddata n) s =
        .next { s with result := .sector ((List.range 256).map (Config.unspecified s.draws)) false,
                       draws := s.draws + 1 })

/-- R66, R130, R131, R132: an encoded track: sixteen sectors of 383 nibbles, each with its gaps, the address field of its
physical number and the data field of the logical sector the interleave table gives; then 528 pad nibbles. -/
def Obligations.TrackLayout : Prop :=
  ∀ (data : List Byte) (v t : Byte) (order : Order) (s : State), ConfigLegal s.cfg → data.length = 4096 →
    ∃ nib : List Byte, OnlyReturns (.enctrack data v t order) s (.nibbles nib) ∧ nib.length = 6656 ∧
      (∀ p : Fin 16, ∃ l : Fin 16,
        (match order with
          | .dos => s.cfg.orderDos
          | .prodos => s.cfg.orderProdos)[p.val]? = some l ∧
        slice nib (383 * p.val) 12 = List.replicate 12 0xFF#8 ∧
        OnlyReturns (.wraddr v t (BitVec.ofNat 8 p.val)) s (.nibbles (slice nib (383 * p.val + 12) 14)) ∧
        slice nib (383 * p.val + 26) 8 = List.replicate 8 0xFF#8 ∧
        ∃ hi lo, OnlyReturns (.split62 (slice data (256 * l.val) 256)) s (.split hi lo) ∧
          OnlyReturns (.wrdata hi lo) s (.nibbles (slice nib (383 * p.val + 34) 349))) ∧
      slice nib 6128 528 = List.replicate 528 0x7F#8

/-- R133 (e): reading back an encoded track: every address field and every data field of every sector. -/
def Obligations.TrackReadsBack : Prop :=
  ∀ (data nib : List Byte) (v t : Byte) (order : Order) (s : State), ConfigLegal s.cfg → data.length = 4096 →
    OnlyReturns (.enctrack data v t order) s (.nibbles nib) →
    ∀ p : Fin 16, ∃ l : Fin 16,
      (match order with
        | .dos => s.cfg.orderDos
        | .prodos => s.cfg.orderProdos)[p.val]? = some l ∧
      OnlyReturns (.rdaddr (slice nib (383 * p.val + 12) 14)) s (.address v t (BitVec.ofNat 8 p.val)) ∧
      OnlyReturns (.rddata (slice nib (383 * p.val + 34) 349)) s (.sector (slice data (256 * l.val) 256) true)

/-- R133 (f), R67: where every symbol has bit 7 set, every structured nibble of a track has; so none is the pad nibble. -/
def Obligations.StructuredNibblesHaveBit7 : Prop :=
  ∀ (data nib : List Byte) (v t : Byte) (order : Order) (s : State), ConfigLegal s.cfg →
    (∀ g ∈ s.cfg.gcr62, g.getLsbD 7 = true) → data.length = 4096 →
    OnlyReturns (.enctrack data v t order) s (.nibbles nib) →
    ∀ o < 6128, (nib.getD o 0#8).getLsbD 7 = true

/-! ## The image loader -/

/-- R110, R237: a MOUNT that does not succeed writes no state: only its result, a FormatError, is new. -/
def Obligations.FailedMountWritesNothing : Prop :=
  ∀ (d : Drive) (h : Hint) (st : List Byte) (wp : Bool) (s t : State), exec (.mount d h st wp) s = .next t →
    t.result ≠ .ok → ∃ why, t = { s with result := .failed (.formatError why) }

/-- R102 to R106, R230: the checks of a 2IMG header in their order, each with its reason. -/
def Obligations.HeaderChecksInOrder : Prop :=
  ∀ (d : Drive) (st : List Byte) (wp : Bool),
    (st.length < 64 → MountFails d .img2 st wp .truncated) ∧
    (64 ≤ st.length → slice st 0 4 ≠ [0x32#8, 0x49#8, 0x4D#8, 0x47#8] → MountFails d .img2 st wp .magic) ∧
    (64 ≤ st.length → slice st 0 4 = [0x32#8, 0x49#8, 0x4D#8, 0x47#8] → field st 8 2 ≠ 64 →
      MountFails d .img2 st wp .headerSize) ∧
    (64 ≤ st.length → slice st 0 4 = [0x32#8, 0x49#8, 0x4D#8, 0x47#8] → field st 8 2 = 64 → 2 < field st 12 4 →
      MountFails d .img2 st wp .imageFormat) ∧
    (64 ≤ st.length → slice st 0 4 = [0x32#8, 0x49#8, 0x4D#8, 0x47#8] → field st 8 2 = 64 → field st 12 4 = 1 →
      field st 20 4 ≠ 280 → MountFails d .img2 st wp .numBlocks)

/-- R109, R230: a stream that ends before its 35 tracks do is `truncated`, raw or behind a 2IMG header that passes every check. -/
def Obligations.ShortStreamsAreTruncated : Prop :=
  ∀ (d : Drive) (st : List Byte) (wp : Bool),
    (st.length < 143360 → MountFails d .dos st wp .truncated ∧ MountFails d .po st wp .truncated) ∧
    (st.length < 232960 → MountFails d .nib st wp .truncated) ∧
    (64 ≤ st.length → slice st 0 4 = [0x32#8, 0x49#8, 0x4D#8, 0x47#8] → field st 8 2 = 64 →
      (field st 12 4 = 0 ∨ field st 12 4 = 1 ∧ field st 20 4 = 280) ∧ st.length < 64 + 143360 ∨
        field st 12 4 = 2 ∧ st.length < 64 + 232960 →
      MountFails d .img2 st wp .truncated)

/-- R100, R108, R109, R111, R114: the three raw layouts: a nibble image is copied verbatim, a sector image is encoded track by
track with its interleave table and the default volume; longer streams are accepted. -/
def Obligations.RawImagesMount : Prop :=
  ∀ (d : Drive) (st : List Byte) (wp : Bool) (s : State),
    (232960 ≤ st.length → ∃ t, exec (.mount d .nib st wp) s = .next t ∧
      Mounted s t d wp (fun tr => slice st (6656 * tr) 6656)) ∧
    (143360 ≤ st.length → ∃ t, exec (.mount d .dos st wp) s = .next t ∧
      Mounted s t d wp (fun tr =>
        enctrack s.cfg (slice st (4096 * tr) 4096) s.cfg.defaultVolume (BitVec.ofNat 8 tr) .dos)) ∧
    (143360 ≤ st.length → ∃ t, exec (.mount d .po st wp) s = .next t ∧
      Mounted s t d wp (fun tr =>
        enctrack s.cfg (slice st (4096 * tr) 4096) s.cfg.defaultVolume (BitVec.ofNat 8 tr) .prodos))

/-- R105, R107, R109, R111: a 2IMG image that passes its checks: the payload from byte 64 on, the write-protect request or flag
bit 31, and the volume of flag bits 7:0 where bit 8 is set. -/
def Obligations.WrappedImagesMount : Prop :=
  ∀ (d : Drive) (st : List Byte) (wp : Bool) (s : State) (vol : Byte), 64 ≤ st.length →
    slice st 0 4 = [0x32#8, 0x49#8, 0x4D#8, 0x47#8] → field st 8 2 = 64 →
    vol = (if (field st 16 4).testBit 8 then BitVec.ofNat 8 (field st 16 4 % 256) else s.cfg.defaultVolume) →
    (field st 12 4 = 0 → 64 + 143360 ≤ st.length → ∃ t, exec (.mount d .img2 st wp) s = .next t ∧
      Mounted s t d (wp || (field st 16 4).testBit 31) (fun tr =>
        enctrack s.cfg (slice st (64 + 4096 * tr) 4096) vol (BitVec.ofNat 8 tr) .dos)) ∧
    (field st 12 4 = 1 → field st 20 4 = 280 → 64 + 143360 ≤ st.length → ∃ t, exec (.mount d .img2 st wp) s = .next t ∧
      Mounted s t d (wp || (field st 16 4).testBit 31) (fun tr =>
        enctrack s.cfg (slice st (64 + 4096 * tr) 4096) vol (BitVec.ofNat 8 tr) .prodos)) ∧
    (field st 12 4 = 2 → 64 + 232960 ≤ st.length → ∃ t, exec (.mount d .img2 st wp) s = .next t ∧
      Mounted s t d (wp || (field st 16 4).testBit 31) (fun tr => slice st (64 + 6656 * tr) 6656))

/-! ## The speaker synthesizer -/

/-- R190: the CPU core appends the clock to the flip ring; the synthesizer is not touched. The number 40 is the spec's own (R72, D2),
and that the request is this one byte is the model's (log 3). -/
def Obligations.ToggleAppendsTheClock : Prop :=
  ∀ s : State, exec .spktoggle s =
    .next { s with
            flips := { ring := s.flips.ring.set s.flips.ringWr s.inp.clockNow,
                       ringWr := (s.flips.ringWr + 1) % s.cfg.flipRingSize }
            result := .none } ∧ encode .spktoggle = .host [0x40#8]

/-- R203, R204: the volume is the operand's low three bits; a pause gives up the sink if it is held, once. -/
def Obligations.VolumeAndPause : Prop :=
  ∀ (v : Nat) (s : State),
    (∃ w : BitVec 3, w.toNat = v % 8 ∧
      exec (.spkvol v) s = .next { s with spk := { s.spk with volume := w }, result := .none }) ∧
    (s.spk.sinkOpen = true → exec .spkpause s =
      .next { s with spk := { s.spk with sinkOpen := false }, sinkCalls := s.sinkCalls ++ [.closeAudio], result := .none }) ∧
    (s.spk.sinkOpen = false → OnlyReturns .spkpause s .none)

/-- R191, R205, R233: SPKRESUME: an open sink is closed first; a step of 0 is refused before the sink is asked; a sink that
fails is reported; a sink that answers gives the buffer size. The new buffer's bytes are unspecified (a free value, log 7). -/
def Obligations.ResumeAcquiresTheSink : Prop :=
  ∀ (s : State) (closed : List SinkCall) (c : Nat),
    closed = s.sinkCalls ++ (if s.spk.sinkOpen = true then [.closeAudio] else []) →
    c = s.inp.cpuSpeedKHz * 1000 / s.cfg.sampleRate →
    (c = 0 → exec .spkresume s =
      .next { s with spk := { s.spk with sinkOpen := false }, sinkCalls := closed,
                     result := .failed .resourceUnavailable }) ∧
    (c ≠ 0 → s.inp.initAudio = none → exec .spkresume s =
      .next { s with spk := { s.spk with sinkOpen := false }, sinkCalls := closed ++ [.initAudio none],
                     result := .failed .resourceUnavailable }) ∧
    ∀ r : Nat, c ≠ 0 → s.inp.initAudio = some r → exec .spkresume s =
      .next { s with
              spk := { s.spk with
                       cps := c, bufSize := r, pcm := (List.range r).map (Config.unspecified s.draws), sinkOpen := true }
              sinkCalls := closed ++ [.initAudio (some r)]
              draws := s.draws + 1
              result := .ok }

/-- R196, R197, R202: SPKFILL returns an even count of at most `bufSize` bytes, 0 exactly when STOP holds on entry or the buffer
is shorter than a sample, moves `sclk` by `cps` a sample, and writes nothing but `sclk`, `ringRd`, `level` and `pcm`. -/
def Obligations.FillCountsAndClock : Prop :=
  ∀ (e : Clock) (s : State), ∃ (n : Nat) (k : Speaker),
    exec (.spkfill e) s = .next { s with spk := k, result := .count n } ∧
    n % 2 = 0 ∧ n ≤ s.spk.bufSize ∧
    (n = 0 ↔ Earlier e s.spk.sclk ∨ Earlier e (s.spk.sclk + BitVec.ofNat 31 s.spk.cps) ∨ s.spk.bufSize < 2) ∧
    k.sclk = s.spk.sclk + BitVec.ofNat 31 (n / 2 * s.spk.cps) ∧
    (n + 2 ≤ s.spk.bufSize → Earlier e k.sclk ∨ Earlier e (k.sclk + BitVec.ofNat 31 s.spk.cps)) ∧
    k.volume = s.spk.volume ∧ k.cps = s.spk.cps ∧ k.bufSize = s.spk.bufSize ∧ k.sinkOpen = s.spk.sinkOpen ∧
    k.pcm.length = s.spk.pcm.length ∧ ∀ i, n ≤ i → k.pcm.getD i 0#8 = s.spk.pcm.getD i 0#8

/-- R196, R198 to R201, R70: a fill with room for a sample and no STOP is one sample and then the fill of the rest. The sample: the
clock advances, every pending event before it flips the level, in ring order up to the first that is not before it, and the
two bytes are plus or minus `2^(volume+8)` cut to 16 bits, low byte first. The rest: the fill, from the state the sample
leaves, of the buffer without those two bytes. -/
def Obligations.OneSampleDrainsAndEmits : Prop :=
  ∀ (e : Clock) (s : State), RingLegal s.cfg s.flips → s.spk.ringRd < s.cfg.flipRingSize →
    2 ≤ s.spk.bufSize → s.spk.pcm.length = s.spk.bufSize →
    ¬ Earlier e s.spk.sclk → ¬ Earlier e (s.spk.sclk + BitVec.ofNat 31 s.spk.cps) →
    ∃ (c : Nat) (lvl : Bool) (a : Int) (n : Nat) (k : Speaker),
      let newClock := s.spk.sclk + BitVec.ofNat 31 s.spk.cps
      c < s.cfg.flipRingSize ∧ (∀ i < c, EventDue s newClock i) ∧ ¬ EventDue s newClock c ∧
      lvl = (s.spk.level ^^ decide (c % 2 = 1)) ∧
      a = (if lvl then 1 else -1) * 2 ^ (s.spk.volume.toNat + 8) ∧
      exec (.spkfill e)
          { s with
            spk := { s.spk with
                     sclk := newClock
                     ringRd := (s.spk.ringRd + c) % s.cfg.flipRingSize
                     level := lvl
                     bufSize := s.spk.bufSize - 2
                     pcm := s.spk.pcm.drop 2 } } =
        .next { s with spk := k, result := .count n } ∧
      exec (.spkfill e) s =
        .next { s with
                spk := { k with
                         bufSize := s.spk.bufSize
                         pcm := BitVec.ofNat 8 (a % 256).toNat :: BitVec.ofNat 8 (a % 65536 / 256).toNat :: k.pcm }
                result := .count (n + 2) }

/-- R206: a refresh while paused does nothing; one with the sink not available asks it and does nothing else. -/
def Obligations.RefreshReturnsEarly : Prop :=
  ∀ s : State,
    (s.spk.sinkOpen = false → OnlyReturns .spkrefresh s .none) ∧
    (s.spk.sinkOpen = true → s.inp.audioAvailable = false → exec .spkrefresh s =
      .next { s with sinkCalls := s.sinkCalls ++ [.isAudioAvailable false], result := .none })

/-- R268, R206: a refresh with a stale clock (a gap of 2^30 ticks or more) or a buffer shorter than a sample delivers nothing
and moves nothing, whatever `cps` is. So does one whose step is 0 modulo 2^31, which no sample would move: `gap div cps` is 0
(the model's reading of R206 there: log 14). -/
def Obligations.StaleClockDeliversNothing : Prop :=
  ∀ s : State, s.spk.sinkOpen = true → s.inp.audioAvailable = true →
    (2 ^ 30 ≤ ticks s.spk.sclk s.inp.clockNow ∨ s.spk.bufSize < 2 ∨ s.spk.cps % 2 ^ 31 = 0) →
    exec .spkrefresh s = .next { s with sinkCalls := s.sinkCalls ++ [.isAudioAvailable true], result := .none }

/-- R206: a refresh is a loop of fills: it fills to the current clock; a fill that produces nothing ends it; otherwise the
chunk is the first `n` bytes the fill leaves, and the refresh goes on from there. And R209, the source's example: flips at 100,
150 and 500 with 50 ticks a sample give the twelve samples - - + - - - - - - - + + (level 1 positive: decision D28). -/
def Obligations.RefreshRepeatsFills : Prop :=
  (∀ s : State, Refreshing s →
    ∃ (n : Nat) (k : Speaker),
      exec (.spkfill s.inp.clockNow) s = .next { s with spk := k, result := .count n } ∧
      (n = 0 → exec .spkrefresh s =
        .next { s with spk := k, sinkCalls := s.sinkCalls ++ [.isAudioAvailable true], result := .none }) ∧
      (0 < n → ∃ (k' : Speaker) (chunks : List (List Byte)),
        exec .spkrefresh { s with spk := k } =
          .next { s with
                  spk := k'
                  sinkCalls := s.sinkCalls ++ [.isAudioAvailable true] ++ chunks.map SinkCall.audioWrite
                  result := .none } ∧
        exec .spkrefresh s =
          .next { s with
                  spk := k'
                  sinkCalls :=
                    s.sinkCalls ++ [.isAudioAvailable true] ++ (k.pcm.take n :: chunks).map SinkCall.audioWrite
                  result := .none })) ∧
  ∀ s t : State, Refreshing s → s.spk.cps = 50 → s.spk.sclk = 0#31 → s.spk.level = false → s.spk.ringRd = 0 →
    s.spk.volume = 4#3 → 24 ≤ s.spk.bufSize → s.inp.clockNow = 600#31 → 3 < s.cfg.flipRingSize → s.flips.ringWr = 3 →
    s.flips.ring.take 3 = [100#31, 150#31, 500#31] → exec .spkrefresh s = .next t →
    delivered s t =
      [[0x00#8, 0xF0#8, 0x00#8, 0xF0#8, 0x00#8, 0x10#8, 0x00#8, 0xF0#8, 0x00#8, 0xF0#8, 0x00#8, 0xF0#8,
        0x00#8, 0xF0#8, 0x00#8, 0xF0#8, 0x00#8, 0xF0#8, 0x00#8, 0xF0#8, 0x00#8, 0x10#8, 0x00#8, 0x10#8]] ∧
    t.spk.sclk = 600#31 ∧ t.spk.ringRd = 3 ∧ t.spk.level = true

/-- R206, R207, R226: a refresh that gets past its early returns catches up: it ends less than one sample behind the clock,
delivers `gap div cps` samples in nonempty chunks, all but the last of them full, and writes nothing but the synthesizer's
cursors, level and buffer. On a legal ring it drains `c` pending events, in ring order, each of them before the end of one of its
samples, and flips the level once for each; where a sample was produced, the event it stops at is not before the new `sclk`, and
where none was, nothing is drained. (`cps` at most 2^30: beyond it the clock sum wraps within the half window, log 14.) -/
def Obligations.RefreshCatchesUp : Prop :=
  ∀ s : State, Refreshing s → ticks s.spk.sclk s.inp.clockNow < 2 ^ 30 →
    ∃ (k : Speaker) (chunks : List (List Byte)),
      exec .spkrefresh s =
        .next { s with
                spk := k
                sinkCalls := s.sinkCalls ++ [.isAudioAvailable true] ++ chunks.map SinkCall.audioWrite
                result := .none } ∧
      ticks k.sclk s.inp.clockNow < s.spk.cps ∧
      chunks.flatten.length = 2 * (ticks s.spk.sclk s.inp.clockNow / s.spk.cps) ∧
      (∀ c ∈ chunks, 0 < c.length) ∧ (∀ c ∈ chunks.dropLast, c.length = 2 * (s.spk.bufSize / 2)) ∧
      k.volume = s.spk.volume ∧ k.cps = s.spk.cps ∧ k.bufSize = s.spk.bufSize ∧ k.sinkOpen = true ∧
      (RingLegal s.cfg s.flips → s.spk.ringRd < s.cfg.flipRingSize →
        ∃ c < s.cfg.flipRingSize,
          k.ringRd = (s.spk.ringRd + c) % s.cfg.flipRingSize ∧ k.level = (s.spk.level ^^ decide (c % 2 = 1)) ∧
          (∀ i < c, ∃ m, 1 ≤ m ∧ m ≤ ticks s.spk.sclk s.inp.clockNow / s.spk.cps ∧
            EventDue s (s.spk.sclk + BitVec.ofNat 31 (m * s.spk.cps)) i) ∧
          (chunks ≠ [] → ¬ EventDue s k.sclk c))

/-- R208, both halves. Two states that differ only in the buffer deliver the same bytes, however they are cut into chunks, and leave
the same cursors, clock and level. And two refreshes, at `s.inp.clockNow` and then with inputs `x` at a later clock, deliver the
bytes of one refresh at the later clock, where the events in the ring `f'` beyond those of `s` (the ring holds `p + a` events after the
read cursor, `p` of them already in `s`) are not before the first refresh's final `sclk`, nor (as R208's half window implies)
before its first. -/
def Obligations.ChunkingDoesNotChangeTheSamples : Prop :=
  (∀ s s' t t' : State, Refreshing s → Refreshing s' →
    s' = { s with spk := { s.spk with bufSize := s'.spk.bufSize, pcm := s'.spk.pcm } } →
    exec .spkrefresh s = .next t → exec .spkrefresh s' = .next t' →
    (delivered s t).flatten = (delivered s' t').flatten ∧
    t.spk.sclk = t'.spk.sclk ∧ t.spk.ringRd = t'.spk.ringRd ∧ t.spk.level = t'.spk.level) ∧
  ∀ (s t u w : State) (x : Inputs) (f' : FlipRing) (p a : Nat), Refreshing s → x.audioAvailable = true →
    ticks s.spk.sclk s.inp.clockNow ≤ ticks s.spk.sclk x.clockNow → ticks s.spk.sclk x.clockNow < 2 ^ 30 →
    RingLegal s.cfg s.flips → s.spk.ringRd < s.cfg.flipRingSize → p + a < s.cfg.flipRingSize →
    s.flips.ringWr = (s.spk.ringRd + p) % s.cfg.flipRingSize → f'.ringWr = (s.spk.ringRd + p + a) % s.cfg.flipRingSize →
    (∀ i < p, f'.ring.getD ((s.spk.ringRd + i) % s.cfg.flipRingSize) 0#31 =
      s.flips.ring.getD ((s.spk.ringRd + i) % s.cfg.flipRingSize) 0#31) →
    exec .spkrefresh s = .next t →
    (∀ i, p ≤ i → i < p + a →
      ¬ Earlier (f'.ring.getD ((s.spk.ringRd + i) % s.cfg.flipRingSize) 0#31) t.spk.sclk ∧
      ¬ Earlier (f'.ring.getD ((s.spk.ringRd + i) % s.cfg.flipRingSize) 0#31) s.spk.sclk) →
    exec .spkrefresh { t with inp := x, flips := f' } = .next u →
    exec .spkrefresh { s with inp := x, flips := f' } = .next w →
    (delivered s t).flatten ++ (delivered { t with inp := x, flips := f' } u).flatten =
      (delivered { s with inp := x, flips := f' } w).flatten ∧
    u.spk.sclk = w.spk.sclk ∧ u.spk.ringRd = w.spk.ringRd ∧ u.spk.level = w.spk.level

/-- R200, R201, R266: every sample a refresh delivers is plus or minus the amplitude of the current volume, low byte first; at
volume 7 both are the bytes 00 80. -/
def Obligations.DeliveredSamplesHaveTheAmplitude : Prop :=
  ∀ s t : State, s.spk.pcm.length = s.spk.bufSize → exec .spkrefresh s = .next t →
    ∀ c ∈ delivered s t, c.length % 2 = 0 ∧ ∀ m, 2 * m + 1 < c.length →
      c.getD (2 * m) 0#8 = 0x00#8 ∧
      ((c.getD (2 * m + 1) 0#8).toNat = 2 ^ s.spk.volume.toNat ∨
        (c.getD (2 * m + 1) 0#8).toNat = 256 - 2 ^ s.spk.volume.toNat) ∧
      (s.spk.volume = 7#3 → c.getD (2 * m + 1) 0#8 = 0x80#8)

/-! ## The paddles -/

/-- R216 to R218, R221: the axes: a position is stored as an increment, a trigger stamps all four axes, a read compares. An
index is its low two bits. -/
def Obligations.PaddleAxes : Prop :=
  ∀ (a : Nat) (v : Byte) (s : State),
    (∃ p : Paddle,
      exec (.pdlset a v) s = .next { s with pdl := p, result := .none } ∧ p.event = s.pdl.event ∧ p.button = s.pdl.button ∧
      ∀ b : Fin 4, p.inc.get b = if b.val = a % 4 then v.toNat * 11 + 8 else s.pdl.inc.get b) ∧
    (∃ p : Paddle,
      exec .pdltrig s = .next { s with pdl := p, result := .none } ∧ p.inc = s.pdl.inc ∧ p.button = s.pdl.button ∧
      ∀ b : Fin 4, (p.event.get b).toNat = (s.inp.clockNow.toNat + s.pdl.inc.get b) % 2 ^ 31) ∧
    ∀ b : Fin 4, b.val = a % 4 →
      (Earlier s.inp.clockNow (s.pdl.event.get b) → OnlyReturns (.pdlread a) s (.byte 0x80#8)) ∧
      (¬ Earlier s.inp.clockNow (s.pdl.event.get b) → OnlyReturns (.pdlread a) s (.byte 0x00#8))

/-- R219 to R221: the buttons are independent latches that a read does not clear. -/
def Obligations.ButtonsAreLatches : Prop :=
  ∀ (n : Nat) (pressed : Bool) (s : State),
    (∃ p : Paddle,
      exec (.btnset n pressed) s = .next { s with pdl := p, result := .none } ∧ p.inc = s.pdl.inc ∧
      p.event = s.pdl.event ∧ ∀ b : Fin 4, p.button.get b = if b.val = n % 4 then pressed else s.pdl.button.get b) ∧
    ∀ b : Fin 4, b.val = n % 4 →
      OnlyReturns (.btnread n) s (.byte (if s.pdl.button.get b = true then 0x80#8 else 0x00#8))

/-- R218 and the source's paddle test: after PDLSET `a, v` and a PDLTRIG at tick T, axis `a` reads 0x80 at T + k for every k
below `v * 11 + 8`, 0x00 from there on for 2^30 ticks, and then 0x80 again for 2^30 ticks (the comparison is modular). -/
def Obligations.PaddleReadsHighForItsInterval : Prop :=
  ∀ (a k : Nat) (v : Byte) (s t u : State) (x : Inputs), exec (.pdlset a v) s = .next t → exec .pdltrig t = .next u →
    x.clockNow = s.inp.clockNow + BitVec.ofNat 31 k →
    (k < v.toNat * 11 + 8 → OnlyReturns (.pdlread a) { u with inp := x } (.byte 0x80#8)) ∧
    (v.toNat * 11 + 8 ≤ k → k < v.toNat * 11 + 8 + 2 ^ 30 →
      OnlyReturns (.pdlread a) { u with inp := x } (.byte 0x00#8)) ∧
    (v.toNat * 11 + 8 + 2 ^ 30 ≤ k → k < v.toNat * 11 + 8 + 2 ^ 31 →
      OnlyReturns (.pdlread a) { u with inp := x } (.byte 0x80#8))
end

