-- ==== Sys2Proof/Laws/Codec.lean ====
section
/-! SUPPORT. The laws of the nibble codec: lengths, the fold of the low bits slot by slot, the symbols and their inverse, the
checksum chain and its inverse. -/

namespace Sys2Proof.Machine

/-! ### Lengths -/

@[simp] theorem length_splitHigh (b : List Byte) : (splitHigh b).length = 256 := by simp [splitHigh]

@[simp] theorem length_join62 (hi lo : List Six) : (join62 hi lo).length = 256 := by simp [join62]

@[simp] theorem length_foldInto (lo : List Six) (j : Nat) (v : Byte) : (foldInto lo j v).length = lo.length := by
  simp [foldInto]

@[simp] theorem length_foldLoop (b : List Byte) (i j : Nat) (lo : List Six) : (foldLoop b i j lo).length = lo.length := by
  induction i generalizing j lo with
  | zero => rfl
  | succ i ih => rw [foldLoop, ih, length_foldInto]

@[simp] theorem length_seedSlots (b : List Byte) : (seedSlots b).length = 86 := by simp [seedSlots]

@[simp] theorem length_splitLow (b : List Byte) : (splitLow b).length = 86 := by
  rw [splitLow, length_foldLoop, length_seedSlots]

@[simp] theorem length_enc44 (v : Byte) : (enc44 v).length = 2 := rfl

@[simp] theorem length_wrsync (n : Nat) : (wrsync n).length = n := by simp [wrsync]

@[simp] theorem length_wraddr (volume track sector : Byte) : (wraddr volume track sector).length = 14 := rfl

@[simp] theorem length_chain (cfg : Config) (last : Six) (l : List Six) : (chain cfg last l).length = l.length + 1 := by
  induction l generalizing last with
  | nil => rfl
  | cons p l ih => simp [chain, ih]

@[simp] theorem length_wrdata (cfg : Config) (hi lo : List Six) : (wrdata cfg hi lo).length = hi.length + lo.length + 7 := by
  simp [wrdata, dataPrologue, epilogue]
  omega

@[simp] theorem length_encSector (cfg : Config) (data : List Byte) (volume track : Byte) (order : Order) (s : Nat) :
    (encSector cfg data volume track order s).length = 383 := by
  simp [encSector, syncBeforeAddress, syncBeforeData]

@[simp] theorem length_encSectors (cfg : Config) (data : List Byte) (volume track : Byte) (order : Order) :
    (encSectors cfg data volume track order).length = 6128 := by
  simp [encSectors, List.length_flatMap, numSectors]

/-- Every encoded track fills its buffer (R131, R132). -/
@[simp] theorem length_enctrack (cfg : Config) (data : List Byte) (volume track : Byte) (order : Order) :
    (enctrack cfg data volume track order).length = 6656 := by
  rw [enctrack, padTrack, List.length_append, List.length_replicate, length_encSectors]
  rfl

/-! ### 4-and-4 -/

theorem dec44_enc44 (v : Byte) : dec44 ((v >>> 1) ||| 0xAA#8) (v ||| 0xAA#8) = v := by
  revert v
  decide +kernel

/-! ### The low bits, slot by slot (R122, R123) -/

/-- What the bytes `n - 1` down to 0 put into slot `k`. -/
def slotFold (b : List Byte) (k : Nat) : Nat → Six → Six
  | 0, x => x
  | n + 1, x => slotFold b k n (if 85 - n % 86 = k then (x <<< 2) ||| foldBits (b.getD n 0#8) else x)

theorem getD_foldInto (lo : List Six) (j k : Nat) (v : Byte) (hk : k < lo.length) :
    (foldInto lo j v).getD k 0#6 = if j = k then (lo.getD k 0#6 <<< 2) ||| foldBits v else lo.getD k 0#6 := by
  simp [foldInto, List.getD_eq_getElem?_getD, List.getElem_modify, hk]

/-- The loop works on each slot as `slotFold` says. -/
theorem getD_foldLoop (b : List Byte) (n k : Nat) (lo : List Six) (hk : k < lo.length) (hn : n ≤ 256) :
    (foldLoop b n ((258 - n) % 86) lo).getD k 0#6 = slotFold b k n (lo.getD k 0#6) := by
  induction n generalizing lo with
  | zero => rfl
  | succ n ih =>
    have h1 : nextSlot ((258 - (n + 1)) % 86) = (258 - n) % 86 := by
      unfold nextSlot
      split_ifs <;> omega
    have h2 : (258 - (n + 1)) % 86 = 85 - n % 86 := by omega
    rw [foldLoop, h1, ih _ (by simpa using hk) (by omega), getD_foldInto _ _ _ _ hk, h2, slotFold]

/-- Bytes that go to other slots change nothing. -/
theorem slotFold_skip (b : List Byte) (k m n : Nat) (x : Six) (h : ∀ i, m ≤ i → i < n → 85 - i % 86 ≠ k) (hmn : m ≤ n) :
    slotFold b k n x = slotFold b k m x := by
  induction n with
  | zero => rw [show m = 0 by omega]
  | succ n ih =>
    rcases Nat.lt_or_ge n m with hlt | hge
    · rw [show m = n + 1 by omega]
    · rw [slotFold, if_neg (h n hge (by omega)), ih (fun i h1 h2 => h i h1 (by omega)) hge]

/-- A byte that goes to the slot is folded in. -/
theorem slotFold_hit (b : List Byte) (k n : Nat) (x : Six) (h : 85 - n % 86 = k) :
    slotFold b k (n + 1) x = slotFold b k n ((x <<< 2) ||| foldBits (b.getD n 0#8)) := by
  rw [slotFold, if_pos h]

/-- Slot `k` holds the low bits of three bytes, the last of them lowest (R123). -/
theorem getD_splitLow (b : List Byte) (k : Nat) (hk : k < 86) :
    (splitLow b).getD k 0#6 =
      ((foldBits (b.getD ((257 - k) % 256) 0#8) <<< 2 ||| foldBits (b.getD (171 - k) 0#8)) <<< 2) |||
        foldBits (b.getD (85 - k) 0#8) := by
  have h0 : (splitLow b).getD k 0#6 = slotFold b k 256 ((seedSlots b).getD k 0#6) :=
    getD_foldLoop b 256 k _ (by simpa using hk) le_rfl
  have tail : ∀ x, slotFold b k 172 x =
      (((x <<< 2) ||| foldBits (b.getD (171 - k) 0#8)) <<< 2) ||| foldBits (b.getD (85 - k) 0#8) := by
    intro x
    rw [slotFold_skip b k (171 - k + 1) 172 x (by omega) (by omega), slotFold_hit b k _ _ (by omega),
      slotFold_skip b k (85 - k + 1) (171 - k) _ (by omega) (by omega), slotFold_hit b k _ _ (by omega),
      slotFold_skip b k 0 (85 - k) _ (by omega) (by omega)]
    rfl
  rcases Nat.lt_or_ge k 2 with hlt | hge
  · have hseed : (seedSlots b).getD k 0#6 = foldBits (b.getD ((257 - k) % 256) 0#8) := by
      interval_cases k <;> simp [seedSlots]
    rw [h0, hseed, slotFold_skip b k 172 256 _ (by omega) (by omega), tail]
  · have hseed : (seedSlots b).getD k 0#6 = 0#6 := by
      simp only [seedSlots, List.getD_eq_getElem?_getD]
      rw [List.getElem?_set_ne (by omega), List.getElem?_set_ne (by omega), List.getElem?_replicate]
      simp [hk]
    rw [h0, hseed, slotFold_skip b k (257 - k + 1) 256 _ (by omega) (by omega), slotFold_hit b k _ _ (by omega),
      slotFold_skip b k 172 (257 - k) _ (by omega) (by omega), tail, Nat.mod_eq_of_lt (show 257 - k < 256 by omega)]
    simp

theorem getD_splitHigh (b : List Byte) (i : Nat) (hi : i < 256) :
    (splitHigh b).getD i 0#6 = ((b.getD i 0#8) >>> 2).setWidth 6 := by
  simp [splitHigh, List.getD_eq_getElem?_getD, hi]

theorem getD_join62 (hi lo : List Six) (i : Nat) (h : i < 256) : (join62 hi lo).getD i 0#8 = joinByte hi lo i := by
  simp [join62, List.getD_eq_getElem?_getD, h]

/-! ### Address fields (R126, R127) -/

theorem oddBitsSet_iff (x : Byte) : oddBitsSet x = true ↔ ∀ b < 8, b % 2 = 1 → x.getLsbD b = true := by
  revert x
  decide

/-- On two 4-and-4 nibbles ENC44 undoes DEC44. -/
theorem enc44_dec44 {x y : Byte} (hx : oddBitsSet x = true) (hy : oddBitsSet y = true) : enc44 (dec44 x y) = [x, y] := by
  rw [oddBitsSet_iff] at hx hy
  have e1 : (dec44 x y >>> 1) ||| 0xAA#8 = x := by
    ext b hb
    have := hx b hb
    have := hy (b + 1)
    interval_cases b <;> simp_all [dec44]
  have e2 : dec44 x y ||| 0xAA#8 = y := by
    ext b hb
    have := hx (b - 1) (by omega)
    have := hy b hb
    interval_cases b <;> simp_all [dec44]
  rw [enc44, e1, e2]

theorem oddBitsSet_or (x : Byte) : oddBitsSet (x ||| 0xAA#8) = true := by
  revert x
  decide

/-- RDADDR accepts what WRADDR writes (R133 (c)). -/
theorem addressOk_wraddr (v t c : Byte) : addressOk (wraddr v t c) = true := by
  have h : ∀ x : Byte, oddBitsSet (x ||| 0xAA#8) = true := oddBitsSet_or
  simp [addressOk, wraddr, field44, nibbleAt, enc44, addressPrologue, epilogue, dec44_enc44, h]

/-- RDADDR accepts exactly what WRADDR writes (D27). -/
theorem addressOk_iff (n : List Byte) (hn : n.length = 14) :
    addressOk n = true ↔ n = wraddr (field44 n 3) (field44 n 5) (field44 n 7) := by
  match n, hn with
  | [a, b, c, v, v', t, t', s, s', k, k', d, e, f], _ =>
    have hf : ∀ x y, oddBitsSet x = true → oddBitsSet y = true → enc44 (dec44 x y) = [x, y] := fun _ _ => enc44_dec44
    constructor
    · intro h
      simp only [addressOk, List.drop_succ_cons, List.drop_zero, List.take_succ_cons, List.take_zero, List.all_cons,
        List.all_nil, Bool.and_eq_true, beq_iff_eq, Bool.and_true] at h
      obtain ⟨⟨⟨hp, he⟩, h3, h4, h5, h6, h7, h8, h9, h10⟩, hk⟩ := h
      have g3 := hf v v' h3 h4
      have g5 := hf t t' h5 h6
      have g7 := hf s s' h7 h8
      have g9 := hf k k' h9 h10
      simp only [field44, nibbleAt, List.getD_cons_succ, List.getD_cons_zero] at hk ⊢
      rw [wraddr, g3, g5, g7, ← hk, g9, ← hp, ← he]
      rfl
    · intro h
      rw [h]
      exact addressOk_wraddr ..

/-! ### The symbols (R68, R129) -/

section
variable {cfg : Config}

theorem gcr_eq_getElem (h : cfg.gcr62.length = 64) (x : Six) : gcr cfg x = cfg.gcr62[x.toNat]'(h ▸ x.isLt) := by
  simp [gcr, List.getD_eq_getElem?_getD, List.getElem?_eq_getElem (h ▸ x.isLt : x.toNat < cfg.gcr62.length)]

theorem gcr_mem (h : cfg.gcr62.length = 64) (x : Six) : gcr cfg x ∈ cfg.gcr62 := by
  rw [gcr_eq_getElem h]
  exact List.getElem_mem _

theorem gcr_inj (h : cfg.gcr62.length = 64) (hd : cfg.gcr62.Nodup) {x y : Six} (e : gcr cfg x = gcr cfg y) : x = y := by
  rw [gcr_eq_getElem h, gcr_eq_getElem h] at e
  exact BitVec.eq_of_toNat_eq ((List.Nodup.getElem_inj_iff hd).mp e)

/-- With 64 distinct symbols `INV62` undoes `GCR62`. -/
theorem inv62_gcr (h : cfg.gcr62.length = 64) (hd : cfg.gcr62.Nodup) (x : Six) : inv62 cfg (gcr cfg x) = some x := by
  have hx : x.toNat < cfg.gcr62.length := h ▸ x.isLt
  have hi : cfg.gcr62.idxOf? (gcr cfg x) = some x.toNat := by
    rw [List.idxOf?_eq_map_finIdxOf?_val, gcr_eq_getElem h]
    have : cfg.gcr62.finIdxOf? (cfg.gcr62[x.toNat]) = some ⟨x.toNat, hx⟩ := by
      rw [List.finIdxOf?_eq_some_iff]
      refine ⟨rfl, fun j hj e => ?_⟩
      have := (List.Nodup.getElem_inj_iff hd).mp e
      exact absurd hj (by simp [Fin.lt_def, this])
    rw [this]
    rfl
  rw [inv62, hi]
  simp

/-- What `INV62` finds is the symbol it was given. -/
theorem gcr_of_inv62 (h : cfg.gcr62.length = 64) {n : Byte} {x : Six} (hx : inv62 cfg n = some x) : gcr cfg x = n := by
  rw [inv62, List.idxOf?_eq_map_finIdxOf?_val] at hx
  cases hf : cfg.gcr62.finIdxOf? n with
  | none => rw [hf] at hx; cases hx
  | some k =>
    rw [hf] at hx
    simp only [Option.map_some, Option.some.injEq] at hx
    obtain ⟨hk, -⟩ := List.finIdxOf?_eq_some_iff.mp hf
    have hlt := k.isLt
    rw [← hx, gcr_eq_getElem h]
    simpa [Nat.mod_eq_of_lt (show k.val < 64 by omega)] using hk

/-! ### The chain (R65, R128, R129) -/

/-- The six-bit values of a chain, before they become symbols. -/
def chainValues : Six → List Six → List Six
  | last, [] => [last]
  | last, p :: ps => (last ^^^ p) :: chainValues p ps

theorem chain_eq_map (last : Six) (l : List Six) : chain cfg last l = (chainValues last l).map (gcr cfg) := by
  induction l generalizing last with
  | nil => rfl
  | cons p l ih => rw [chain, chainValues, ih]; rfl

/-- The running XOR undoes the chain and ends in 0. -/
theorem unchain_chainValues (last : Six) (l : List Six) : unchain last (chainValues last l) = l ++ [0#6] := by
  induction l generalizing last with
  | nil => simp [chainValues, unchain]
  | cons p l ih =>
    have h : last ^^^ (last ^^^ p) = p := by rw [← BitVec.xor_assoc, BitVec.xor_self, BitVec.zero_xor]
    rw [chainValues, unchain, h, ih]
    rfl

@[simp] theorem length_unchain (last : Six) (l : List Six) : (unchain last l).length = l.length := by
  induction l generalizing last with
  | nil => rfl
  | cons p l ih => simp [unchain, ih]

/-- Each running value is the XOR of the values up to it. -/
theorem getD_unchain (l : List Six) (last : Six) (k : Nat) (hk : k < l.length) :
    (unchain last l).getD k 0#6 = (l.take (k + 1)).foldl (· ^^^ ·) last := by
  induction l generalizing last k with
  | nil => simp at hk
  | cons x l ih =>
    cases k with
    | zero => simp [unchain]
    | succ k => simpa [unchain] using ih (last ^^^ x) k (by simpa using hk)

/-- The last of the running values is the XOR of them all. -/
theorem getD_unchain_last (last : Six) (l : List Six) (x : Six) :
    (unchain last (l ++ [x])).getD l.length 0#6 = (l ++ [x]).foldl (· ^^^ ·) last := by
  rw [getD_unchain _ _ _ (by simp), List.take_of_length_le (by simp)]

theorem mapM_inv62_map (h : cfg.gcr62.length = 64) (hd : cfg.gcr62.Nodup) (l : List Six) :
    (l.map (gcr cfg)).mapM (inv62 cfg) = some l := by
  induction l with
  | nil => rfl
  | cons p l ih => simp [inv62_gcr h hd, ih]

theorem map_gcr_of_mapM_inv62 (h : cfg.gcr62.length = 64) {n : List Byte} {l : List Six}
    (hn : n.mapM (inv62 cfg) = some l) : l.map (gcr cfg) = n := by
  induction n generalizing l with
  | nil =>
    simp only [List.mapM_nil, Option.pure_def, Option.some.injEq] at hn
    simp [← hn]
  | cons a n ih =>
    simp only [List.mapM_cons, Option.pure_def, Option.bind_eq_bind, Option.bind_eq_some_iff, Option.some.injEq] at hn
    obtain ⟨x, hx, xs, hxs, rfl⟩ := hn
    simp [gcr_of_inv62 h hx, ih hxs]

end

/-! ### Sectors of a track (R66, R130) -/

/-- Part `k` of a flattened list of parts of one length. -/
theorem take_drop_flatMap_range (f : Nat → List Byte) (w : Nat) (hf : ∀ s, (f s).length = w) (n k : Nat) (hk : k < n)
    (r : List Byte) : (((List.range n).flatMap f ++ r).drop (w * k)).take w = f k := by
  induction n generalizing k r with
  | zero => omega
  | succ n ih =>
    have hl : ((List.range n).flatMap f).length = w * n := by
      simp [List.length_flatMap, hf, Nat.mul_comm]
    rw [List.range_succ, List.flatMap_append, List.append_assoc]
    rcases Nat.lt_or_ge k n with hlt | hge
    · exact ih k hlt _
    · obtain rfl : k = n := by omega
      rw [List.drop_append, List.drop_eq_nil_of_le (by omega), hl]
      simp [hf]

/-- Physical sector `s` of an encoded track. -/
theorem sector_of_enctrack (cfg : Config) (data : List Byte) (volume track : Byte) (order : Order) (s : Nat) (hs : s < 16) :
    ((enctrack cfg data volume track order).drop (383 * s)).take 383 = encSector cfg data volume track order s :=
  take_drop_flatMap_range _ 383 (by simp) 16 s hs _

/-! ### The laws of R133 -/

/-- A byte comes back from its high bits and from the place `q` of its slot that its low bits were folded to. -/
theorem joinByte_of_fold (a b c d : Byte) (q : Nat) (hq : q < 3) (hd : d = if q = 0 then c else if q = 1 then b else a) :
    (((d >>> 2).setWidth 6).setWidth 8 <<< 2 |||
      (swap2 (((((foldBits a <<< 2 ||| foldBits b) <<< 2) ||| foldBits c) >>> (2 * q)).setWidth 2)).setWidth 8 : Byte) = d := by
  have h0 : ∀ x y z : BitVec 2,
    (((((x.setWidth 6 : Six) <<< 2 ||| y.setWidth 6) <<< 2) ||| z.setWidth 6) >>> 0).setWidth 2 = z := by decide
  have h1 : ∀ x y z : BitVec 2,
    (((((x.setWidth 6 : Six) <<< 2 ||| y.setWidth 6) <<< 2) ||| z.setWidth 6) >>> 2).setWidth 2 = y := by decide
  have h2 : ∀ x y z : BitVec 2,
    (((((x.setWidth 6 : Six) <<< 2 ||| y.setWidth 6) <<< 2) ||| z.setWidth 6) >>> 4).setWidth 2 = x := by decide
  have h3 : ∀ d : Byte,
    (((d >>> 2).setWidth 6).setWidth 8 <<< 2 ||| (swap2 (swap2 (d.setWidth 2))).setWidth 8 : Byte) = d := by decide +kernel
  unfold foldBits
  interval_cases q <;> simp only [if_true, Nat.one_ne_zero, if_false, OfNat.ofNat_ne_zero, Nat.reduceEqDiff] at hd <;>
    subst hd <;> simp only [Nat.mul_zero, Nat.mul_one, Nat.reduceMul, h0, h1, h2, h3]

/-- R133 (b). -/
theorem join62_split (b : List Byte) (hb : b.length = 256) : join62 (splitHigh b) (splitLow b) = b := by
  apply List.ext_getElem
  · simp [hb]
  · intro i h1 h2
    have hi : i < 256 := by simpa using h1
    rw [← List.getD_eq_getElem _ 0#8 h1, ← List.getD_eq_getElem _ 0#8 h2,
      getD_join62 _ _ _ hi, joinByte, getD_splitHigh _ _ hi, getD_splitLow _ _ (by omega)]
    apply joinByte_of_fold _ _ _ _ _ (by omega)
    split_ifs with c1 c2 <;> congr 1 <;> omega

/-- R133 (c). -/
theorem rdaddr_wraddr (v t c : Byte) : rdaddr (wraddr v t c) = .address v t c := by
  rw [rdaddr, if_pos (addressOk_wraddr ..)]
  simp [field44, nibbleAt, wraddr, addressPrologue, enc44, dec44_enc44]

section
variable {cfg : Config}

/-- RDDATA of what WRDATA writes is JOIN62 of its operands. -/
theorem rddata_wrdata (h64 : cfg.gcr62.length = 64) (hd : cfg.gcr62.Nodup) {hi lo : List Six} (h1 : hi.length = 256)
    (h2 : lo.length = 86) : rddata cfg (wrdata cfg hi lo) = some (join62 hi lo) := by
  have e1 : ((wrdata cfg hi lo).drop 346).take 3 = epilogue := by
    unfold wrdata
    rw [List.drop_append, List.drop_eq_nil_of_le (by simp [h1, h2, dataPrologue])]
    simp [h1, h2, dataPrologue, epilogue]
  have e2 : ((wrdata cfg hi lo).drop 3).take 343 = chain cfg 0#6 (lo.reverse ++ hi) := by
    unfold wrdata
    rw [List.append_assoc]
    show ((chain cfg 0#6 (lo.reverse ++ hi)) ++ epilogue).take 343 = _
    rw [List.take_left' (by simp [h1, h2])]
  have e3 : fieldPlaintext cfg (wrdata cfg hi lo) = some (lo.reverse ++ hi ++ [0#6]) := by
    rw [fieldPlaintext, e2, chain_eq_map, mapM_inv62_map h64 hd]
    simp only [Option.map_some, unchain_chainValues]
  rw [rddata, e1, e3]
  simp only [show (wrdata cfg hi lo).take 3 = dataPrologue from rfl]
  simp [List.getD_eq_getElem?_getD, h1, h2]

/-- A part of a sector of an encoded track, cut from the track. -/
theorem field_of_enctrack (data : List Byte) (volume track : Byte) (order : Order) (s a n : Nat) (hs : s < 16) (h : a + n ≤ 383) :
    ((enctrack cfg data volume track order).drop (383 * s + a)).take n =
      ((encSector cfg data volume track order s).drop a).take n := by
  rw [← sector_of_enctrack cfg data volume track order s hs, List.drop_take, List.drop_drop, List.take_take,
    min_eq_left (by omega)]

/-- Every nibble of a sector has bit 7 set where every symbol has. -/
theorem bit7_of_encSector (h64 : cfg.gcr62.length = 64) (h7 : ∀ g ∈ cfg.gcr62, g.getLsbD 7 = true) (data : List Byte)
    (volume track : Byte) (order : Order) (s : Nat) (x : Byte) (hx : x ∈ encSector cfg data volume track order s) :
    x.getLsbD 7 = true := by
  have h44 : ∀ v, ∀ x ∈ enc44 v, x.getLsbD 7 = true := by
    intro v x hx
    simp only [enc44, List.mem_cons, List.not_mem_nil, or_false] at hx
    rcases hx with rfl | rfl <;> simp
  have hch : ∀ l last, ∀ x ∈ chain cfg last l, x.getLsbD 7 = true := by
    intro l last x hx
    rw [chain_eq_map] at hx
    obtain ⟨y, -, rfl⟩ := List.mem_map.mp hx
    exact h7 _ (gcr_mem h64 _)
  simp only [encSector, wraddr, wrdata, wrsync, List.mem_append, List.mem_replicate, addressPrologue, dataPrologue, epilogue,
    List.mem_cons, List.not_mem_nil, or_false] at hx
  rcases hx with ((⟨-, rfl⟩ | (((((hx | hx) | hx) | hx) | hx) | hx)) | ⟨-, rfl⟩) | ((hx | hx) | hx)
  case inl.inl.inr.inl.inl.inl.inl.inr | inl.inl.inr.inl.inl.inl.inr | inl.inl.inr.inl.inl.inr | inl.inl.inr.inl.inr =>
    exact h44 _ _ hx
  case inr.inl.inr => exact hch _ _ _ hx
  case inl.inl.inl | inl.inr => decide
  all_goals rcases hx with rfl | rfl | rfl <;> decide

/-- R133, for every table of 64 distinct symbols that have bit 7 set. -/
theorem codecLaws (h64 : cfg.gcr62.length = 64) (hd : cfg.gcr62.Nodup) (h7 : ∀ g ∈ cfg.gcr62, g.getLsbD 7 = true) :
    CodecLaws cfg where
  nibblePairs v := ⟨_, _, rfl, dec44_enc44 v⟩
  splitValues := join62_split
  addressFields := rdaddr_wraddr
  dataFields b hb := by rw [rddata_wrdata h64 hd (by simp) (by simp), join62_split b hb]
  tracks data v t order hl s hs := by
    refine ⟨?_, ?_⟩
    · rw [field_of_enctrack _ _ _ _ _ _ _ hs (by omega)]
      exact rdaddr_wraddr ..
    · have hb : (sectorData data ((interleave cfg order).getD s 0)).length = 256 := by
        simp only [sectorData, List.length_take, List.length_drop]
        omega
      rw [field_of_enctrack _ _ _ _ _ _ _ hs (by omega)]
      have e : ((encSector cfg data v t order s).drop 34).take 349 =
          wrdata cfg (splitHigh (sectorData data ((interleave cfg order).getD s 0)))
            (splitLow (sectorData data ((interleave cfg order).getD s 0))) := by
        unfold encSector
        rw [List.drop_append, List.drop_eq_nil_of_le (by simp [syncBeforeAddress, syncBeforeData])]
        simp only [List.length_append, length_wrsync, length_wraddr, syncBeforeAddress, syncBeforeData, List.nil_append]
        exact List.take_of_length_le (by simp)
      rw [e, rddata_wrdata h64 hd (by simp) (by simp), join62_split _ hb]
  structuredNibbles data v t order _ o ho := by
    have e : (enctrack cfg data v t order).getD o 0#8 = (encSectors cfg data v t order)[o]'(by simpa using ho) := by
      unfold enctrack padTrack
      rw [List.getD_eq_getElem?_getD, List.getElem?_append_left (by simpa using ho), List.getElem?_eq_getElem (by simpa using ho)]
      rfl
    rw [e]
    obtain ⟨p, -, hx⟩ := List.mem_flatMap.mp (List.getElem_mem (l := encSectors cfg data v t order) (n := o) (by simpa using ho))
    exact bit7_of_encSector h64 h7 data v t order p _ hx

end

/-- R133, with the spec's own symbol table (R68). -/
theorem codecLaws_standard : CodecLaws Config.standard := codecLaws (by decide) (by decide) (by decide)

end Sys2Proof.Machine
end

