-- ==== Sys2Proof/Laws/Memory.lean ====
section
/-! SUPPORT. The laws of the sparse memories: a read after a write, and that every memory operation keeps the canonical form. -/

namespace Sys2Proof.Machine

variable {u : Byte} {size : Nat}

@[simp] theorem memRead_nil (u : Byte) (a : Nat) : memRead u [] a = u := rfl

theorem memRead_cons (u : Byte) (c : Host.Cell) (m : Memory) (a : Nat) :
    memRead u (c :: m) a = if c.1 = a then c.2 else memRead u m a := rfl

/-- Below every listed address a memory reads as unlisted. -/
theorem memRead_of_forall_lt {m : Memory} {a : Nat} (h : ∀ c ∈ m, a < c.1) : memRead u m a = u := by
  induction m with
  | nil => rfl
  | cons c m ih =>
    rw [memRead_cons, if_neg (by have := h c (by simp); omega), ih (fun d hd => h d (by simp [hd]))]

/-- A write leaves every other address alone, in any memory. -/
theorem memRead_memWrite_of_ne {m : Memory} {a b : Nat} (v : Byte) (h : b ≠ a) :
    memRead u (memWrite u m a v) b = memRead u m b := by
  induction m with
  | nil => by_cases hv : v = u <;> simp [memWrite, hv, memRead_cons, Ne.symm h]
  | cons c m ih =>
    rw [memWrite]
    split_ifs with h1 h2 h3 h4 <;> simp_all [memRead_cons, Ne.symm h]

/-- In a canonical memory a read after a write to the same place gives the value written. -/
theorem memRead_memWrite_self {m : Memory} (hm : m.Pairwise (fun p q => p.1 < q.1)) (a : Nat) (v : Byte) :
    memRead u (memWrite u m a v) a = v := by
  induction m with
  | nil => by_cases hv : v = u <;> simp [memWrite, hv, memRead_cons]
  | cons c m ih =>
    obtain ⟨hc, hm'⟩ := List.pairwise_cons.mp hm
    rw [memWrite]
    split_ifs with h1 h2 h3 h4
    · subst h2
      exact memRead_of_forall_lt (by
        intro d hd
        rcases List.mem_cons.mp hd with rfl | hd
        · exact h1
        · exact lt_trans h1 (hc d hd))
    · simp [memRead_cons]
    · subst h4
      exact memRead_of_forall_lt (fun d hd => h3 ▸ hc d hd)
    · simp [memRead_cons]
    · rw [memRead_cons, if_neg h3, ih hm']

/-- Every cell of a written memory is the new one or was there before. -/
theorem mem_memWrite {m : Memory} {a : Nat} {v : Byte} {c : Host.Cell} (h : c ∈ memWrite u m a v) :
    (c = (a, v) ∧ v ≠ u) ∨ c ∈ m := by
  induction m with
  | nil =>
    rw [memWrite] at h
    split_ifs at h with hv
    · simp at h
    · exact .inl ⟨by simpa using h, hv⟩
  | cons d m ih =>
    rw [memWrite] at h
    split_ifs at h with h1 h2 h3 h4
    · exact .inr h
    · rcases List.mem_cons.mp h with rfl | h
      · exact .inl ⟨rfl, h2⟩
      · exact .inr h
    · exact .inr (List.mem_cons_of_mem _ h)
    · rcases List.mem_cons.mp h with rfl | h
      · exact .inl ⟨rfl, h4⟩
      · exact .inr (List.mem_cons_of_mem _ h)
    · rcases List.mem_cons.mp h with rfl | h
      · exact .inr (by simp)
      · exact (ih h).imp id (List.mem_cons_of_mem _)

/-- A write keeps the canonical form. -/
theorem memWrite_wf {m : Memory} {a : Nat} {v : Byte} (hm : Memory.wf u size m) (ha : a < size) :
    Memory.wf u size (memWrite u m a v) := by
  refine ⟨?_, fun c hc => ?_⟩
  · have hp := hm.1
    clear hm
    induction m with
    | nil => by_cases hv : v = u <;> simp [memWrite, hv]
    | cons d m ih =>
      obtain ⟨hd, hp'⟩ := List.pairwise_cons.mp hp
      rw [memWrite]
      split_ifs with h1 h2 h3 h4
      · exact hp
      · refine List.pairwise_cons.mpr ⟨fun c hc => ?_, hp⟩
        rcases List.mem_cons.mp hc with rfl | hc
        · exact h1
        · exact lt_trans h1 (hd c hc)
      · exact hp'
      · exact List.pairwise_cons.mpr ⟨fun c hc => h3 ▸ hd c hc, hp'⟩
      · refine List.pairwise_cons.mpr ⟨fun c hc => ?_, ih hp'⟩
        rcases mem_memWrite hc with ⟨rfl, -⟩ | hc
        · show d.1 < a
          omega
        · exact hd c hc
  · rcases mem_memWrite hc with ⟨rfl, hv⟩ | hc
    · exact ⟨ha, hv⟩
    · exact hm.2 c hc

/-- The addresses of a memory made from bytes lie in their range. -/
theorem mem_memOfBytes {a : Nat} {l : List Byte} {c : Host.Cell} (h : c ∈ memOfBytes u a l) :
    a ≤ c.1 ∧ c.1 < a + l.length ∧ c.2 ≠ u := by
  induction l generalizing a with
  | nil => simp [memOfBytes] at h
  | cons v l ih =>
    rw [memOfBytes] at h
    split_ifs at h with hv
    · obtain ⟨h1, h2, h3⟩ := ih h
      exact ⟨by omega, by simp; omega, h3⟩
    · rcases List.mem_cons.mp h with rfl | h
      · exact ⟨le_rfl, by simp, hv⟩
      · obtain ⟨h1, h2, h3⟩ := ih h
        exact ⟨by omega, by simp; omega, h3⟩

/-- A memory made from bytes is canonical. -/
theorem memOfBytes_wf {a : Nat} {l : List Byte} (h : a + l.length ≤ size) : Memory.wf u size (memOfBytes u a l) := by
  refine ⟨?_, fun c hc => ?_⟩
  · clear h
    induction l generalizing a with
    | nil => simp [memOfBytes]
    | cons v l ih =>
      rw [memOfBytes]
      split_ifs with hv
      · exact ih
      · exact List.pairwise_cons.mpr ⟨fun c hc => (mem_memOfBytes hc).1, ih⟩
  · obtain ⟨-, h2, h3⟩ := mem_memOfBytes hc
    exact ⟨by omega, h3⟩

/-- A memory made from bytes reads as those bytes and is unlisted beyond them. -/
theorem memRead_memOfBytes (a : Nat) (l : List Byte) (k : Nat) :
    memRead u (memOfBytes u a l) (a + k) = l.getD k u := by
  induction l generalizing a k with
  | nil => simp [memOfBytes]
  | cons v l ih =>
    rw [memOfBytes]
    cases k with
    | zero =>
      split_ifs with hv
      · rw [memRead_of_forall_lt]
        · simp [hv]
        · intro c hc
          have := (mem_memOfBytes hc).1
          omega
      · simp [memRead_cons]
    | succ k =>
      have h := ih (a + 1) k
      rw [show a + (k + 1) = a + 1 + k by omega]
      split_ifs with hv
      · simpa using h
      · rw [memRead_cons, if_neg (by show a ≠ _; omega), h]
        simp

/-! ### Track buffers -/

theorem trackKey_lt (t : TrackIndex) (o : Offset) : trackKey t o < driveBytes := by
  have := t.isLt
  have := o.isLt
  simp only [trackKey, driveBytes]
  omega

theorem trackKey_inj {t t' : TrackIndex} {o o' : Offset} (h : trackKey t o = trackKey t' o') : t = t' ∧ o = o' := by
  have := o.isLt
  have := o'.isLt
  simp only [trackKey] at h
  exact ⟨Fin.ext (by omega), Fin.ext (by omega)⟩

/-- `TrkWrite` leaves every other place alone (R42). -/
theorem trkRead_trkWrite_of_ne {m : Memory} {t t' : TrackIndex} {o o' : Offset} (v : Byte) (h : ¬(t' = t ∧ o' = o)) :
    trkRead (trkWrite m t o v) t' o' = trkRead m t' o' :=
  memRead_memWrite_of_ne v (fun e => h (trackKey_inj e))

/-- A byte stored by `TrkWrite` is returned by the next `TrkRead` of the place (R42, R51). -/
theorem trkRead_trkWrite_self {m : Memory} (hm : Memory.wf trackUnlisted driveBytes m) (t : TrackIndex) (o : Offset)
    (v : Byte) : trkRead (trkWrite m t o v) t o = v :=
  memRead_memWrite_self hm.1 _ _

/-- `TrkWrite` keeps the canonical form. -/
theorem trkWrite_wf {m : Memory} (hm : Memory.wf trackUnlisted driveBytes m) (t : TrackIndex) (o : Offset) (v : Byte) :
    Memory.wf trackUnlisted driveBytes (trkWrite m t o v) :=
  memWrite_wf hm (trackKey_lt t o)

/-- Replacing all buffers gives a canonical memory. -/
theorem trkWriteAll_wf {tracks : List (List Byte)} (h : tracks.flatten.length ≤ driveBytes) :
    Memory.wf trackUnlisted driveBytes (trkWriteAll tracks) :=
  memOfBytes_wf (by omega)

/-- What a replaced buffer reads as. -/
theorem trkRead_trkWriteAll (tracks : List (List Byte)) (t : TrackIndex) (o : Offset) :
    trkRead (trkWriteAll tracks) t o = tracks.flatten.getD (trackKey t o) trackUnlisted := by
  have h := memRead_memOfBytes (u := trackUnlisted) 0 tracks.flatten (trackKey t o)
  rwa [Nat.zero_add] at h

/-- Right after reset both track memories, and CPU memory, are in canonical form. -/
theorem reset_memories_wf : DiskLegal State.reset.disk ∧ InputsLegal State.reset.inp :=
  ⟨⟨⟨.nil, fun _ h => nomatch h⟩, .nil, fun _ h => nomatch h⟩, .nil, fun _ h => nomatch h⟩

end Sys2Proof.Machine
end

