-- ==== Sys2Proof/Laws/State.lean ====
section
/-! SUPPORT. One lemma per field per update, all true by unfolding, so that no proof unfolds a record update. -/

namespace Sys2Proof.Machine

/-! ### `returns` -/

@[simp] theorem returns_cfg (r : Result) (s : State) : (returns r s).cfg = s.cfg := rfl
@[simp] theorem returns_disk (r : Result) (s : State) : (returns r s).disk = s.disk := rfl
@[simp] theorem returns_spk (r : Result) (s : State) : (returns r s).spk = s.spk := rfl
@[simp] theorem returns_flips (r : Result) (s : State) : (returns r s).flips = s.flips := rfl
@[simp] theorem returns_pdl (r : Result) (s : State) : (returns r s).pdl = s.pdl := rfl
@[simp] theorem returns_inp (r : Result) (s : State) : (returns r s).inp = s.inp := rfl
@[simp] theorem returns_queue (r : Result) (s : State) : (returns r s).queue = s.queue := rfl
@[simp] theorem returns_result (r : Result) (s : State) : (returns r s).result = r := rfl
@[simp] theorem returns_sinkCalls (r : Result) (s : State) : (returns r s).sinkCalls = s.sinkCalls := rfl
@[simp] theorem returns_draws (r : Result) (s : State) : (returns r s).draws = s.draws := rfl

/-! ### `returnsNoise` -/

@[simp] theorem returnsNoise_cfg (s : State) : (returnsNoise s).cfg = s.cfg := rfl
@[simp] theorem returnsNoise_disk (s : State) : (returnsNoise s).disk = s.disk := rfl
@[simp] theorem returnsNoise_spk (s : State) : (returnsNoise s).spk = s.spk := rfl
@[simp] theorem returnsNoise_flips (s : State) : (returnsNoise s).flips = s.flips := rfl
@[simp] theorem returnsNoise_pdl (s : State) : (returnsNoise s).pdl = s.pdl := rfl
@[simp] theorem returnsNoise_inp (s : State) : (returnsNoise s).inp = s.inp := rfl
@[simp] theorem returnsNoise_queue (s : State) : (returnsNoise s).queue = s.queue := rfl
@[simp] theorem returnsNoise_result (s : State) : (returnsNoise s).result = .byte (Config.noise s.draws) := rfl
@[simp] theorem returnsNoise_sinkCalls (s : State) : (returnsNoise s).sinkCalls = s.sinkCalls := rfl
@[simp] theorem returnsNoise_draws (s : State) : (returnsNoise s).draws = s.draws + 1 := rfl

/-! ### `raise` -/

@[simp] theorem raise_cfg (c : Condition) (s : State) : (raise c s).cfg = s.cfg := rfl
@[simp] theorem raise_disk (c : Condition) (s : State) : (raise c s).disk = s.disk := rfl
@[simp] theorem raise_spk (c : Condition) (s : State) : (raise c s).spk = s.spk := rfl
@[simp] theorem raise_flips (c : Condition) (s : State) : (raise c s).flips = s.flips := rfl
@[simp] theorem raise_pdl (c : Condition) (s : State) : (raise c s).pdl = s.pdl := rfl
@[simp] theorem raise_inp (c : Condition) (s : State) : (raise c s).inp = s.inp := rfl
@[simp] theorem raise_queue (c : Condition) (s : State) : (raise c s).queue = s.queue := rfl
@[simp] theorem raise_result (c : Condition) (s : State) : (raise c s).result = .failed c := rfl
@[simp] theorem raise_sinkCalls (c : Condition) (s : State) : (raise c s).sinkCalls = s.sinkCalls := rfl
@[simp] theorem raise_draws (c : Condition) (s : State) : (raise c s).draws = s.draws := rfl

/-! ### `callSink` -/

@[simp] theorem callSink_cfg (c : SinkCall) (s : State) : (callSink c s).cfg = s.cfg := rfl
@[simp] theorem callSink_disk (c : SinkCall) (s : State) : (callSink c s).disk = s.disk := rfl
@[simp] theorem callSink_spk (c : SinkCall) (s : State) : (callSink c s).spk = s.spk := rfl
@[simp] theorem callSink_flips (c : SinkCall) (s : State) : (callSink c s).flips = s.flips := rfl
@[simp] theorem callSink_pdl (c : SinkCall) (s : State) : (callSink c s).pdl = s.pdl := rfl
@[simp] theorem callSink_inp (c : SinkCall) (s : State) : (callSink c s).inp = s.inp := rfl
@[simp] theorem callSink_queue (c : SinkCall) (s : State) : (callSink c s).queue = s.queue := rfl
@[simp] theorem callSink_result (c : SinkCall) (s : State) : (callSink c s).result = s.result := rfl
@[simp] theorem callSink_sinkCalls (c : SinkCall) (s : State) : (callSink c s).sinkCalls = s.sinkCalls ++ [c] := rfl
@[simp] theorem callSink_draws (c : SinkCall) (s : State) : (callSink c s).draws = s.draws := rfl

/-! ### `enqueueFirst` -/

@[simp] theorem enqueueFirst_cfg (s : State) (a : Access) : (enqueueFirst s a).cfg = s.cfg := rfl
@[simp] theorem enqueueFirst_disk (s : State) (a : Access) : (enqueueFirst s a).disk = s.disk := rfl
@[simp] theorem enqueueFirst_spk (s : State) (a : Access) : (enqueueFirst s a).spk = s.spk := rfl
@[simp] theorem enqueueFirst_flips (s : State) (a : Access) : (enqueueFirst s a).flips = s.flips := rfl
@[simp] theorem enqueueFirst_pdl (s : State) (a : Access) : (enqueueFirst s a).pdl = s.pdl := rfl
@[simp] theorem enqueueFirst_inp (s : State) (a : Access) : (enqueueFirst s a).inp = s.inp := rfl
@[simp] theorem enqueueFirst_queue (s : State) (a : Access) : (enqueueFirst s a).queue = { access := a, inputs := s.inp } :: s.queue := rfl
@[simp] theorem enqueueFirst_result (s : State) (a : Access) : (enqueueFirst s a).result = s.result := rfl
@[simp] theorem enqueueFirst_sinkCalls (s : State) (a : Access) : (enqueueFirst s a).sinkCalls = s.sinkCalls := rfl
@[simp] theorem enqueueFirst_draws (s : State) (a : Access) : (enqueueFirst s a).draws = s.draws := rfl

/-! ### `openSink` -/

@[simp] theorem openSink_cfg (n : Nat) (s : State) : (openSink n s).cfg = s.cfg := rfl
@[simp] theorem openSink_disk (n : Nat) (s : State) : (openSink n s).disk = s.disk := rfl
@[simp] theorem openSink_spk (n : Nat) (s : State) : (openSink n s).spk = { s.spk with cps := clocksPerSample s.cfg s.inp, bufSize := n, pcm := unspecifiedBytes s n, sinkOpen := true } := rfl
@[simp] theorem openSink_flips (n : Nat) (s : State) : (openSink n s).flips = s.flips := rfl
@[simp] theorem openSink_pdl (n : Nat) (s : State) : (openSink n s).pdl = s.pdl := rfl
@[simp] theorem openSink_inp (n : Nat) (s : State) : (openSink n s).inp = s.inp := rfl
@[simp] theorem openSink_queue (n : Nat) (s : State) : (openSink n s).queue = s.queue := rfl
@[simp] theorem openSink_result (n : Nat) (s : State) : (openSink n s).result = s.result := rfl
@[simp] theorem openSink_sinkCalls (n : Nat) (s : State) : (openSink n s).sinkCalls = s.sinkCalls := rfl
@[simp] theorem openSink_draws (n : Nat) (s : State) : (openSink n s).draws = s.draws + 1 := rfl

/-! ### `closeSink` -/

@[simp] theorem closeSink_cfg (s : State) : (closeSink s).cfg = s.cfg := by unfold closeSink; split <;> rfl
@[simp] theorem closeSink_disk (s : State) : (closeSink s).disk = s.disk := by unfold closeSink; split <;> rfl
@[simp] theorem closeSink_flips (s : State) : (closeSink s).flips = s.flips := by unfold closeSink; split <;> rfl
@[simp] theorem closeSink_pdl (s : State) : (closeSink s).pdl = s.pdl := by unfold closeSink; split <;> rfl
@[simp] theorem closeSink_inp (s : State) : (closeSink s).inp = s.inp := by unfold closeSink; split <;> rfl
@[simp] theorem closeSink_queue (s : State) : (closeSink s).queue = s.queue := by unfold closeSink; split <;> rfl
@[simp] theorem closeSink_result (s : State) : (closeSink s).result = s.result := by unfold closeSink; split <;> rfl
@[simp] theorem closeSink_draws (s : State) : (closeSink s).draws = s.draws := by unfold closeSink; split <;> rfl

@[simp] theorem closeSink_spk (s : State) : (closeSink s).spk = { s.spk with sinkOpen := false } := by
  unfold closeSink
  split
  · rfl
  · next h => rw [← Bool.eq_false_iff.mpr h]

theorem closeSink_sinkCalls (s : State) :
    (closeSink s).sinkCalls = s.sinkCalls ++ (if s.spk.sinkOpen then [SinkCall.closeAudio] else []) := by
  unfold closeSink
  split <;> simp_all

/-! ### Drives -/

@[simp] theorem driveState_d0 (k : Disk) : driveState k .d0 = k.d0 := rfl
@[simp] theorem driveState_d1 (k : Disk) : driveState k .d1 = k.d1 := rfl

@[simp] theorem setDriveState_drive (k : Disk) (d : Drive) (x : DriveState) : (setDriveState k d x).drive = k.drive := by cases d <;> rfl
@[simp] theorem setDriveState_phases (k : Disk) (d : Drive) (x : DriveState) : (setDriveState k d x).phases = k.phases := by cases d <;> rfl
@[simp] theorem setDriveState_motorOn (k : Disk) (d : Drive) (x : DriveState) : (setDriveState k d x).motorOn = k.motorOn := by cases d <;> rfl
@[simp] theorem setDriveState_latch (k : Disk) (d : Drive) (x : DriveState) : (setDriveState k d x).latch = k.latch := by cases d <;> rfl
@[simp] theorem setDriveState_writeMode (k : Disk) (d : Drive) (x : DriveState) : (setDriveState k d x).writeMode = k.writeMode := by cases d <;> rfl
@[simp] theorem setDriveState_loadMode (k : Disk) (d : Drive) (x : DriveState) : (setDriveState k d x).loadMode = k.loadMode := by cases d <;> rfl
@[simp] theorem setDriveState_off (k : Disk) (d : Drive) (x : DriveState) : (setDriveState k d x).off = k.off := by cases d <;> rfl
@[simp] theorem setDriveState_spin (k : Disk) (d : Drive) (x : DriveState) : (setDriveState k d x).spin = k.spin := by cases d <;> rfl

@[simp] theorem driveState_setDriveState_self (k : Disk) (d : Drive) (x : DriveState) :
    driveState (setDriveState k d x) d = x := by cases d <;> rfl

theorem driveState_setDriveState_of_ne (k : Disk) {d e : Drive} (x : DriveState) (h : e ≠ d) :
    driveState (setDriveState k d x) e = driveState k e := by
  cases d <;> cases e <;> first | rfl | exact absurd rfl h

theorem driveState_setDriveState (k : Disk) (d e : Drive) (x : DriveState) :
    driveState (setDriveState k d x) e = if e = d then x else driveState k e := by
  cases d <;> cases e <;> rfl

@[simp] theorem activeDrive_setDriveState (k : Disk) (x : DriveState) : activeDrive (setDriveState k k.drive x) = x := by
  simp [activeDrive]

/-! ### The controller's updates -/

@[simp] theorem writeLatch_drive (v : Byte) (k : Disk) : (writeLatch v k).drive = k.drive := rfl
@[simp] theorem writeLatch_phases (v : Byte) (k : Disk) : (writeLatch v k).phases = k.phases := rfl
@[simp] theorem writeLatch_motorOn (v : Byte) (k : Disk) : (writeLatch v k).motorOn = k.motorOn := rfl
@[simp] theorem writeLatch_writeMode (v : Byte) (k : Disk) : (writeLatch v k).writeMode = k.writeMode := rfl
@[simp] theorem writeLatch_loadMode (v : Byte) (k : Disk) : (writeLatch v k).loadMode = k.loadMode := rfl
@[simp] theorem writeLatch_off (v : Byte) (k : Disk) : (writeLatch v k).off = k.off := rfl
@[simp] theorem writeLatch_spin (v : Byte) (k : Disk) : (writeLatch v k).spin = k.spin := rfl
@[simp] theorem writeLatch_d0 (v : Byte) (k : Disk) : (writeLatch v k).d0 = k.d0 := rfl
@[simp] theorem writeLatch_d1 (v : Byte) (k : Disk) : (writeLatch v k).d1 = k.d1 := rfl
@[simp] theorem writeLatch_latch (v : Byte) (k : Disk) :
    (writeLatch v k).latch = if writeLatchOpen k then v else k.latch := rfl

@[simp] theorem driveState_writeLatch (v : Byte) (k : Disk) (d : Drive) :
    driveState (writeLatch v k) d = driveState k d := by cases d <;> rfl

@[simp] theorem stepper_drive (k : Disk) : (stepper k).drive = k.drive := by simp [stepper]
@[simp] theorem stepper_phases (k : Disk) : (stepper k).phases = k.phases := by simp [stepper]
@[simp] theorem stepper_motorOn (k : Disk) : (stepper k).motorOn = k.motorOn := by simp [stepper]
@[simp] theorem stepper_latch (k : Disk) : (stepper k).latch = k.latch := by simp [stepper]
@[simp] theorem stepper_writeMode (k : Disk) : (stepper k).writeMode = k.writeMode := by simp [stepper]
@[simp] theorem stepper_loadMode (k : Disk) : (stepper k).loadMode = k.loadMode := by simp [stepper]
@[simp] theorem stepper_off (k : Disk) : (stepper k).off = k.off := by simp [stepper]
@[simp] theorem stepper_spin (k : Disk) : (stepper k).spin = k.spin := by simp [stepper]

/-- What the stepper leaves of each drive: only the position of the selected one moves (R166). -/
theorem driveState_stepper (k : Disk) (d : Drive) :
    driveState (stepper k) d =
      if d = k.drive then
        { driveState k d with
          pos := clampPos (((driveState k d).pos.val : Int) + stepDirection k.phases (driveState k d).pos) }
      else driveState k d := by
  simp only [stepper, driveState_setDriveState]
  split_ifs with h
  · subst h; rfl
  · rfl

/-! ### The speaker's updates -/

@[simp] theorem pcmWrite_volume (k : Speaker) (i : Nat) (b : Byte) : (pcmWrite k i b).volume = k.volume := rfl
@[simp] theorem pcmWrite_ringRd (k : Speaker) (i : Nat) (b : Byte) : (pcmWrite k i b).ringRd = k.ringRd := rfl
@[simp] theorem pcmWrite_level (k : Speaker) (i : Nat) (b : Byte) : (pcmWrite k i b).level = k.level := rfl
@[simp] theorem pcmWrite_cps (k : Speaker) (i : Nat) (b : Byte) : (pcmWrite k i b).cps = k.cps := rfl
@[simp] theorem pcmWrite_sclk (k : Speaker) (i : Nat) (b : Byte) : (pcmWrite k i b).sclk = k.sclk := rfl
@[simp] theorem pcmWrite_bufSize (k : Speaker) (i : Nat) (b : Byte) : (pcmWrite k i b).bufSize = k.bufSize := rfl
@[simp] theorem pcmWrite_sinkOpen (k : Speaker) (i : Nat) (b : Byte) : (pcmWrite k i b).sinkOpen = k.sinkOpen := rfl
@[simp] theorem pcmWrite_pcm (k : Speaker) (i : Nat) (b : Byte) : (pcmWrite k i b).pcm = k.pcm.set i b := rfl

@[simp] theorem emit_volume (n : Nat) (k : Speaker) : (emit n k).volume = k.volume := rfl
@[simp] theorem emit_ringRd (n : Nat) (k : Speaker) : (emit n k).ringRd = k.ringRd := rfl
@[simp] theorem emit_level (n : Nat) (k : Speaker) : (emit n k).level = k.level := rfl
@[simp] theorem emit_cps (n : Nat) (k : Speaker) : (emit n k).cps = k.cps := rfl
@[simp] theorem emit_sclk (n : Nat) (k : Speaker) : (emit n k).sclk = k.sclk := rfl
@[simp] theorem emit_bufSize (n : Nat) (k : Speaker) : (emit n k).bufSize = k.bufSize := rfl
@[simp] theorem emit_sinkOpen (n : Nat) (k : Speaker) : (emit n k).sinkOpen = k.sinkOpen := rfl
@[simp] theorem emit_pcm (n : Nat) (k : Speaker) :
    (emit n k).pcm =
      (k.pcm.set n ((sample k.level k.volume).setWidth 8)).set (n + 1) ((sample k.level k.volume >>> 8).setWidth 8) := rfl

end Sys2Proof.Machine
end

