-- ==== Sys2Proof/Laws/Controller.lean ====
section
/-! SUPPORT. What each operation of the controller can do, said once: the stepper, the scans, the shift/latch cycle. -/

namespace Sys2Proof.Machine

/-! ### The stepper (R166) -/

theorem clampPos_val (z : Int) : ((clampPos z).val : Int) = max 0 (min z 69) := by
  show (((max 0 (min z 69)).toNat : Nat) : Int) = _
  rw [Int.toNat_of_nonneg (by omega)]

/-- `dir` as a difference of two bits. -/
theorem stepDirection_eq (phases : BitVec 4) (p : HalfTrack) :
    stepDirection phases p =
      ((phases.getLsbD ((p.val + 1) % 4)).toNat : Int) - ((phases.getLsbD ((p.val + 3) % 4)).toNat : Int) := by
  unfold stepDirection magnet
  cases phases.getLsbD ((p.val + 1) % 4) <;> cases phases.getLsbD ((p.val + 3) % 4) <;> rfl

/-- A position moves by one at most, and towards the one neighbour magnet that is on alone. -/
theorem clampPos_step (phases : BitVec 4) (p : HalfTrack) :
    (clampPos ((p.val : Int) + stepDirection phases p)).val = p.val ∨
    ((clampPos ((p.val : Int) + stepDirection phases p)).val = p.val + 1 ∧
      phases.getLsbD ((p.val + 1) % 4) = true ∧ phases.getLsbD ((p.val + 3) % 4) = false) ∨
    (p.val = (clampPos ((p.val : Int) + stepDirection phases p)).val + 1 ∧
      phases.getLsbD ((p.val + 1) % 4) = false ∧ phases.getLsbD ((p.val + 3) % 4) = true) := by
  have h := clampPos_val ((p.val : Int) + stepDirection phases p)
  have hp := p.isLt
  revert h
  rw [stepDirection_eq]
  cases phases.getLsbD ((p.val + 1) % 4) <;> cases phases.getLsbD ((p.val + 3) % 4) <;>
    simp only [Bool.toNat_false, Bool.toNat_true, Nat.cast_zero, Nat.cast_one] <;> intro h
  · left; omega
  · by_cases h0 : p.val = 0
    · left; omega
    · right; right; exact ⟨by omega, trivial, trivial⟩
  · by_cases h0 : p.val = 69
    · left; omega
    · right; left; exact ⟨by omega, trivial, trivial⟩
  · left; omega

/-! ### The offset and the head -/

/-- The offset `j` places after `o`. -/
def offsetAfter (o : Offset) (j : Nat) : Offset := ⟨(o.val + j) % 6656, Nat.mod_lt _ (by decide)⟩

@[simp] theorem offsetAfter_zero (o : Offset) : offsetAfter o 0 = o := by
  apply Fin.ext
  show (o.val + 0) % 6656 = o.val
  have := o.isLt
  omega

theorem offsetAfter_nextOffset (o : Offset) (j : Nat) : offsetAfter (nextOffset o) j = offsetAfter o (j + 1) := by
  apply Fin.ext
  show ((o.val + 1) % 6656 + j) % 6656 = (o.val + (j + 1)) % 6656
  omega

theorem nextOffset_offsetAfter (o : Offset) (j : Nat) : nextOffset (offsetAfter o j) = offsetAfter o (j + 1) := by
  apply Fin.ext
  show ((o.val + j) % 6656 + 1) % 6656 = (o.val + (j + 1)) % 6656
  omega

/-- A byte under the head as a byte of the drive's memory (R21, R41). -/
theorem headRead_eq (k : Disk) (o : Offset) :
    headRead k o = memRead trackUnlisted (activeDrive k).trk (6656 * ((activeDrive k).pos.val / 2) + o.val) := by
  show memRead trackUnlisted (activeDrive k).trk (6656 * ((activeDrive k).pos.val >>> 1) + o.val) = _
  rw [Nat.shiftRight_eq_div_pow]

/-! ### The scans (R171, R172) -/

/-- A scan that starts at the byte under the head stops at the first wanted byte, or after `steps` steps without one. -/
theorem scan_spec (wanted : Byte → Bool) (read : Offset → Byte) (steps : Nat) (o : Offset) :
    ∃ j ≤ steps, (∀ i < j, wanted (read (offsetAfter o i)) = false) ∧
      (j < steps → wanted (read (offsetAfter o j)) = true) ∧
      scan wanted read steps (read o) o = (read (offsetAfter o j), offsetAfter o j) := by
  induction steps generalizing o with
  | zero => exact ⟨0, le_rfl, by simp, by simp, by simp [scan]⟩
  | succ steps ih =>
    by_cases hw : wanted (read o) = true
    · exact ⟨0, by omega, by simp, by simpa using hw, by simp [scan, hw]⟩
    · obtain ⟨j, hj, h1, h2, h3⟩ := ih (nextOffset o)
      rw [offsetAfter_nextOffset] at h2 h3
      refine ⟨j + 1, by omega, ?_, fun h => h2 (by omega), by rw [scan, if_neg hw, h3]⟩
      rintro (_ | i) hi
      · simpa using hw
      · rw [← offsetAfter_nextOffset]
        exact h1 i (by omega)

/-- What a read-mode cycle reads and where it ends, for either scan. -/
theorem readHead_spec (poll : Bool) (k : Disk) :
    ∃ j ≤ scanBound,
      (∀ i < j, (if poll then isPrologue else isNotPad) (headRead k (offsetAfter k.off i)) = false) ∧
      (j < scanBound → (if poll then isPrologue else isNotPad) (headRead k (offsetAfter k.off j)) = true) ∧
      readHead poll k = (headRead k (offsetAfter k.off j), offsetAfter k.off j) := by
  rw [readHead]
  generalize scanBound = steps
  cases poll
  · simpa only [Bool.false_eq_true, if_false] using scan_spec isNotPad (headRead k) steps k.off
  · simpa only [if_true] using scan_spec isPrologue (headRead k) steps k.off

/-- A read looks at the drive, the tracks, the positions and the offset alone. -/
theorem readHead_of_modes (poll : Bool) (k : Disk) (l : Bool) (x : BitVec 4) :
    readHead poll { k with loadMode := l, spin := x } = readHead poll k := rfl

/-! ### The shift/latch cycle (R168) -/

/-- In write mode the cycle stores and advances. -/
theorem shiftCycle_of_writeMode {poll : Bool} {k : Disk} (h : k.writeMode = true) :
    shiftCycle poll k = storeCycle { k with loadMode := false } := by
  simp [shiftCycle, h]

/-- In read mode with the motor on it reads, scans and advances. -/
theorem shiftCycle_of_motorOn {poll : Bool} {k : Disk} (h : k.writeMode = false) (hm : k.motorOn = true) :
    shiftCycle poll k = readCycle poll { k with loadMode := false } := by
  simp [shiftCycle, h, hm]

/-- In read mode with the motor off the spin counter comes first (R169). -/
theorem shiftCycle_of_motorOff {poll : Bool} {k : Disk} (h : k.writeMode = false) (hm : k.motorOn = false) :
    shiftCycle poll k =
      if k.spin + 1#4 = 0#4 then { k with loadMode := false, spin := k.spin + 1#4, latch := padNibble }
      else readCycle poll { k with loadMode := false, spin := k.spin + 1#4 } := by
  simp [shiftCycle, h, hm, spun]

@[simp] theorem readCycle_drive (p : Bool) (k : Disk) : (readCycle p k).drive = k.drive := rfl
@[simp] theorem readCycle_phases (p : Bool) (k : Disk) : (readCycle p k).phases = k.phases := rfl
@[simp] theorem readCycle_motorOn (p : Bool) (k : Disk) : (readCycle p k).motorOn = k.motorOn := rfl
@[simp] theorem readCycle_writeMode (p : Bool) (k : Disk) : (readCycle p k).writeMode = k.writeMode := rfl
@[simp] theorem readCycle_loadMode (p : Bool) (k : Disk) : (readCycle p k).loadMode = k.loadMode := rfl
@[simp] theorem readCycle_spin (p : Bool) (k : Disk) : (readCycle p k).spin = k.spin := rfl
@[simp] theorem readCycle_d0 (p : Bool) (k : Disk) : (readCycle p k).d0 = k.d0 := rfl
@[simp] theorem readCycle_d1 (p : Bool) (k : Disk) : (readCycle p k).d1 = k.d1 := rfl

@[simp] theorem storeCycle_drive (k : Disk) : (storeCycle k).drive = k.drive := by simp [storeCycle, headWrite]
@[simp] theorem storeCycle_phases (k : Disk) : (storeCycle k).phases = k.phases := by simp [storeCycle, headWrite]
@[simp] theorem storeCycle_motorOn (k : Disk) : (storeCycle k).motorOn = k.motorOn := by simp [storeCycle, headWrite]
@[simp] theorem storeCycle_writeMode (k : Disk) : (storeCycle k).writeMode = k.writeMode := by simp [storeCycle, headWrite]
@[simp] theorem storeCycle_loadMode (k : Disk) : (storeCycle k).loadMode = k.loadMode := by simp [storeCycle, headWrite]
@[simp] theorem storeCycle_spin (k : Disk) : (storeCycle k).spin = k.spin := by simp [storeCycle, headWrite]
@[simp] theorem storeCycle_latch (k : Disk) : (storeCycle k).latch = k.latch := by simp [storeCycle, headWrite]
@[simp] theorem storeCycle_off (k : Disk) : (storeCycle k).off = nextOffset k.off := by simp [storeCycle, headWrite]

/-- What a store leaves of each drive: one byte of the selected one (R173). -/
theorem driveState_storeCycle (k : Disk) (d : Drive) :
    driveState (storeCycle k) d =
      if d = k.drive then
        { driveState k d with trk := trkWrite (driveState k d).trk (trackOf (driveState k d).pos) k.off k.latch }
      else driveState k d := by
  have h : driveState (storeCycle k) d = driveState (headWrite k k.off k.latch) d := by cases d <;> rfl
  rw [h, headWrite, driveState_setDriveState]
  split_ifs with hd
  · subst hd; rfl
  · rfl

/-- The four ways a cycle can go. -/
theorem shiftCycle_cases (p : Bool) (k : Disk) :
    (k.writeMode = true ∧ shiftCycle p k = storeCycle { k with loadMode := false }) ∨
    (k.writeMode = false ∧ k.motorOn = true ∧ shiftCycle p k = readCycle p { k with loadMode := false }) ∨
    (k.writeMode = false ∧ k.motorOn = false ∧ k.spin + 1#4 = 0#4 ∧
      shiftCycle p k = { k with loadMode := false, spin := k.spin + 1#4, latch := padNibble }) ∨
    (k.writeMode = false ∧ k.motorOn = false ∧ k.spin + 1#4 ≠ 0#4 ∧
      shiftCycle p k = readCycle p { k with loadMode := false, spin := k.spin + 1#4 }) := by
  rcases Bool.eq_false_or_eq_true k.writeMode with hw | hw
  · exact .inl ⟨hw, shiftCycle_of_writeMode hw⟩
  rcases Bool.eq_false_or_eq_true k.motorOn with hm | hm
  · exact .inr (.inl ⟨hw, hm, shiftCycle_of_motorOn hw hm⟩)
  have h := shiftCycle_of_motorOff (poll := p) hw hm
  by_cases h0 : k.spin + 1#4 = 0#4
  · rw [if_pos h0] at h
    exact .inr (.inr (.inl ⟨hw, hm, h0, h⟩))
  · rw [if_neg h0] at h
    exact .inr (.inr (.inr ⟨hw, hm, h0, h⟩))

@[simp] theorem shiftCycle_drive (p : Bool) (k : Disk) : (shiftCycle p k).drive = k.drive := by
  rcases shiftCycle_cases p k with h | h | h | h <;> simp [h]
@[simp] theorem shiftCycle_phases (p : Bool) (k : Disk) : (shiftCycle p k).phases = k.phases := by
  rcases shiftCycle_cases p k with h | h | h | h <;> simp [h]
@[simp] theorem shiftCycle_motorOn (p : Bool) (k : Disk) : (shiftCycle p k).motorOn = k.motorOn := by
  rcases shiftCycle_cases p k with h | h | h | h <;> simp [h]
@[simp] theorem shiftCycle_writeMode (p : Bool) (k : Disk) : (shiftCycle p k).writeMode = k.writeMode := by
  rcases shiftCycle_cases p k with h | h | h | h <;> simp [h]
@[simp] theorem shiftCycle_loadMode (p : Bool) (k : Disk) : (shiftCycle p k).loadMode = false := by
  rcases shiftCycle_cases p k with h | h | h | h <;> simp [h]

/-- After a cycle the write-latch rule loads nothing, because load mode is cleared (R162, R165). -/
@[simp] theorem writeLatch_shiftCycle (v : Byte) (p : Bool) (k : Disk) :
    writeLatch v (shiftCycle p k) = shiftCycle p k := by
  have h : writeLatchOpen (shiftCycle p k) = false := by simp [writeLatchOpen]
  unfold writeLatch
  rw [h]
  rfl

/-- What a cycle leaves of each drive: in write mode one byte of the selected one, in read mode everything. -/
theorem driveState_shiftCycle (p : Bool) (k : Disk) (d : Drive) :
    driveState (shiftCycle p k) d =
      if k.writeMode = true ∧ d = k.drive then
        { driveState k d with trk := trkWrite (driveState k d).trk (trackOf (driveState k d).pos) k.off k.latch }
      else driveState k d := by
  by_cases hw : k.writeMode = true
  · rw [shiftCycle_of_writeMode hw, driveState_storeCycle]
    simp only [hw, true_and]
    cases d <;> rfl
  · have hf : k.writeMode = false := by simpa using hw
    rw [if_neg (fun h => hw h.1)]
    cases hm : k.motorOn
    · rw [shiftCycle_of_motorOff hf hm]
      split_ifs <;> cases d <;> rfl
    · rw [shiftCycle_of_motorOn hf hm]
      cases d <;> rfl

/-! ### The write-protect sense (R163) -/

@[simp] theorem senseProtect_drive (k : Disk) : (senseProtect k).drive = k.drive := by unfold senseProtect; split <;> rfl
@[simp] theorem senseProtect_phases (k : Disk) : (senseProtect k).phases = k.phases := by unfold senseProtect; split <;> rfl
@[simp] theorem senseProtect_motorOn (k : Disk) : (senseProtect k).motorOn = k.motorOn := by unfold senseProtect; split <;> rfl
@[simp] theorem senseProtect_writeMode (k : Disk) : (senseProtect k).writeMode = k.writeMode := by unfold senseProtect; split <;> rfl
@[simp] theorem senseProtect_loadMode (k : Disk) : (senseProtect k).loadMode = k.loadMode := by unfold senseProtect; split <;> rfl
@[simp] theorem senseProtect_off (k : Disk) : (senseProtect k).off = k.off := by unfold senseProtect; split <;> rfl
@[simp] theorem senseProtect_spin (k : Disk) : (senseProtect k).spin = k.spin := by unfold senseProtect; split <;> rfl
@[simp] theorem senseProtect_d0 (k : Disk) : (senseProtect k).d0 = k.d0 := by unfold senseProtect; split <;> rfl
@[simp] theorem senseProtect_d1 (k : Disk) : (senseProtect k).d1 = k.d1 := by unfold senseProtect; split <;> rfl

/-- Bit by bit, what the sense leaves in the latch. -/
theorem senseProtect_latch_getLsbD (k : Disk) (h : senseEnabled k = true) (b : Nat) (hb : b < 8) :
    (senseProtect k).latch.getLsbD b = if b = 7 then (activeDrive k).wp else k.latch.getLsbD b := by
  simp only [senseProtect, h, if_true]
  cases (activeDrive k).wp <;> interval_cases b <;> simp

theorem senseProtect_of_disabled (k : Disk) (h : senseEnabled k = false) : senseProtect k = k := by
  simp [senseProtect, h]

end Sys2Proof.Machine
end

