-- ==== Sys2Proof/Laws/Decode.lean ====
section
/-! SUPPORT. The laws of the operand readers: each gives back what its writer wrote, and lists come out with their lengths. -/

namespace Sys2Proof

/-! ### Reading what was written -/

@[simp] theorem operand_ok {α β : Type} (x : α) (r : List Byte) (f : α → List Byte → Parsed β) :
    operand (.ok (x, r)) f = f x r := rfl

@[simp] theorem operand_error {α β : Type} (e : DecodeError) (f : α → List Byte → Parsed β) :
    operand (.error e) f = .error e := rfl

/-- An operand that was read, and what came of it. -/
theorem operand_eq_ok {α β : Type} {p : Parsed α} {f : α → List Byte → Parsed β} {y : β × List Byte}
    (h : operand p f = .ok y) : ∃ x r, p = .ok (x, r) ∧ f x r = .ok y := by
  match p, h with
  | .ok (x, r), h => exact ⟨x, r, rfl, h⟩
  | .error e, h => exact absurd h (by simp)

@[simp] theorem takeByte_putByte (b : Byte) (r : List Byte) : takeByte (putByte b ++ r) = .ok (b, r) := rfl

theorem takeBytes_append {n : Nat} {l : List Byte} (h : l.length = n) (r : List Byte) :
    takeBytes n (l ++ r) = .ok (l, r) := by
  subst h
  simp [takeBytes]

theorem takeBytes_putBytes {n : Nat} {l : List Byte} (h : l.length = n) (r : List Byte) :
    takeBytes n (putBytes l ++ r) = .ok (l, r) := takeBytes_append h r

theorem takeNat_putNatFuel {fuel n : Nat} (h : n ≤ fuel) (r : List Byte) :
    takeNat (putNatFuel fuel n ++ r) = .ok (n, r) := by
  induction fuel generalizing n with
  | zero => simp [show n = 0 by omega, putNatFuel, takeNat]
  | succ fuel ih =>
    by_cases hn : n < 128
    · have : (BitVec.ofNat 8 n).toNat = n := by simp; omega
      simp [putNatFuel, takeNat, hn, Nat.mod_eq_of_lt (show n < 256 by omega)]
    · have : (128 + n % 128) % 256 = 128 + n % 128 := by omega
      simp [putNatFuel, takeNat, hn, this, ih (show n / 128 ≤ fuel by omega)]
      omega

@[simp] theorem takeNat_putNat (n : Nat) (r : List Byte) : takeNat (putNat n ++ r) = .ok (n, r) :=
  takeNat_putNatFuel le_rfl r

@[simp] theorem takeBool_putBool (p : Bool) (r : List Byte) : takeBool (putBool p ++ r) = .ok (p, r) := by
  cases p <;> rfl

@[simp] theorem takeWpRequest_putBool (p : Bool) (r : List Byte) : takeWpRequest (putBool p ++ r) = .ok (p, r) := by
  cases p <;> rfl

@[simp] theorem takeWpRequest_nil : takeWpRequest [] = .ok (false, []) := rfl

@[simp] theorem takeDrive_putDrive (d : Drive) (r : List Byte) : takeDrive (putDrive d ++ r) = .ok (d, r) := by
  cases d <;> rfl

@[simp] theorem takeOrder_putOrder (o : Order) (r : List Byte) : takeOrder (putOrder o ++ r) = .ok (o, r) := by
  cases o <;> rfl

@[simp] theorem takeHint_putHint (h : Hint) (r : List Byte) : takeHint (putHint h ++ r) = .ok (h, r) := by
  cases h <;> rfl

@[simp] theorem takeStream_putStream (l r : List Byte) : takeStream (putStream l ++ r) = .ok (l, r) := by
  simp [takeStream, putStream, List.append_assoc, takeBytes_append]

@[simp] theorem takeClock_putClock (c : Clock) (r : List Byte) : takeClock (putClock c ++ r) = .ok (c, r) := by
  have h1 : ((c.setWidth 32).extractLsb' 24 8).toNat < 128 := by
    have := c.isLt
    simp [BitVec.extractLsb'_toNat, Nat.shiftRight_eq_div_pow]
    omega
  have h2 : ((((c.setWidth 32).extractLsb' 24 8 ++ (c.setWidth 32).extractLsb' 16 8) ++
      ((c.setWidth 32).extractLsb' 8 8 ++ (c.setWidth 32).extractLsb' 0 8)).setWidth 31) = c := by
    ext i hi
    simp only [BitVec.getElem_setWidth, BitVec.getLsbD_append, BitVec.getLsbD_extractLsb', BitVec.getLsbD_setWidth]
    rcases Nat.lt_or_ge i 8 with h | h
    · simp [h, show i < 16 by omega, show i < 32 by omega, hi]
    rcases Nat.lt_or_ge i 16 with h' | h'
    · simp [h', show ¬ i < 8 by omega, show i - 8 < 8 by omega, show 8 + (i - 8) = i by omega, show i < 32 by omega, hi]
    rcases Nat.lt_or_ge i 24 with h'' | h''
    · simp [show ¬ i < 16 by omega, show i - 16 < 8 by omega, show 16 + (i - 16) = i by omega, show i < 32 by omega, hi]
    · simp [show ¬ i < 16 by omega, show ¬ i - 16 < 8 by omega, show i - 16 - 8 < 8 by omega,
        show 24 + (i - 16 - 8) = i by omega, show i < 32 by omega, hi]
  show (if ((c.setWidth 32).extractLsb' 24 8).toNat < 128 then _ else _) = _
  rw [if_pos h1, h2]
  rfl

theorem takeSixes_putSixes {n : Nat} {l : List Six} (h : l.length = n) (r : List Byte) :
    takeSixes n (putSixes l ++ r) = .ok (l, r) := by
  have h1 : (l.map (fun x => x.setWidth 8)).all (fun b : Byte => b.toNat < 64) = true := by
    simp only [List.all_eq_true, List.mem_map]
    rintro b ⟨x, -, rfl⟩
    have := x.isLt
    simp
    omega
  have h2 : (l.map (fun x => x.setWidth 8)).map (fun b : Byte => b.setWidth 6) = l := by
    rw [List.map_map]
    conv_rhs => rw [← List.map_id l]
    refine List.map_congr_left fun x _ => ?_
    show (x.setWidth 8).setWidth 6 = x
    ext i hi
    simp
  rw [takeSixes, takeBytes_append (by simpa [putSixes] using h)]
  simp only [operand_ok, putSixes, h1, h2, if_true]

/-! ### The lengths of what is read -/

theorem length_of_takeBytes {n : Nat} {l x r : List Byte} (h : takeBytes n l = .ok (x, r)) : x.length = n := by
  unfold takeBytes at h
  split at h
  · exact absurd h (by simp)
  · simp only [Except.ok.injEq, Prod.mk.injEq] at h
    rw [← h.1, List.length_take]
    omega

theorem length_of_takeSixes {n : Nat} {l r : List Byte} {x : List Six} (h : takeSixes n l = .ok (x, r)) : x.length = n := by
  obtain ⟨b, r', h1, h2⟩ := operand_eq_ok h
  split at h2
  · simp only [Except.ok.injEq, Prod.mk.injEq] at h2
    rw [← h2.1, List.length_map, length_of_takeBytes h1]
  · exact absurd h2 (by simp)

/-! ### The selector (R60) -/

/-- The selector is 16 more for a write, and the low four bits of the address. -/
theorem selector_toNat (w : Bool) (addr : Nat) : (selector w addr).toNat = (if w then 16 else 0) + addr % 16 := by
  have h : (BitVec.ofNat 5 addr &&& 0xF#5).toNat = addr % 16 := by
    rw [BitVec.toNat_and, BitVec.toNat_ofNat]
    show (addr % 32) &&& (2 ^ 4 - 1) = _
    rw [Nat.and_two_pow_sub_one_eq_mod]
    omega
  have hlt : addr % 16 < 2 ^ 4 := Nat.mod_lt _ (by decide)
  rw [selector, BitVec.toNat_or, h]
  cases w
  · show (0 : Nat) ||| _ = _
    simp
  · show (2 ^ 4 * 1) ||| _ = _
    rw [← Nat.two_pow_add_eq_or_of_lt hlt]
    simp

/-! ### The cases of a bus access (R61, R62) -/

/-- To say something of every selector it is enough to say it of the 32 (R62). -/
theorem forall_decodeSelector {P : Instr → Prop} {v : Byte} (h : ∀ n < 32, P (decodeSelector (BitVec.ofNat 5 n) v))
    (sel : BitVec 5) : P (decodeSelector sel v) := by
  have := h sel.toNat sel.isLt
  simpa using this

end Sys2Proof
end

