-- ==== Sys2Proof/Laws/Loader.lean ====
section
/-! SUPPORT. What the image loader can do, said once: the tracks it reads and what a commit leaves. -/

namespace Sys2Proof.Machine

/-! ### Reading the tracks (R55, R109) -/

/-- A stream that is too short for its tracks is `truncated`, whatever the layout. -/
theorem ingest_of_short (cfg : Config) (layout : Layout) (volume : Byte) (count t : Nat) (stream : List Byte)
    (h : stream.length < trackBytes layout * count) : ingest cfg layout volume count t stream = .error .truncated := by
  induction count generalizing t stream with
  | zero => simp at h
  | succ count ih =>
    rw [ingest]
    split_ifs with hs
    · rfl
    · rw [ih _ _ (by rw [List.length_drop]; rw [Nat.mul_succ] at h; omega)]

/-- A stream that is long enough gives its tracks front to back. -/
theorem ingest_of_long (cfg : Config) (layout : Layout) (volume : Byte) (count t : Nat) (stream : List Byte)
    (h : trackBytes layout * count ≤ stream.length) :
    ingest cfg layout volume count t stream =
      .ok ((List.range count).map (fun k =>
        ingestTrack cfg layout volume (t + k) ((stream.drop (trackBytes layout * k)).take (trackBytes layout)))) := by
  induction count generalizing t stream with
  | zero => rfl
  | succ count ih =>
    rw [Nat.mul_succ] at h
    rw [ingest, if_neg (by omega), ih _ _ (by rw [List.length_drop]; omega)]
    simp only [List.range_succ_eq_map, List.map_cons, List.map_map, Nat.mul_zero, List.drop_zero, Nat.add_zero]
    congr 2
    apply List.map_congr_left
    intro k _
    simp only [Function.comp_apply, List.drop_drop, Nat.succ_eq_add_one, Nat.mul_succ]
    rw [show t + 1 + k = t + (k + 1) by omega, Nat.add_comm (trackBytes layout) (trackBytes layout * k)]

/-- Every track that is read fills its buffer. -/
theorem length_ingestTrack (cfg : Config) (layout : Layout) (volume : Byte) (t : Nat) (data : List Byte)
    (h : data.length = trackBytes layout) : (ingestTrack cfg layout volume t data).length = 6656 := by
  cases layout
  · exact length_enctrack ..
  · exact length_enctrack ..
  · exact h

/-- A byte of 35 buffers put one after another. -/
theorem getD_flatten_tracks (g : Nat → List Byte) (hg : ∀ k < 35, (g k).length = 6656) (t o : Nat) (ht : t < 35) (ho : o < 6656) :
    (((List.range 35).map g).flatten).getD (6656 * t + o) trackUnlisted = (g t).getD o trackUnlisted := by
  have key : ∀ n, (∀ k < n, (g k).length = 6656) → ∀ t < n,
      (((List.range n).map g).flatten).getD (6656 * t + o) trackUnlisted = (g t).getD o trackUnlisted ∧
      (((List.range n).map g).flatten).length = 6656 * n := by
    intro n
    induction n with
    | zero => intro _ t h; omega
    | succ n ih =>
      intro hn t ht
      have hlen : (((List.range n).map g).flatten).length = 6656 * n := by
        rcases Nat.eq_zero_or_pos n with rfl | hpos
        · rfl
        · exact (ih (fun k hk => hn k (by omega)) 0 hpos).2
      rw [List.range_succ, List.map_append, List.flatten_append]
      refine ⟨?_, by simp [hlen, hn n (by omega)]; omega⟩
      rw [List.getD_eq_getElem?_getD, List.getElem?_append]
      rcases Nat.lt_or_ge t n with hlt | hge
      · rw [if_pos (by omega), ← List.getD_eq_getElem?_getD]
        exact (ih (fun k hk => hn k (by omega)) t hlt).1
      · obtain rfl : t = n := by omega
        rw [if_neg (by omega), hlen, Nat.add_sub_cancel_left]
        simp [List.getD_eq_getElem?_getD]
  exact (key 35 hg t ht).1

/-! ### The commit (R110, R111) -/

/-- The memory of an image that was read: canonical, and byte by byte what was read. -/
theorem trkWriteAll_tracks (g : Nat → List Byte) (hg : ∀ k < 35, (g k).length = 6656) :
    Memory.wf trackUnlisted driveBytes (trkWriteAll ((List.range 35).map g)) ∧
    ∀ t < 35, ∀ o < 6656,
      memRead trackUnlisted (trkWriteAll ((List.range 35).map g)) (6656 * t + o) = (g t).getD o trackUnlisted := by
  refine ⟨trkWriteAll_wf ?_, fun t ht o ho => ?_⟩
  · rw [List.length_flatten, List.map_map]
    have : ((List.range 35).map (List.length ∘ g)) = (List.range 35).map (fun _ => 6656) :=
      List.map_congr_left fun k hk => hg k (List.mem_range.mp hk)
    rw [this]
    simp [driveBytes]
  · have h := memRead_memOfBytes (u := trackUnlisted) 0 ((List.range 35).map g).flatten (6656 * t + o)
    rw [Nat.zero_add] at h
    rw [trkWriteAll, h, getD_flatten_tracks g hg t o ht ho]

@[simp] theorem commitMount_drive (d : Drive) (wp : Bool) (l : List (List Byte)) (k : Disk) : (commitMount d wp l k).drive = k.drive := by simp [commitMount]
@[simp] theorem commitMount_phases (d : Drive) (wp : Bool) (l : List (List Byte)) (k : Disk) : (commitMount d wp l k).phases = k.phases := by simp [commitMount]
@[simp] theorem commitMount_motorOn (d : Drive) (wp : Bool) (l : List (List Byte)) (k : Disk) : (commitMount d wp l k).motorOn = k.motorOn := by simp [commitMount]
@[simp] theorem commitMount_latch (d : Drive) (wp : Bool) (l : List (List Byte)) (k : Disk) : (commitMount d wp l k).latch = k.latch := by simp [commitMount]
@[simp] theorem commitMount_writeMode (d : Drive) (wp : Bool) (l : List (List Byte)) (k : Disk) : (commitMount d wp l k).writeMode = k.writeMode := by simp [commitMount]
@[simp] theorem commitMount_loadMode (d : Drive) (wp : Bool) (l : List (List Byte)) (k : Disk) : (commitMount d wp l k).loadMode = k.loadMode := by simp [commitMount]
@[simp] theorem commitMount_off (d : Drive) (wp : Bool) (l : List (List Byte)) (k : Disk) : (commitMount d wp l k).off = k.off := by simp [commitMount]
@[simp] theorem commitMount_spin (d : Drive) (wp : Bool) (l : List (List Byte)) (k : Disk) : (commitMount d wp l k).spin = k.spin := by simp [commitMount]

theorem driveState_commitMount (d e : Drive) (wp : Bool) (l : List (List Byte)) (k : Disk) :
    driveState (commitMount d wp l k) e = if e = d then { driveState k d with wp := wp, trk := trkWriteAll l } else driveState k e := by
  rw [commitMount, driveState_setDriveState]

/-- The two outcomes of a MOUNT (R110, R111). -/
theorem mountResult_cases (d : Drive) (hint : Hint) (stream : List Byte) (wp : Bool) (s : State) :
    (∃ e, loadImage s.cfg hint stream wp = .error e ∧ mountResult d hint stream wp s = raise (.formatError e) s) ∨
    ∃ w l, loadImage s.cfg hint stream wp = .ok (w, l) ∧
      mountResult d hint stream wp s = returns .ok { s with disk := commitMount d w l s.disk } := by
  unfold mountResult
  cases loadImage s.cfg hint stream wp with
  | error e => exact .inl ⟨e, rfl, rfl⟩
  | ok p => exact .inr ⟨p.1, p.2, rfl, rfl⟩

/-- The image a header gives and the tracks of its payload make a mount. -/
theorem loadImage_of_image {cfg : Config} {hint : Hint} {stream : List Byte} {wp : Bool} {image : Image}
    (h : readImage cfg hint stream wp = .ok image) :
    loadImage cfg hint stream wp =
      if image.payload.length < trackBytes image.layout * 35 then .error .truncated
      else .ok (image.wp, (List.range 35).map (fun k => ingestTrack cfg image.layout image.volume k
        ((image.payload.drop (trackBytes image.layout * k)).take (trackBytes image.layout)))) := by
  unfold loadImage
  rw [h]
  dsimp only [numTracks]
  split_ifs with hs
  · rw [ingest_of_short _ _ _ _ _ _ hs]
  · rw [ingest_of_long _ _ _ _ _ _ (by omega)]
    simp only [Nat.zero_add]

/-- The tracks of a successful load are 35 full buffers. -/
theorem tracks_of_loadImage {cfg : Config} {hint : Hint} {stream : List Byte} {wp w : Bool} {l : List (List Byte)}
    (h : loadImage cfg hint stream wp = .ok (w, l)) :
    ∃ g : Nat → List Byte, l = (List.range 35).map g ∧ ∀ k < 35, (g k).length = 6656 := by
  cases hi : readImage cfg hint stream wp with
  | error e =>
    rw [loadImage, hi] at h
    cases h
  | ok image =>
    rw [loadImage_of_image hi] at h
    split_ifs at h with hs
    cases h
    refine ⟨_, rfl, fun k hk => length_ingestTrack _ _ _ _ _ ?_⟩
    rw [List.length_take, List.length_drop]
    have : trackBytes image.layout * (k + 1) ≤ trackBytes image.layout * 35 := Nat.mul_le_mul_left _ (by omega)
    rw [Nat.mul_succ] at this
    omega

end Sys2Proof.Machine
end

