-- ==== Sys2Proof/Laws/PerInstr.lean ====
section
/-! SUPPORT. Statements made per instruction. `EncodesItsRow`: the access the encoder writes for an operation carries the number
that spec/opcode_table.json gives the operation's row, in the row's format. -/

namespace Sys2Proof.Laws.EncodesItsRow

/-- The two formats of the table (R60, R72). -/
inductive Format where
  | ssw
  | hop
deriving DecidableEq, Repr

/-- The format and the number of an operation's row, as the table lists them. -/
def row : Instr → Format × Nat
  | .rdPh0off => (.ssw, 0x00)
  | .rdPh0on => (.ssw, 0x01)
  | .rdPh1off => (.ssw, 0x02)
  | .rdPh1on => (.ssw, 0x03)
  | .rdPh2off => (.ssw, 0x04)
  | .rdPh2on => (.ssw, 0x05)
  | .rdPh3off => (.ssw, 0x06)
  | .rdPh3on => (.ssw, 0x07)
  | .rdMotoroff => (.ssw, 0x08)
  | .rdMotoron => (.ssw, 0x09)
  | .rdDrv0 => (.ssw, 0x0A)
  | .rdDrv1 => (.ssw, 0x0B)
  | .rdShift => (.ssw, 0x0C)
  | .rdLoad => (.ssw, 0x0D)
  | .rdRdmode => (.ssw, 0x0E)
  | .rdWrmode => (.ssw, 0x0F)
  | .wrPh0off _ => (.ssw, 0x10)
  | .wrPh0on _ => (.ssw, 0x11)
  | .wrPh1off _ => (.ssw, 0x12)
  | .wrPh1on _ => (.ssw, 0x13)
  | .wrPh2off _ => (.ssw, 0x14)
  | .wrPh2on _ => (.ssw, 0x15)
  | .wrPh3off _ => (.ssw, 0x16)
  | .wrPh3on _ => (.ssw, 0x17)
  | .wrMotoroff _ => (.ssw, 0x18)
  | .wrMotoron _ => (.ssw, 0x19)
  | .wrDrv0 _ => (.ssw, 0x1A)
  | .wrDrv1 _ => (.ssw, 0x1B)
  | .wrShift _ => (.ssw, 0x1C)
  | .wrLoad _ => (.ssw, 0x1D)
  | .wrRdmode _ => (.ssw, 0x1E)
  | .wrWrmode _ => (.ssw, 0x1F)
  | .niord _ => (.hop, 0x00)
  | .niowr _ _ => (.hop, 0x01)
  | .nmemrd _ => (.hop, 0x02)
  | .nmemwr _ _ => (.hop, 0x03)
  | .nreset => (.hop, 0x04)
  | .enc44 _ => (.hop, 0x10)
  | .dec44 _ _ => (.hop, 0x11)
  | .split62 _ => (.hop, 0x12)
  | .join62 _ _ => (.hop, 0x13)
  | .wrsync _ => (.hop, 0x14)
  | .wraddr _ _ _ => (.hop, 0x15)
  | .rdaddr _ => (.hop, 0x16)
  | .wrdata _ _ => (.hop, 0x17)
  | .rddata _ => (.hop, 0x18)
  | .enctrack _ _ _ _ => (.hop, 0x19)
  | .mount _ _ _ _ => (.hop, 0x20)
  | .unmount _ => (.hop, 0x21)
  | .dmemrd _ => (.hop, 0x30)
  | .dmemwr _ _ => (.hop, 0x31)
  | .dreset => (.hop, 0x32)
  | .spktoggle => (.hop, 0x40)
  | .spkfill _ => (.hop, 0x41)
  | .spkrefresh => (.hop, 0x42)
  | .spkvol _ => (.hop, 0x43)
  | .spkpause => (.hop, 0x44)
  | .spkresume => (.hop, 0x45)
  | .spkreset => (.hop, 0x46)
  | .pdlset _ _ => (.hop, 0x50)
  | .pdltrig => (.hop, 0x51)
  | .pdlread _ => (.hop, 0x52)
  | .btnset _ _ => (.hop, 0x53)
  | .btnread _ => (.hop, 0x54)
  | .pdlreset => (.hop, 0x55)

/-- The format and the number an access carries: the selector of a bus access, the first byte of a host operation. -/
def carried : Access → Option (Format × Nat)
  | .ioRead addr => some (.ssw, (selector false addr).toNat)
  | .ioWrite addr _ => some (.ssw, (selector true addr).toNat)
  | .host [] => none
  | .host (op :: _) => some (.hop, op.toNat)

/-- The encoder writes the number of the operation's row. -/
def Statement (i : Instr) : Prop := carried (encode i) = some (row i)

theorem rdPh0off : Statement .rdPh0off := rfl
theorem rdPh0on : Statement .rdPh0on := rfl
theorem rdPh1off : Statement .rdPh1off := rfl
theorem rdPh1on : Statement .rdPh1on := rfl
theorem rdPh2off : Statement .rdPh2off := rfl
theorem rdPh2on : Statement .rdPh2on := rfl
theorem rdPh3off : Statement .rdPh3off := rfl
theorem rdPh3on : Statement .rdPh3on := rfl
theorem rdMotoroff : Statement .rdMotoroff := rfl
theorem rdMotoron : Statement .rdMotoron := rfl
theorem rdDrv0 : Statement .rdDrv0 := rfl
theorem rdDrv1 : Statement .rdDrv1 := rfl
theorem rdShift : Statement .rdShift := rfl
theorem rdLoad : Statement .rdLoad := rfl
theorem rdRdmode : Statement .rdRdmode := rfl
theorem rdWrmode : Statement .rdWrmode := rfl
theorem wrPh0off (wdata : Byte) : Statement (.wrPh0off wdata) := rfl
theorem wrPh0on (wdata : Byte) : Statement (.wrPh0on wdata) := rfl
theorem wrPh1off (wdata : Byte) : Statement (.wrPh1off wdata) := rfl
theorem wrPh1on (wdata : Byte) : Statement (.wrPh1on wdata) := rfl
theorem wrPh2off (wdata : Byte) : Statement (.wrPh2off wdata) := rfl
theorem wrPh2on (wdata : Byte) : Statement (.wrPh2on wdata) := rfl
theorem wrPh3off (wdata : Byte) : Statement (.wrPh3off wdata) := rfl
theorem wrPh3on (wdata : Byte) : Statement (.wrPh3on wdata) := rfl
theorem wrMotoroff (wdata : Byte) : Statement (.wrMotoroff wdata) := rfl
theorem wrMotoron (wdata : Byte) : Statement (.wrMotoron wdata) := rfl
theorem wrDrv0 (wdata : Byte) : Statement (.wrDrv0 wdata) := rfl
theorem wrDrv1 (wdata : Byte) : Statement (.wrDrv1 wdata) := rfl
theorem wrShift (wdata : Byte) : Statement (.wrShift wdata) := rfl
theorem wrLoad (wdata : Byte) : Statement (.wrLoad wdata) := rfl
theorem wrRdmode (wdata : Byte) : Statement (.wrRdmode wdata) := rfl
theorem wrWrmode (wdata : Byte) : Statement (.wrWrmode wdata) := rfl
theorem niord (addr : Nat) : Statement (.niord addr) := rfl
theorem niowr (addr : Nat) (value : Byte) : Statement (.niowr addr value) := rfl
theorem nmemrd (addr : Nat) : Statement (.nmemrd addr) := rfl
theorem nmemwr (addr : Nat) (value : Byte) : Statement (.nmemwr addr value) := rfl
theorem nreset : Statement .nreset := rfl
theorem enc44 (v : Byte) : Statement (.enc44 v) := rfl
theorem dec44 (x y : Byte) : Statement (.dec44 x y) := rfl
theorem split62 (b : List Byte) : Statement (.split62 b) := rfl
theorem join62 (hi lo : List Six) : Statement (.join62 hi lo) := rfl
theorem wrsync (n : Nat) : Statement (.wrsync n) := rfl
theorem wraddr (volume track sector : Byte) : Statement (.wraddr volume track sector) := rfl
theorem rdaddr (n : List Byte) : Statement (.rdaddr n) := rfl
theorem wrdata (hi lo : List Six) : Statement (.wrdata hi lo) := rfl
theorem rddata (n : List Byte) : Statement (.rddata n) := rfl
theorem enctrack (data : List Byte) (volume track : Byte) (order : Order) : Statement (.enctrack data volume track order) := rfl
theorem mount (d : Drive) (hint : Hint) (stream : List Byte) (wpRequest : Bool) : Statement (.mount d hint stream wpRequest) := rfl
theorem unmount (d : Drive) : Statement (.unmount d) := rfl
theorem dmemrd (romOffset : Nat) : Statement (.dmemrd romOffset) := rfl
theorem dmemwr (addr : Nat) (value : Byte) : Statement (.dmemwr addr value) := rfl
theorem dreset : Statement .dreset := rfl
theorem spktoggle : Statement .spktoggle := rfl
theorem spkfill (clockEnd : Clock) : Statement (.spkfill clockEnd) := rfl
theorem spkrefresh : Statement .spkrefresh := rfl
theorem spkvol (v : Nat) : Statement (.spkvol v) := rfl
theorem spkpause : Statement .spkpause := rfl
theorem spkresume : Statement .spkresume := rfl
theorem spkreset : Statement .spkreset := rfl
theorem pdlset (a : Nat) (value : Byte) : Statement (.pdlset a value) := rfl
theorem pdltrig : Statement .pdltrig := rfl
theorem pdlread (a : Nat) : Statement (.pdlread a) := rfl
theorem btnset (b : Nat) (pressed : Bool) : Statement (.btnset b pressed) := rfl
theorem btnread (b : Nat) : Statement (.btnread b) := rfl
theorem pdlreset : Statement .pdlreset := rfl

end Sys2Proof.Laws.EncodesItsRow
end

