-- ==== Sys2Proof/Laws/Speaker.lean ====
section
/-! SUPPORT. What each operation of the synthesizer can do, said once: the drain, a run of samples, a fill, a refresh. -/

namespace Sys2Proof.Machine

variable {size : Nat} {f : FlipRing}

/-! ### The clock (R1, R2) -/

/-- How many ticks the clock is ahead of the samples. -/
def gap (e : Clock) (k : Speaker) : Nat := (e - k.sclk).toNat

theorem before_sclk (e : Clock) (k : Speaker) : before e k.sclk = decide (2 ^ 30 ≤ gap e k) := rfl

/-- Within the half window a fill stops exactly when less than one sample is missing (R197). -/
theorem fillStops_eq (e : Clock) (k : Speaker) (hc : k.cps ≤ 2 ^ 30) (hg : gap e k < 2 ^ 30) :
    fillStops k e = decide (gap e k < k.cps) := by
  have h1 : before e k.sclk = false := by rw [before_sclk]; simp; omega
  have h2 : (e - sampleEnd k).toNat = (gap e k + (2 ^ 31 - k.cps)) % 2 ^ 31 := by
    have h : e - sampleEnd k = (e - k.sclk) - BitVec.ofNat 31 k.cps := by
      unfold sampleEnd
      bv_omega
    rw [h, BitVec.toNat_sub, BitVec.toNat_ofNat, Nat.mod_eq_of_lt (show k.cps < 2 ^ 31 by omega), Nat.add_comm]
    rfl
  have h3 : before e (sampleEnd k) = decide (gap e k < k.cps) := by
    unfold before
    rw [h2]
    congr 1
    apply propext
    omega
  rw [fillStops, h1, h3, Bool.false_or]

/-- Where a step is 0 modulo 2^31 the end of the window is its beginning. -/
theorem sampleEnd_of_mod_eq_zero (k : Speaker) (h : k.cps % 2 ^ 31 = 0) : sampleEnd k = k.sclk := by
  have : BitVec.ofNat 31 k.cps = 0#31 := by
    apply BitVec.eq_of_toNat_eq
    simpa using h
  rw [sampleEnd, this, BitVec.add_zero]

/-! ### The drain (R198) -/

/-- An event is due where it is pending and earlier than the clock (R198). -/
theorem flipDue_iff (f : FlipRing) (k : Speaker) :
    flipDue f k = true ↔ k.ringRd ≠ f.ringWr ∧ 2 ^ 30 ≤ (f.ring.getD k.ringRd 0#31 - k.sclk).toNat := by
  rw [flipDue, Bool.and_eq_true, before, decide_eq_true_iff, decide_eq_true_iff]

/-- The cursor `i` places after the read cursor. -/
def cursorAfter (size : Nat) (k : Speaker) (i : Nat) : Nat := (k.ringRd + i) % size

theorem nextInRing_cursorAfter (k : Speaker) (i : Nat) : nextInRing size (cursorAfter size k i) = cursorAfter size k (i + 1) := by
  unfold nextInRing cursorAfter
  rw [Nat.mod_add_mod, Nat.add_assoc]

/-- The drain flips the level once for each of the first `c` events, which are due, and stops at one that is not. -/
theorem drain_spec (fuel : Nat) (k : Speaker) (hk : k.ringRd < size) :
    ∃ c ≤ fuel, (∀ i < c, flipDue f { k with ringRd := cursorAfter size k i } = true) ∧
      (c < fuel → flipDue f { k with ringRd := cursorAfter size k c } = false) ∧
      drain size f fuel k = { k with ringRd := cursorAfter size k c, level := k.level ^^ decide (c % 2 = 1) } := by
  have h0 : ∀ k : Speaker, k.ringRd < size → cursorAfter size k 0 = k.ringRd :=
    fun k h => Nat.mod_eq_of_lt h
  induction fuel generalizing k with
  | zero => exact ⟨0, le_rfl, by simp, by simp, by simp [drain, h0 k hk]⟩
  | succ fuel ih =>
    by_cases hd : flipDue f k = true
    · obtain ⟨c, hc, h1, h2, h3⟩ :=
        ih { k with ringRd := nextInRing size k.ringRd, level := !k.level } (Nat.mod_lt _ (by omega))
      have hcur : ∀ i, cursorAfter size { k with ringRd := nextInRing size k.ringRd, level := !k.level } i =
          cursorAfter size k (i + 1) := by
        intro i
        show ((k.ringRd + 1) % size + i) % size = (k.ringRd + (i + 1)) % size
        rw [Nat.mod_add_mod, Nat.add_assoc, Nat.add_comm 1 i]
      refine ⟨c + 1, by omega, ?_, ?_, ?_⟩
      · rintro (_ | i) hi
        · rw [h0 k hk]; exact hd
        · have := h1 i (by omega)
          rwa [hcur] at this
      · intro h
        have := h2 (by omega)
        rwa [hcur] at this
      · rw [drain, if_pos hd, h3, hcur]
        have hp : (!k.level ^^ decide (c % 2 = 1)) = (k.level ^^ decide ((c + 1) % 2 = 1)) := by
          rcases Nat.mod_two_eq_zero_or_one c with h | h
          · simp [h, Nat.add_mod]
          · simp [h, Nat.add_mod]
        rw [hp]
    · refine ⟨0, by omega, by simp, fun _ => by rw [h0 k hk]; simpa using hd, ?_⟩
      rw [drain, if_neg hd, h0 k hk]
      simp

/-- FLIP_RING_SIZE bounds the drain: before that many events the read cursor meets the write cursor (R226). -/
theorem drain_bound (k : Speaker) (hk : k.ringRd < size) (hf : f.ringWr < size) :
    ∃ i < size, flipDue f { k with ringRd := cursorAfter size k i } = false := by
  refine ⟨(f.ringWr + size - k.ringRd) % size, Nat.mod_lt _ (by omega), ?_⟩
  have : cursorAfter size k ((f.ringWr + size - k.ringRd) % size) = f.ringWr := by
    unfold cursorAfter
    rw [Nat.add_mod_mod, show k.ringRd + (f.ringWr + size - k.ringRd) = f.ringWr + size by omega, Nat.add_mod_right,
      Nat.mod_eq_of_lt hf]
  simp [flipDue, this]

@[simp] theorem drain_volume (fuel : Nat) (k : Speaker) : (drain size f fuel k).volume = k.volume := by
  induction fuel generalizing k with
  | zero => rfl
  | succ fuel ih => rw [drain]; split <;> simp [ih]

@[simp] theorem drain_cps (fuel : Nat) (k : Speaker) : (drain size f fuel k).cps = k.cps := by
  induction fuel generalizing k with
  | zero => rfl
  | succ fuel ih => rw [drain]; split <;> simp [ih]

@[simp] theorem drain_sclk (fuel : Nat) (k : Speaker) : (drain size f fuel k).sclk = k.sclk := by
  induction fuel generalizing k with
  | zero => rfl
  | succ fuel ih => rw [drain]; split <;> simp [ih]

@[simp] theorem drain_bufSize (fuel : Nat) (k : Speaker) : (drain size f fuel k).bufSize = k.bufSize := by
  induction fuel generalizing k with
  | zero => rfl
  | succ fuel ih => rw [drain]; split <;> simp [ih]

@[simp] theorem drain_pcm (fuel : Nat) (k : Speaker) : (drain size f fuel k).pcm = k.pcm := by
  induction fuel generalizing k with
  | zero => rfl
  | succ fuel ih => rw [drain]; split <;> simp [ih]

@[simp] theorem drain_sinkOpen (fuel : Nat) (k : Speaker) : (drain size f fuel k).sinkOpen = k.sinkOpen := by
  induction fuel generalizing k with
  | zero => rfl
  | succ fuel ih => rw [drain]; split <;> simp [ih]

theorem drain_ringRd_lt (fuel : Nat) (k : Speaker) (hk : k.ringRd < size) : (drain size f fuel k).ringRd < size := by
  induction fuel generalizing k with
  | zero => exact hk
  | succ fuel ih =>
    rw [drain]
    split
    · exact ih _ (Nat.mod_lt _ (by omega))
    · exact hk

/-- The drain looks at the cursor, the level and the clock alone. -/
theorem drain_pcm_bufSize (fuel : Nat) (k : Speaker) (p : List Byte) (b : Nat) :
    drain size f fuel { k with pcm := p, bufSize := b } = { drain size f fuel k with pcm := p, bufSize := b } := by
  induction fuel generalizing k with
  | zero => rfl
  | succ fuel ih =>
    have h : flipDue f { k with pcm := p, bufSize := b } = flipDue f k := rfl
    rw [drain, drain, h]
    split
    · exact ih { k with ringRd := nextInRing size k.ringRd, level := !k.level }
    · rfl

/-! ### One sample (R199 to R201) -/

@[simp] theorem sampleSlot_volume (n : Nat) (k : Speaker) : (sampleSlot size f n k).volume = k.volume := by simp [sampleSlot]
@[simp] theorem sampleSlot_cps (n : Nat) (k : Speaker) : (sampleSlot size f n k).cps = k.cps := by simp [sampleSlot]
@[simp] theorem sampleSlot_sclk (n : Nat) (k : Speaker) : (sampleSlot size f n k).sclk = sampleEnd k := by simp [sampleSlot]
@[simp] theorem sampleSlot_bufSize (n : Nat) (k : Speaker) : (sampleSlot size f n k).bufSize = k.bufSize := by simp [sampleSlot]
@[simp] theorem sampleSlot_sinkOpen (n : Nat) (k : Speaker) : (sampleSlot size f n k).sinkOpen = k.sinkOpen := by simp [sampleSlot]
@[simp] theorem sampleSlot_length (n : Nat) (k : Speaker) : (sampleSlot size f n k).pcm.length = k.pcm.length := by
  simp [sampleSlot]

theorem sampleSlot_ringRd_lt (n : Nat) (k : Speaker) (hk : k.ringRd < size) : (sampleSlot size f n k).ringRd < size := by
  simpa [sampleSlot] using drain_ringRd_lt size { k with sclk := sampleEnd k } hk

/-- A sample is one of two words, low byte 0. -/
theorem sample_bytes (level : Bool) (volume : BitVec 3) :
    (sample level volume).setWidth 8 = 0x00#8 ∧
    ((sample level volume >>> 8).setWidth 8 : Byte).toNat = if level then 2 ^ volume.toNat else 256 - 2 ^ volume.toNat := by
  revert level volume
  decide

/-! ### A run of samples -/

/-- `m` samples from buffer index `n` on. -/
def samples (size : Nat) (f : FlipRing) : Nat → Nat → Speaker → Speaker
  | 0, _, k => k
  | m + 1, n, k => samples size f m (n + 2) (sampleSlot size f n k)

@[simp] theorem samples_volume (m n : Nat) (k : Speaker) : (samples size f m n k).volume = k.volume := by
  induction m generalizing n k with
  | zero => rfl
  | succ m ih => simp [samples, ih]

@[simp] theorem samples_cps (m n : Nat) (k : Speaker) : (samples size f m n k).cps = k.cps := by
  induction m generalizing n k with
  | zero => rfl
  | succ m ih => simp [samples, ih]

@[simp] theorem samples_bufSize (m n : Nat) (k : Speaker) : (samples size f m n k).bufSize = k.bufSize := by
  induction m generalizing n k with
  | zero => rfl
  | succ m ih => simp [samples, ih]

@[simp] theorem samples_sinkOpen (m n : Nat) (k : Speaker) : (samples size f m n k).sinkOpen = k.sinkOpen := by
  induction m generalizing n k with
  | zero => rfl
  | succ m ih => simp [samples, ih]

@[simp] theorem samples_length (m n : Nat) (k : Speaker) : (samples size f m n k).pcm.length = k.pcm.length := by
  induction m generalizing n k with
  | zero => rfl
  | succ m ih => simp [samples, ih]

theorem samples_ringRd_lt (m n : Nat) (k : Speaker) (hk : k.ringRd < size) : (samples size f m n k).ringRd < size := by
  induction m generalizing n k with
  | zero => exact hk
  | succ m ih => exact ih _ _ (sampleSlot_ringRd_lt n k hk)

theorem samples_sclk (m n : Nat) (k : Speaker) :
    (samples size f m n k).sclk = k.sclk + BitVec.ofNat 31 (m * k.cps) := by
  induction m generalizing n k with
  | zero => simp [samples]
  | succ m ih =>
    rw [samples, ih, sampleSlot_sclk, sampleSlot_cps, sampleEnd, BitVec.add_assoc, ← BitVec.ofNat_add,
      Nat.add_mul, Nat.one_mul, Nat.add_comm]

theorem samples_add (a m n : Nat) (k : Speaker) :
    samples size f (a + m) n k = samples size f m (n + 2 * a) (samples size f a n k) := by
  induction a generalizing n k with
  | zero => simp [samples]
  | succ a ih =>
    rw [show a + 1 + m = (a + m) + 1 by omega, samples, samples, ih, show n + 2 + 2 * a = n + 2 * (a + 1) by omega]

/-- Samples leave the bytes before their index alone. -/
theorem samples_pcm_of_lt (m n : Nat) (k : Speaker) (i : Nat) (hi : i < n) :
    (samples size f m n k).pcm[i]? = k.pcm[i]? := by
  induction m generalizing n k with
  | zero => rfl
  | succ m ih =>
    rw [samples, ih _ _ (by omega)]
    simp [sampleSlot, List.getElem?_set_ne (show n ≠ i by omega), List.getElem?_set_ne (show n + 1 ≠ i by omega)]

/-- Samples leave the bytes after the last of them alone. -/
theorem samples_pcm_of_ge (m n : Nat) (k : Speaker) (i : Nat) (hi : n + 2 * m ≤ i) :
    (samples size f m n k).pcm[i]? = k.pcm[i]? := by
  induction m generalizing n k with
  | zero => rfl
  | succ m ih =>
    rw [samples, ih _ _ (by omega)]
    simp [sampleSlot, List.getElem?_set_ne (show n ≠ i by omega), List.getElem?_set_ne (show n + 1 ≠ i by omega)]

/-- Sample `j` of a run stands at its two bytes. -/
theorem samples_pcm (m n : Nat) (k : Speaker) (j : Nat) (hj : j < m) (hl : n + 2 * m ≤ k.pcm.length) :
    ∃ level : Bool,
      (samples size f m n k).pcm[n + 2 * j]? = some ((sample level k.volume).setWidth 8) ∧
      (samples size f m n k).pcm[n + 2 * j + 1]? = some ((sample level k.volume >>> 8).setWidth 8) := by
  induction m generalizing n k j with
  | zero => omega
  | succ m ih =>
    rw [samples]
    cases j with
    | zero =>
      refine ⟨(drain size f size { k with sclk := sampleEnd k }).level, ?_, ?_⟩
      · rw [samples_pcm_of_lt _ _ _ _ (by omega)]
        simp [sampleSlot, show n < k.pcm.length by omega]
      · rw [samples_pcm_of_lt _ _ _ _ (by omega)]
        simp [sampleSlot, show n + 1 < k.pcm.length by omega]
    | succ j =>
      obtain ⟨level, h1, h2⟩ := ih (n + 2) (sampleSlot size f n k) j (by omega) (by simp; omega)
      rw [show n + 2 * (j + 1) = n + 2 + 2 * j by omega]
      exact ⟨level, by simpa using h1, by simpa using h2⟩

/-! ### A fill (R196, R197, R202) -/

/-- A fill writes samples until STOP holds or the buffer is full. -/
theorem fillLoop_spec (e : Clock) (slots n : Nat) (k : Speaker) :
    ∃ m ≤ slots, (∀ i < m, fillStops (samples size f i n k) e = false) ∧
      (m < slots → fillStops (samples size f m n k) e = true) ∧
      fillLoop size f e slots n k = (n + 2 * m, samples size f m n k) := by
  induction slots generalizing n k with
  | zero => exact ⟨0, le_rfl, by simp, by simp, rfl⟩
  | succ slots ih =>
    by_cases hs : fillStops k e = true
    · exact ⟨0, by omega, by simp, fun _ => hs, by simp [fillLoop, hs, samples]⟩
    · obtain ⟨m, hm, h1, h2, h3⟩ := ih (n + 2) (sampleSlot size f n k)
      refine ⟨m + 1, by omega, ?_, fun h => h2 (by omega), ?_⟩
      · rintro (_ | i) hi
        · simpa [samples] using hs
        · exact h1 i (by omega)
      · rw [fillLoop, if_neg hs, h3, samples]
        congr 1
        omega

/-- A fill, in terms of its samples. -/
theorem fill_spec (e : Clock) (k : Speaker) :
    ∃ m ≤ k.bufSize / 2, (∀ i < m, fillStops (samples size f i 0 k) e = false) ∧
      (m < k.bufSize / 2 → fillStops (samples size f m 0 k) e = true) ∧
      fill size f e k = (2 * m, samples size f m 0 k) := by
  obtain ⟨m, hm, h1, h2, h3⟩ := fillLoop_spec (size := size) (f := f) e (k.bufSize / 2) 0 k
  exact ⟨m, hm, h1, h2, by rw [fill, h3, Nat.zero_add]⟩

/-! ### A refresh (R206) -/

/-- What every fill keeps, a refresh keeps; what every fill says of its chunk holds of all chunks. -/
theorem refreshLoop_induct {P : Speaker → Prop} {Q : List Byte → Prop} {e : Clock}
    (h : ∀ k, P k → P (fill size f e k).2 ∧
      ((fill size f e k).1 ≠ 0 → Q ((fill size f e k).2.pcm.take (fill size f e k).1)))
    (fuel : Nat) (k : Speaker) (hk : P k) :
    P (refreshLoop size f e fuel k).2 ∧ ∀ c ∈ (refreshLoop size f e fuel k).1, Q c := by
  induction fuel generalizing k with
  | zero => exact ⟨hk, by simp [refreshLoop]⟩
  | succ fuel ih =>
    obtain ⟨h1, h2⟩ := h k hk
    rw [refreshLoop]
    dsimp only
    split_ifs with h0
    · exact ⟨h1, by simp⟩
    · obtain ⟨h3, h4⟩ := ih _ h1
      refine ⟨h3, fun c hc => ?_⟩
      rcases List.mem_cons.mp hc with rfl | hc
      · exact h2 h0
      · exact h4 c hc

/-- What a refresh leaves alone. -/
theorem refreshLoop_frame (e : Clock) (fuel : Nat) (k : Speaker) :
    (refreshLoop size f e fuel k).2.volume = k.volume ∧ (refreshLoop size f e fuel k).2.cps = k.cps ∧
    (refreshLoop size f e fuel k).2.bufSize = k.bufSize ∧ (refreshLoop size f e fuel k).2.sinkOpen = k.sinkOpen ∧
    (refreshLoop size f e fuel k).2.pcm.length = k.pcm.length := by
  refine (refreshLoop_induct (Q := fun _ => True)
    (P := fun x => x.volume = k.volume ∧ x.cps = k.cps ∧ x.bufSize = k.bufSize ∧ x.sinkOpen = k.sinkOpen ∧
      x.pcm.length = k.pcm.length) ?_ fuel k ⟨rfl, rfl, rfl, rfl, rfl⟩).1
  rintro x ⟨h1, h2, h3, h4, h5⟩
  obtain ⟨m, -, -, -, h⟩ := fill_spec (size := size) (f := f) e x
  rw [h]
  simp [h1, h2, h3, h4, h5]


/-! ### The stream: what the samples say, apart from where they are put -/

/-- One sample's effect on the synthesizer, apart from the buffer: the clock advances and the due events are drained. -/
def advance (size : Nat) (f : FlipRing) (k : Speaker) : Speaker := drain size f size { k with sclk := sampleEnd k }

/-- The two bytes of the sample a synthesizer emits (R199). -/
def word (k : Speaker) : List Byte :=
  [(sample k.level k.volume).setWidth 8, (sample k.level k.volume >>> 8).setWidth 8]

/-- The synthesizer after `m` samples, apart from the buffer. -/
def after (size : Nat) (f : FlipRing) : Nat → Speaker → Speaker
  | 0, k => k
  | m + 1, k => after size f m (advance size f k)

/-- The bytes of `m` samples. -/
def stream (size : Nat) (f : FlipRing) : Nat → Speaker → List Byte
  | 0, _ => []
  | m + 1, k => word (advance size f k) ++ stream size f m (advance size f k)

@[simp] theorem advance_volume (k : Speaker) : (advance size f k).volume = k.volume := by simp [advance]
@[simp] theorem advance_cps (k : Speaker) : (advance size f k).cps = k.cps := by simp [advance]
@[simp] theorem advance_sclk (k : Speaker) : (advance size f k).sclk = sampleEnd k := by simp [advance]
@[simp] theorem advance_bufSize (k : Speaker) : (advance size f k).bufSize = k.bufSize := by simp [advance]
@[simp] theorem advance_pcm (k : Speaker) : (advance size f k).pcm = k.pcm := by simp [advance]
@[simp] theorem advance_sinkOpen (k : Speaker) : (advance size f k).sinkOpen = k.sinkOpen := by simp [advance]

/-- A sample does not look at the buffer. -/
theorem advance_buffer (k : Speaker) (p : List Byte) (b : Nat) :
    advance size f { k with pcm := p, bufSize := b } = { advance size f k with pcm := p, bufSize := b } :=
  drain_pcm_bufSize size { k with sclk := sampleEnd k } p b

theorem after_buffer (m : Nat) (k : Speaker) (p : List Byte) (b : Nat) :
    after size f m { k with pcm := p, bufSize := b } = { after size f m k with pcm := p, bufSize := b } := by
  induction m generalizing k with
  | zero => rfl
  | succ m ih => rw [after, advance_buffer, ih, after]

theorem stream_buffer (m : Nat) (k : Speaker) (p : List Byte) (b : Nat) :
    stream size f m { k with pcm := p, bufSize := b } = stream size f m k := by
  induction m generalizing k with
  | zero => rfl
  | succ m ih => rw [stream, advance_buffer, ih, stream]; rfl

@[simp] theorem length_stream (m : Nat) (k : Speaker) : (stream size f m k).length = 2 * m := by
  induction m generalizing k with
  | zero => rfl
  | succ m ih => simp [stream, word, ih]; omega

theorem after_add (a m : Nat) (k : Speaker) : after size f (a + m) k = after size f m (after size f a k) := by
  induction a generalizing k with
  | zero => rw [Nat.zero_add, after]
  | succ a ih => rw [Nat.succ_add, after, after, ih]

theorem stream_add (a m : Nat) (k : Speaker) :
    stream size f (a + m) k = stream size f a k ++ stream size f m (after size f a k) := by
  induction a generalizing k with
  | zero => rw [Nat.zero_add]; rfl
  | succ a ih => rw [Nat.succ_add, stream, stream, after, ih, List.append_assoc]

theorem set_set_succ (l : List Byte) (n : Nat) (x y : Byte) (h : n + 2 ≤ l.length) :
    (l.set n x).set (n + 1) y = l.take n ++ [x, y] ++ l.drop (n + 2) := by
  induction n generalizing l with
  | zero =>
    match l, h with
    | _ :: _ :: _, _ => rfl
  | succ n ih =>
    match l, h with
    | a :: l, h => simpa using ih l (by simpa using h)

/-- A sample in the buffer is the sample of the stream, put at its place. -/
theorem sampleSlot_eq (n : Nat) (k : Speaker) (h : n + 2 ≤ k.pcm.length) :
    sampleSlot size f n k =
      { advance size f k with pcm := k.pcm.take n ++ word (advance size f k) ++ k.pcm.drop (n + 2) } := by
  rw [show sampleSlot size f n k = emit n (advance size f k) from rfl, word, ← set_set_succ _ _ _ _ h]
  simp [emit, pcmWrite]

@[simp] theorem after_volume (m : Nat) (k : Speaker) : (after size f m k).volume = k.volume := by
  induction m generalizing k with
  | zero => rfl
  | succ m ih => simp [after, ih]

@[simp] theorem after_cps (m : Nat) (k : Speaker) : (after size f m k).cps = k.cps := by
  induction m generalizing k with
  | zero => rfl
  | succ m ih => simp [after, ih]

@[simp] theorem after_bufSize (m : Nat) (k : Speaker) : (after size f m k).bufSize = k.bufSize := by
  induction m generalizing k with
  | zero => rfl
  | succ m ih => simp [after, ih]

@[simp] theorem after_pcm (m : Nat) (k : Speaker) : (after size f m k).pcm = k.pcm := by
  induction m generalizing k with
  | zero => rfl
  | succ m ih => simp [after, ih]

@[simp] theorem after_sinkOpen (m : Nat) (k : Speaker) : (after size f m k).sinkOpen = k.sinkOpen := by
  induction m generalizing k with
  | zero => rfl
  | succ m ih => simp [after, ih]

@[simp] theorem length_word (k : Speaker) : (word k).length = 2 := rfl

/-- A run of samples in the buffer is the stream, put at its place. -/
theorem samples_eq (m n : Nat) (k : Speaker) (h : n + 2 * m ≤ k.pcm.length) :
    samples size f m n k =
      { after size f m k with pcm := k.pcm.take n ++ stream size f m k ++ k.pcm.drop (n + 2 * m) } := by
  induction m generalizing n k with
  | zero => simp [samples, after, stream]
  | succ m ih =>
    have hl : (k.pcm.take n ++ word (advance size f k)).length = n + 2 := by simp; omega
    have hb : ({ advance size f k with pcm := k.pcm.take n ++ word (advance size f k) ++ k.pcm.drop (n + 2) } : Speaker) =
        { advance size f k with
          pcm := k.pcm.take n ++ word (advance size f k) ++ k.pcm.drop (n + 2), bufSize := (advance size f k).bufSize } := rfl
    rw [samples, sampleSlot_eq n k (by omega), ih (n + 2) _ (by simp; omega), hb, after_buffer, stream_buffer]
    have ht := List.take_left' (l₂ := k.pcm.drop (n + 2)) hl
    have hd : (k.pcm.take n ++ word (advance size f k) ++ k.pcm.drop (n + 2)).drop (n + 2 + 2 * m) =
        k.pcm.drop (n + 2 * (m + 1)) := by
      rw [← List.drop_drop, List.drop_left' hl, List.drop_drop, show n + 2 + 2 * m = n + 2 * (m + 1) by omega]
    simp only [ht, hd]
    simp only [stream, after, List.append_assoc, advance_bufSize, after_bufSize]

theorem after_sclk (m : Nat) (k : Speaker) : (after size f m k).sclk = k.sclk + BitVec.ofNat 31 (m * k.cps) := by
  induction m generalizing k with
  | zero => simp [after]
  | succ m ih =>
    rw [after, ih, advance_sclk, advance_cps, sampleEnd, BitVec.add_assoc, ← BitVec.ofNat_add,
      Nat.add_mul, Nat.one_mul, Nat.add_comm]

/-- Within the half window samples close the gap. -/
theorem gap_after (e : Clock) (m : Nat) (k : Speaker) (h : m * k.cps ≤ gap e k) :
    gap e (after size f m k) = gap e k - m * k.cps := by
  have hg : gap e k < 2 ^ 31 := (e - k.sclk).isLt
  unfold gap at *
  rw [after_sclk]
  generalize m * k.cps = d at *
  bv_omega

/-- Samples put from index 0 on do not change the gap, nor when a fill stops. -/
theorem gap_samples (e : Clock) (m n : Nat) (k : Speaker) : gap e (samples size f m n k) = gap e (after size f m k) := by
  rw [gap, gap, samples_sclk, after_sclk]

/-- A fill within the half window produces the samples that are due and fit the buffer (R196, R202). -/
theorem fill_eq (e : Clock) (k : Speaker) (h1 : 1 ≤ k.cps) (hc : k.cps ≤ 2 ^ 30) (hg : gap e k < 2 ^ 30) :
    fill size f e k =
      (2 * min (gap e k / k.cps) (k.bufSize / 2), samples size f (min (gap e k / k.cps) (k.bufSize / 2)) 0 k) := by
  obtain ⟨m, hm, ha, hb, hf⟩ := fill_spec (size := size) (f := f) e k
  have key : ∀ i, i * k.cps ≤ gap e k →
      fillStops (samples size f i 0 k) e = decide (gap e k - i * k.cps < k.cps) := by
    intro i hi
    rw [fillStops_eq _ _ (by simpa using hc) (by rw [gap_samples, gap_after _ _ _ hi]; omega), gap_samples,
      gap_after _ _ _ hi, samples_cps]
  have hle : ∀ i, i ≤ m → i * k.cps ≤ gap e k := by
    intro i
    induction i with
    | zero => intro; omega
    | succ i ih =>
      intro hi
      have h := ha i (by omega)
      rw [key i (ih (by omega))] at h
      have := ih (by omega)
      simp only [decide_eq_false_iff_not] at h
      rw [Nat.succ_mul]
      omega
  have hmg : m ≤ gap e k / k.cps := (Nat.le_div_iff_mul_le h1).mpr (hle m le_rfl)
  have : m = min (gap e k / k.cps) (k.bufSize / 2) := by
    by_cases hlt : m < k.bufSize / 2
    · have h := hb hlt
      rw [key m (hle m le_rfl), decide_eq_true_iff] at h
      have hm1 : gap e k / k.cps < m + 1 := (Nat.div_lt_iff_lt_mul h1).mpr (by rw [Nat.succ_mul]; have := hle m le_rfl; omega)
      omega
    · omega
  rw [hf, this]

/-- Every event between two cursors short of the write cursor: the ring is not gone round. -/
theorem lt_of_forall_pending {r c w : Nat} (hr : r < size) (hw : w < size) (h : ∀ i < c, (r + i) % size ≠ w) : c < size := by
  by_contra hc
  refine h ((w + size - r) % size) (Nat.lt_of_lt_of_le (Nat.mod_lt _ (by omega)) (by omega)) ?_
  rw [Nat.add_mod_mod, show r + (w + size - r) = w + size by omega, Nat.add_mod_right, Nat.mod_eq_of_lt hw]

/-- What `m` samples do to the cursor and the level: `c` events are drained, each before the end of one of the samples, each
flips the level, and the event after them is not before the clock (R198, R207). -/
theorem after_cursor (m : Nat) (k : Speaker) (hk : k.ringRd < size) (hw : f.ringWr < size) :
    ∃ c < size, (after size f m k).ringRd = cursorAfter size k c ∧
      (after size f m k).level = (k.level ^^ decide (c % 2 = 1)) ∧
      (∀ i < c, ∃ j, 1 ≤ j ∧ j ≤ m ∧
        flipDue f { k with ringRd := cursorAfter size k i, sclk := k.sclk + BitVec.ofNat 31 (j * k.cps) } = true) ∧
      (1 ≤ m → flipDue f { k with ringRd := cursorAfter size k c, sclk := (after size f m k).sclk } = false) := by
  induction m with
  | zero =>
    exact ⟨0, by omega, by simp [after, cursorAfter, Nat.mod_eq_of_lt hk], by simp [after], by simp, by omega⟩
  | succ m ih =>
    obtain ⟨c, hc, h1, h2, h3, -⟩ := ih
    have ha : after size f (m + 1) k = drain size f size { after size f m k with sclk := sampleEnd (after size f m k) } := by
      rw [after_add]; rfl
    have hs : sampleEnd (after size f m k) = k.sclk + BitVec.ofNat 31 ((m + 1) * k.cps) := by
      rw [sampleEnd, after_sclk, after_cps, BitVec.add_assoc, ← BitVec.ofNat_add, Nat.succ_mul]
    have hcur : ∀ i, cursorAfter size { after size f m k with sclk := sampleEnd (after size f m k) } i =
        cursorAfter size k (c + i) := by
      intro i
      show ((after size f m k).ringRd + i) % size = _
      rw [h1, cursorAfter, cursorAfter, Nat.mod_add_mod, Nat.add_assoc]
    obtain ⟨d, hd, h4, h5, h6⟩ := drain_spec (f := f) size { after size f m k with sclk := sampleEnd (after size f m k) }
      (by show (after size f m k).ringRd < size; rw [h1]; exact Nat.mod_lt _ (by omega))
    obtain ⟨b, hb, hb'⟩ := drain_bound (f := f) { after size f m k with sclk := sampleEnd (after size f m k) }
      (by show (after size f m k).ringRd < size; rw [h1]; exact Nat.mod_lt _ (by omega)) hw
    have hdlt : d < size := by
      by_contra hn
      have := h4 b (by omega)
      rw [hb'] at this
      simp at this
    have hdue : ∀ i < c + d, ∃ j, 1 ≤ j ∧ j ≤ m + 1 ∧
        flipDue f { k with ringRd := cursorAfter size k i, sclk := k.sclk + BitVec.ofNat 31 (j * k.cps) } = true := by
      intro i hi
      by_cases hic : i < c
      · obtain ⟨j, hj1, hj2, hj⟩ := h3 i hic
        exact ⟨j, hj1, by omega, hj⟩
      · have := h4 (i - c) (by omega)
        rw [hcur, show c + (i - c) = i by omega, hs] at this
        exact ⟨m + 1, by omega, le_rfl, this⟩
    refine ⟨c + d, ?_, ?_, ?_, hdue, fun _ => ?_⟩
    · refine lt_of_forall_pending hk hw fun i hi => ?_
      obtain ⟨j, -, -, hj⟩ := hdue i hi
      simp only [flipDue, Bool.and_eq_true, decide_eq_true_eq] at hj
      exact hj.1
    · rw [ha, h6]; exact hcur d
    · rw [ha, h6]
      show ((after size f m k).level ^^ decide (d % 2 = 1)) = _
      rw [h2]
      rcases Nat.mod_two_eq_zero_or_one c with h | h <;> rcases Nat.mod_two_eq_zero_or_one d with h' | h' <;>
        simp [Nat.add_mod, h, h']
    · have := h5 hdlt
      rw [hcur] at this
      rw [ha, drain_sclk]
      exact this

/-- A refresh that catches up delivers the stream of the samples that are due, in nonempty chunks of which all but the last are
full, and leaves what those samples leave; how much fuel it has does not matter (R206 to R208, R226). -/
theorem refreshLoop_eq (e : Clock) (fuel : Nat) (k : Speaker) (h1 : 1 ≤ k.cps) (hc : k.cps ≤ 2 ^ 30) (hb : 2 ≤ k.bufSize)
    (hp : k.pcm.length = k.bufSize) (hg : gap e k < 2 ^ 30) (hf : gap e k / k.cps < fuel) :
    (refreshLoop size f e fuel k).1.flatten = stream size f (gap e k / k.cps) k ∧
    (∃ p : List Byte, p.length = k.bufSize ∧
      (refreshLoop size f e fuel k).2 = { after size f (gap e k / k.cps) k with pcm := p }) ∧
    (∀ c ∈ (refreshLoop size f e fuel k).1, 0 < c.length) ∧
    ∀ c ∈ (refreshLoop size f e fuel k).1.dropLast, c.length = 2 * (k.bufSize / 2) := by
  induction fuel generalizing k with
  | zero => exact absurd hf (Nat.not_lt_zero _)
  | succ fuel ih =>
    rw [refreshLoop, fill_eq e k h1 hc hg]
    dsimp only
    by_cases h0 : gap e k / k.cps = 0
    · rw [if_pos (by rw [h0]; simp), h0]
      exact ⟨rfl, ⟨k.pcm, hp, by simp [samples, after]⟩, by simp, by simp⟩
    · generalize hM : gap e k / k.cps = M at *
      generalize hm : min M (k.bufSize / 2) = m
      have hmg : m * k.cps ≤ gap e k := by
        rw [← Nat.le_div_iff_mul_le h1]; omega
      have hgap : gap e (samples size f m 0 k) = gap e k - m * k.cps := by rw [gap_samples, gap_after e m k hmg]
      have hq : gap e (samples size f m 0 k) / (samples size f m 0 k).cps = M - m := by
        rw [hgap, samples_cps, Nat.mul_comm m, Nat.sub_mul_div, hM]
      obtain ⟨i1, ⟨p, i2, i3⟩, i4, i5⟩ := ih (samples size f m 0 k) (by simpa using h1) (by simpa using hc) (by simpa using hb)
        (by simpa using hp) (by rw [hgap]; omega) (by rw [hq]; omega)
      rw [if_neg (by omega)]
      rw [hq] at i1 i3
      have hs := samples_eq (size := size) (f := f) m 0 k (by omega)
      simp only [List.take_zero, List.nil_append, Nat.zero_add] at hs
      have htake : (samples size f m 0 k).pcm.take (2 * m) = stream size f m k := by
        rw [hs]; exact List.take_left' (by simp)
      have hs' : samples size f m 0 k =
          { after size f m k with pcm := stream size f m k ++ k.pcm.drop (2 * m), bufSize := (after size f m k).bufSize } := hs
      have hstream : stream size f (M - m) (samples size f m 0 k) = stream size f (M - m) (after size f m k) := by
        rw [hs', stream_buffer]
      have hafter : ∃ q, after size f (M - m) (samples size f m 0 k) = { after size f M k with pcm := q } := by
        refine ⟨stream size f m k ++ k.pcm.drop (2 * m), ?_⟩
        rw [hs', after_buffer, show M = m + (M - m) by omega, after_add]
        simp
      obtain ⟨q, hq'⟩ := hafter
      refine ⟨?_, ⟨p, by simpa using i2, by rw [i3, hq']⟩, ?_, ?_⟩
      · rw [List.flatten_cons, htake, i1, hstream, ← stream_add, show m + (M - m) = M by omega]
      · intro c hc'
        rcases List.mem_cons.mp hc' with rfl | hc'
        · rw [htake, length_stream]; omega
        · exact i4 c hc'
      · intro c hc'
        generalize hR : (refreshLoop size f e fuel (samples size f m 0 k)).1 = R at *
        cases R with
        | nil => simp at hc'
        | cons r R =>
          rw [List.dropLast_cons_of_ne_nil (by simp)] at hc'
          rcases List.mem_cons.mp hc' with rfl | hc'
          · rw [htake, length_stream]
            have : M - m ≠ 0 := by
              intro hz
              rw [hz] at i1
              have h3 := i4 r (by simp)
              have := congrArg List.length i1
              simp only [stream, List.flatten_cons, List.length_append, List.length_nil] at this
              omega
            omega
          · simpa using i5 c hc'

/-! ### A fill, sample by sample -/

/-- Putting a sample two bytes further on, past two bytes more, is putting the same sample. -/
theorem sampleSlot_shift (n : Nat) (k : Speaker) (x y : Byte) (p : List Byte) (b d : Nat) :
    sampleSlot size f (n + 2) { k with pcm := x :: y :: p, bufSize := b } =
      { sampleSlot size f n { k with pcm := p, bufSize := d } with
        pcm := x :: y :: (sampleSlot size f n { k with pcm := p, bufSize := d }).pcm, bufSize := b } := by
  show emit (n + 2) (advance size f { k with pcm := x :: y :: p, bufSize := b }) =
    { emit n (advance size f { k with pcm := p, bufSize := d }) with
      pcm := x :: y :: (emit n (advance size f { k with pcm := p, bufSize := d })).pcm, bufSize := b }
  rw [advance_buffer k (x :: y :: p) b, advance_buffer k p d]
  simp [emit, pcmWrite]

/-- A fill that goes on two bytes further is the same fill of the rest of the buffer (R196). -/
theorem fillLoop_shift (e : Clock) (slots n : Nat) (k : Speaker) (x y : Byte) (p : List Byte) (b d : Nat) :
    fillLoop size f e slots (n + 2) { k with pcm := x :: y :: p, bufSize := b } =
      ((fillLoop size f e slots n { k with pcm := p, bufSize := d }).1 + 2,
        { (fillLoop size f e slots n { k with pcm := p, bufSize := d }).2 with
          pcm := x :: y :: (fillLoop size f e slots n { k with pcm := p, bufSize := d }).2.pcm, bufSize := b }) := by
  induction slots generalizing n k p with
  | zero => rfl
  | succ slots ih =>
    have hs : fillStops { k with pcm := x :: y :: p, bufSize := b } e = fillStops { k with pcm := p, bufSize := d } e := rfl
    rw [fillLoop, fillLoop, hs]
    by_cases h : fillStops { k with pcm := p, bufSize := d } e = true
    · rw [if_pos h, if_pos h]
    · rw [if_neg h, if_neg h, sampleSlot_shift (d := d)]
      have hd : (sampleSlot size f n { k with pcm := p, bufSize := d }).bufSize = d := sampleSlot_bufSize _ _
      generalize sampleSlot size f n { k with pcm := p, bufSize := d } = k' at *
      have := ih (n + 2) k' k'.pcm
      rw [this]
      obtain ⟨v, r, l, c, s, b', q, o⟩ := k'
      simp only at hd
      subst hd
      rfl

/-- A fill with room and no STOP is one sample and the fill of the rest of the buffer (R196). -/
theorem fill_of_not_stops (e : Clock) (k : Speaker) (hb : 2 ≤ k.bufSize) (hp : k.pcm.length = k.bufSize)
    (hs : fillStops k e = false) :
    fill size f e k =
      ((fill size f e { advance size f k with pcm := k.pcm.drop 2, bufSize := k.bufSize - 2 }).1 + 2,
        { (fill size f e { advance size f k with pcm := k.pcm.drop 2, bufSize := k.bufSize - 2 }).2 with
          pcm := word (advance size f k) ++ (fill size f e { advance size f k with pcm := k.pcm.drop 2, bufSize := k.bufSize - 2 }).2.pcm
          bufSize := k.bufSize }) := by
  have hslot := sampleSlot_eq (size := size) (f := f) 0 k (by omega)
  have hw : ({ advance size f k with pcm := k.pcm.take 0 ++ word (advance size f k) ++ k.pcm.drop (0 + 2) } : Speaker) =
      { advance size f k with
        pcm := (sample (advance size f k).level (advance size f k).volume).setWidth 8 ::
          (sample (advance size f k).level (advance size f k).volume >>> 8).setWidth 8 :: k.pcm.drop 2
        bufSize := k.bufSize } := by
    rw [← advance_bufSize (size := size) (f := f) k]; rfl
  obtain ⟨j, hj⟩ : ∃ j, k.bufSize / 2 = j + 1 := ⟨k.bufSize / 2 - 1, by omega⟩
  have hj' : (k.bufSize - 2) / 2 = j := by omega
  have := fillLoop_shift (size := size) (f := f) e j 0 (advance size f k)
    ((sample (advance size f k).level (advance size f k).volume).setWidth 8)
    ((sample (advance size f k).level (advance size f k).volume >>> 8).setWidth 8) (k.pcm.drop 2) k.bufSize (k.bufSize - 2)
  rw [fill, hj, fillLoop, hs, if_neg (by simp), hslot, hw]
  simp only [fill, hj']
  exact this

/-- Where no sample would move the clock a refresh delivers nothing (log 14). -/
theorem refresh_of_stands (e : Clock) (k : Speaker) (h : clockStands k = true) : refresh size f e k = ([], k) := by
  rw [refresh, if_pos h]

/-- Everywhere else a refresh is the chunk loop. -/
theorem refresh_of_moves (e : Clock) (k : Speaker) (h1 : 1 ≤ k.cps) (hc : k.cps ≤ 2 ^ 30) :
    refresh size f e k = refreshLoop size f e refreshBound k := by
  have : clockStands k = false := by
    rw [clockStands, decide_eq_false_iff_not]
    omega
  rw [refresh, this, if_neg (by simp)]

/-! ### Fuel, rings, early ends -/

/-- How much fuel a catching-up refresh has does not matter, if it is enough (R226). -/
theorem refreshLoop_fuel (e : Clock) (a b : Nat) (k : Speaker) (h1 : 1 ≤ k.cps) (hc : k.cps ≤ 2 ^ 30) (hb : 2 ≤ k.bufSize)
    (hg : gap e k < 2 ^ 30) (ha : gap e k / k.cps < a) (hb' : gap e k / k.cps < b) :
    refreshLoop size f e a k = refreshLoop size f e b k := by
  induction a generalizing b k with
  | zero => exact absurd ha (Nat.not_lt_zero _)
  | succ a ih =>
    cases b with
    | zero => exact absurd hb' (Nat.not_lt_zero _)
    | succ b =>
      rw [refreshLoop, refreshLoop, fill_eq e k h1 hc hg]
      dsimp only
      generalize hM : gap e k / k.cps = M at *
      generalize hm : min M (k.bufSize / 2) = m
      split_ifs with h0
      · rfl
      · have hmg : m * k.cps ≤ gap e k := by
          rw [← Nat.le_div_iff_mul_le h1]; omega
        have hgap : gap e (samples size f m 0 k) = gap e k - m * k.cps := by rw [gap_samples, gap_after e m k hmg]
        have hq : gap e (samples size f m 0 k) / (samples size f m 0 k).cps = M - m := by
          rw [hgap, samples_cps, Nat.mul_comm m, Nat.sub_mul_div, hM]
        rw [ih b (samples size f m 0 k) (by simpa using h1) (by simpa using hc) (by simpa using hb) (by rw [hgap]; omega)
          (by rw [hq]; omega) (by rw [hq]; omega)]

/-- Two rings that agree on what is due from the read cursor up to an event that is not give the same drain. -/
theorem drain_congr {g : FlipRing} (k : Speaker) (hk : k.ringRd < size) (p : Nat) (hp : p < size)
    (h : ∀ i ≤ p, flipDue f { k with ringRd := cursorAfter size k i } = flipDue g { k with ringRd := cursorAfter size k i })
    (hend : flipDue f { k with ringRd := cursorAfter size k p } = false) :
    drain size f size k = drain size g size k ∧
      ∃ c ≤ p, (drain size f size k).ringRd = cursorAfter size k c := by
  obtain ⟨c, hc, a1, a2, a3⟩ := drain_spec (f := f) size k hk
  obtain ⟨d, hd, b1, b2, b3⟩ := drain_spec (f := g) size k hk
  have hcp : c ≤ p := by
    by_contra hn
    have := a1 p (by omega)
    rw [hend] at this
    cases this
  have hdp : d ≤ p := by
    by_contra hn
    have := b1 p (by omega)
    rw [← h p le_rfl, hend] at this
    cases this
  have hcd : c = d := by
    rcases Nat.lt_trichotomy c d with hlt | heq | hlt
    · have := b1 c hlt
      rw [← h c hcp, a2 (by omega)] at this
      cases this
    · exact heq
    · have := a1 d hlt
      rw [h d hdp, b2 (by omega)] at this
      cases this
  subst hcd
  exact ⟨by rw [a3, b3], c, hcp, by rw [a3]⟩

/-- Two rings that agree on the `p` pending events of the first, and of which the second holds no further event that is due by
the end of one of `m` samples, give the same `m` samples (R208). -/
theorem after_congr {g : FlipRing} (m : Nat) (k : Speaker) (hk : k.ringRd < size) (p : Nat) (hp : p < size)
    (hf : f.ringWr = cursorAfter size k p)
    (hag : ∀ i < p, g.ringWr ≠ cursorAfter size k i ∧
      g.ring.getD (cursorAfter size k i) 0#31 = f.ring.getD (cursorAfter size k i) 0#31)
    (hend : ∀ j, 1 ≤ j → j ≤ m →
      flipDue g { k with ringRd := cursorAfter size k p, sclk := k.sclk + BitVec.ofNat 31 (j * k.cps) } = false) :
    after size f m k = after size g m k ∧ stream size f m k = stream size g m k := by
  induction m generalizing k p with
  | zero => exact ⟨rfl, rfl⟩
  | succ m ih =>
    have hinj : ∀ i < p, cursorAfter size k i ≠ cursorAfter size k p := by
      intro i hi he
      have hm : i ≡ p [MOD size] := Nat.ModEq.add_left_cancel' k.ringRd he
      exact absurd (hm.eq_of_lt_of_lt (by omega) hp) (by omega)
    have hfend : flipDue f { k with ringRd := cursorAfter size k p, sclk := sampleEnd k } = false := by
      rw [Bool.eq_false_iff, Ne, flipDue_iff]
      exact fun h => h.1 hf.symm
    have hgend := hend 1 le_rfl (by omega)
    rw [Nat.one_mul] at hgend
    obtain ⟨ha, c, hc, hcur⟩ := drain_congr (size := size) (f := f) (g := g) { k with sclk := sampleEnd k } hk p hp
      (fun i hi => by
        rcases Nat.lt_or_eq_of_le hi with hlt | rfl
        · rw [Bool.eq_iff_iff, flipDue_iff, flipDue_iff]
          show cursorAfter size k i ≠ f.ringWr ∧ 2 ^ 30 ≤ (f.ring.getD (cursorAfter size k i) 0#31 - sampleEnd k).toNat ↔
            cursorAfter size k i ≠ g.ringWr ∧ 2 ^ 30 ≤ (g.ring.getD (cursorAfter size k i) 0#31 - sampleEnd k).toNat
          rw [(hag i hlt).2, hf]
          exact and_congr_left fun _ => ⟨fun _ => (hag i hlt).1.symm, fun _ => hinj i hlt⟩
        · exact hfend.trans hgend.symm) hfend
    have hadv : advance size f k = advance size g k := ha
    have hr : (advance size f k).ringRd = cursorAfter size k c := hcur
    have hshift : ∀ i, cursorAfter size (advance size f k) i = cursorAfter size k (c + i) := by
      intro i
      rw [cursorAfter, hr, cursorAfter, cursorAfter, Nat.mod_add_mod, Nat.add_assoc]
    have := ih (advance size f k) (by rw [hr]; exact Nat.mod_lt _ (by omega)) (p - c) (by omega)
      (by rw [hshift, show c + (p - c) = p by omega]; exact hf)
      (fun i hi => by rw [hshift]; exact hag (c + i) (by omega))
      (fun j hj1 hj2 => by
        have := hend (j + 1) (by omega) (by omega)
        rw [Bool.eq_false_iff, Ne, flipDue_iff] at this ⊢
        have hs : (advance size f k).sclk + BitVec.ofNat 31 (j * (advance size f k).cps) =
            k.sclk + BitVec.ofNat 31 ((j + 1) * k.cps) := by
          rw [advance_sclk, advance_cps, sampleEnd, BitVec.add_assoc, ← BitVec.ofNat_add, Nat.add_mul, Nat.one_mul,
            Nat.add_comm]
        simpa only [hshift, show c + (p - c) = p by omega, hs] using this)
    rw [after, after, stream, stream, ← hadv]
    exact ⟨this.1, by rw [this.2]⟩

/-- A first fill that produces nothing ends the refresh (R206). -/
theorem refresh_of_fill_zero (e : Clock) (k : Speaker) (h : (fill size f e k).1 = 0) : refresh size f e k = ([], k) := by
  rw [refresh]
  split_ifs
  · rfl
  · have hk : fill size f e k = (0, k) := by
      obtain ⟨m, -, -, -, hm⟩ := fill_spec (size := size) (f := f) e k
      rw [hm] at h ⊢
      have : m = 0 := by simp only at h; omega
      rw [this, samples]
    show refreshLoop size f e (2 ^ 31 + 1) k = _
    generalize (2 ^ 31 : Nat) = n
    rw [refreshLoop, hk]
    rfl

/-! ### SPKREFRESH -/

/-- The three ways a refresh goes (R206). -/
theorem refreshed_cases (s : State) :
    (s.spk.sinkOpen = false ∧ refreshed s = s) ∨
    (s.spk.sinkOpen = true ∧ s.inp.audioAvailable = false ∧ refreshed s = callSink (.isAudioAvailable false) s) ∨
    (s.spk.sinkOpen = true ∧ s.inp.audioAvailable = true ∧
      refreshed s = deliver (callSink (.isAudioAvailable true) s)) := by
  unfold refreshed
  cases s.spk.sinkOpen <;> cases s.inp.audioAvailable <;> simp

@[simp] theorem deliver_cfg (s : State) : (deliver s).cfg = s.cfg := rfl
@[simp] theorem deliver_disk (s : State) : (deliver s).disk = s.disk := rfl
@[simp] theorem deliver_flips (s : State) : (deliver s).flips = s.flips := rfl
@[simp] theorem deliver_pdl (s : State) : (deliver s).pdl = s.pdl := rfl
@[simp] theorem deliver_inp (s : State) : (deliver s).inp = s.inp := rfl
@[simp] theorem deliver_queue (s : State) : (deliver s).queue = s.queue := rfl
@[simp] theorem deliver_draws (s : State) : (deliver s).draws = s.draws := rfl

@[simp] theorem refreshed_cfg (s : State) : (refreshed s).cfg = s.cfg := by unfold refreshed; split_ifs <;> rfl
@[simp] theorem refreshed_disk (s : State) : (refreshed s).disk = s.disk := by unfold refreshed; split_ifs <;> rfl
@[simp] theorem refreshed_flips (s : State) : (refreshed s).flips = s.flips := by unfold refreshed; split_ifs <;> rfl
@[simp] theorem refreshed_pdl (s : State) : (refreshed s).pdl = s.pdl := by unfold refreshed; split_ifs <;> rfl
@[simp] theorem refreshed_inp (s : State) : (refreshed s).inp = s.inp := by unfold refreshed; split_ifs <;> rfl
@[simp] theorem refreshed_queue (s : State) : (refreshed s).queue = s.queue := by unfold refreshed; split_ifs <;> rfl
@[simp] theorem refreshed_draws (s : State) : (refreshed s).draws = s.draws := by unfold refreshed; split_ifs <;> rfl

end Sys2Proof.Machine
end

