-- ==== Sys2Proof/Tests/Slice0.lean ====
section
/-! SUPPORT. The model's own tests. Expected values are taken from the spec: the words from 30_encoding.md R61 and R72, the
effects from 95_test_vectors.md (V and P numbers below). The last part shows, for every statement with hypotheses, a state and
operands that meet them. -/

namespace Sys2Proof.Tests

set_option Elab.async false

open Sys2Proof.Machine Sys2Proof.Claims

/-! ### States to test on -/

/-- Parameters with `ROM[k] = k` and a flip ring of 8 (V123, 95_test_vectors.md section 2.9). -/
def cfgT : Config :=
  { Config.standard with rom := (List.range 256).map (BitVec.ofNat 8), flipRingSize := 8, sampleRate := 20000 }

/-- Power-on with those parameters. -/
def s0 : State := State.powerOn cfgT

/-- The first 48 bytes of track 0 of DISK_A (V30) and the last structured nibble. -/
def trackA : Memory :=
  memOfBytes 0x7F#8 0
    (List.replicate 12 0xFF#8 ++
     [0xD5#8, 0xAA#8, 0x96#8, 0xFF#8, 0xFE#8, 0xAA#8, 0xAA#8, 0xAA#8, 0xAA#8, 0xFF#8, 0xFE#8, 0xDE#8, 0xAA#8, 0xEB#8] ++
     List.replicate 8 0xFF#8 ++
     [0xD5#8, 0xAA#8, 0xAD#8, 0x96#8, 0x96#8, 0x96#8, 0x96#8, 0x96#8, 0x96#8, 0x96#8, 0x96#8, 0x96#8, 0x96#8, 0x96#8])
    ++ [(6127, 0xEB#8)]

/-- `s0` with the controller changed. -/
def withDisk (f : Disk → Disk) : State := { s0 with disk := f { s0.disk with d0 := { s0.disk.d0 with trk := trackA } } }

/-- `s0` with the inputs changed. -/
def withClock (c : Nat) (s : State) : State := { s with inp := { s.inp with clockNow := BitVec.ofNat 31 c } }

/-- Inputs for which the poll predicate holds (R175, with B = -3). -/
def pollInputs : Inputs :=
  { Inputs.powerOn with
    pc := 0x1003#16, cpuMem := [(0x1000, 0x10#8), (0x1001, 0xFB#8), (0x1002, 0xC9#8), (0x1003, 0xD5#8)] }

/-- A running synthesizer (V80 to V95). -/
def withSpeaker (ring : List Nat) (wr vol cps buf sclk : Nat) (level : Bool) (clock : Nat) : State :=
  { s0 with
    flips := { ring := ring.map (BitVec.ofNat 31) ++ List.replicate (8 - ring.length) 0#31, ringWr := wr }
    spk := { volume := BitVec.ofNat 3 vol, ringRd := 0, level := level, cps := cps, sclk := BitVec.ofNat 31 sclk,
             bufSize := buf, pcm := List.replicate buf 0#8, sinkOpen := true }
    inp := { s0.inp with clockNow := BitVec.ofNat 31 clock, audioAvailable := true } }

/-- The state an operation leaves, none where it stops. -/
def after (i : Instr) (s : State) : Option State :=
  match exec i s with
  | .next t => some t
  | .fault _ => none
  | .refused _ => none

/-- A run of operations. -/
def afterAll : List Instr → State → Option State
  | [], s => some s
  | i :: l, s => (after i s).bind (afterAll l)

/-- The state a step leaves. -/
def afterStep (s : State) : Option State :=
  match step s with
  | .next t => some t
  | .fault _ => none
  | .refused _ => none

/-! ### Well-formedness: an ill-formed term for each check -/

theorem test_wf_split62 : (Instr.split62 (List.replicate 255 0#8)).wf = false := by decide +kernel
theorem test_wf_join62_hi : (Instr.join62 (List.replicate 255 0#6) (List.replicate 86 0#6)).wf = false := by decide +kernel
theorem test_wf_join62_lo : (Instr.join62 (List.replicate 256 0#6) (List.replicate 87 0#6)).wf = false := by decide +kernel
theorem test_wf_rdaddr : (Instr.rdaddr (List.replicate 13 0#8)).wf = false := by decide
theorem test_wf_wrdata_hi : (Instr.wrdata (List.replicate 257 0#6) (List.replicate 86 0#6)).wf = false := by decide +kernel
theorem test_wf_wrdata_lo : (Instr.wrdata (List.replicate 256 0#6) (List.replicate 85 0#6)).wf = false := by decide +kernel
theorem test_wf_rddata : (Instr.rddata (List.replicate 348 0#8)).wf = false := by decide +kernel
theorem test_wf_enctrack : (Instr.enctrack (List.replicate 4095 0#8) 0#8 0#8 .dos).wf = false := by decide +kernel
theorem test_wf_holds :
    (Instr.split62 (List.replicate 256 0#8)).wf = true ∧
    (Instr.join62 (List.replicate 256 0#6) (List.replicate 86 0#6)).wf = true ∧
    (Instr.rdaddr (List.replicate 14 0#8)).wf = true ∧
    (Instr.rddata (List.replicate 349 0#8)).wf = true ∧
    (Instr.enctrack (List.replicate 4096 0#8) 0#8 0#8 .dos).wf = true := by decide +kernel

/-! ### Decoding: every constructor from a word written out from R61 or R72 -/

theorem test_decode_reads :
    [0xC080, 0xC081, 0xC082, 0xC083, 0xC084, 0xC085, 0xC086, 0xC087].map (fun a => decodeAccess (.ioRead a)) =
      [.ok .rdPh0off, .ok .rdPh0on, .ok .rdPh1off, .ok .rdPh1on, .ok .rdPh2off, .ok .rdPh2on, .ok .rdPh3off, .ok .rdPh3on] ∧
    [0xC0E8, 0xC0E9, 0xC0EA, 0xC0EB, 0xC0EC, 0xC0ED, 0xC0EE, 0xC0EF].map (fun a => decodeAccess (.ioRead a)) =
      [.ok .rdMotoroff, .ok .rdMotoron, .ok .rdDrv0, .ok .rdDrv1, .ok .rdShift, .ok .rdLoad, .ok .rdRdmode, .ok .rdWrmode] := by
  decide +kernel

theorem test_decode_writes :
    [0, 1, 2, 3, 4, 5, 6, 7].map (fun a => decodeAccess (.ioWrite a 0x5A#8)) =
      [.ok (.wrPh0off 0x5A#8), .ok (.wrPh0on 0x5A#8), .ok (.wrPh1off 0x5A#8), .ok (.wrPh1on 0x5A#8),
       .ok (.wrPh2off 0x5A#8), .ok (.wrPh2on 0x5A#8), .ok (.wrPh3off 0x5A#8), .ok (.wrPh3on 0x5A#8)] ∧
    [8, 9, 10, 11, 12, 13, 14, 15].map (fun a => decodeAccess (.ioWrite a 0x5A#8)) =
      [.ok (.wrMotoroff 0x5A#8), .ok (.wrMotoron 0x5A#8), .ok (.wrDrv0 0x5A#8), .ok (.wrDrv1 0x5A#8),
       .ok (.wrShift 0x5A#8), .ok (.wrLoad 0x5A#8), .ok (.wrRdmode 0x5A#8), .ok (.wrWrmode 0x5A#8)] := by
  decide +kernel

theorem test_decode_port :
    decodeAccess (.host [0x00#8, 0xFF#8, 0xFF#8, 0x03#8]) = .ok (.niord 0xFFFF) ∧
    decodeAccess (.host [0x01#8, 0x05#8, 0xAB#8]) = .ok (.niowr 5 0xAB#8) ∧
    decodeAccess (.host [0x02#8, 0x00#8]) = .ok (.nmemrd 0) ∧
    decodeAccess (.host [0x03#8, 0x00#8, 0x01#8]) = .ok (.nmemwr 0 1#8) ∧
    decodeAccess (.host [0x04#8]) = .ok .nreset := by decide +kernel

theorem test_decode_codec :
    decodeAccess (.host [0x10#8, 0xFE#8]) = .ok (.enc44 0xFE#8) ∧
    decodeAccess (.host [0x11#8, 0xD5#8, 0xAA#8]) = .ok (.dec44 0xD5#8 0xAA#8) ∧
    decodeAccess (.host (0x12#8 :: List.replicate 256 0x07#8)) = .ok (.split62 (List.replicate 256 0x07#8)) ∧
    decodeAccess (.host (0x13#8 :: (List.replicate 256 0x01#8 ++ List.replicate 86 0x3F#8))) =
      .ok (.join62 (List.replicate 256 0x01#6) (List.replicate 86 0x3F#6)) ∧
    decodeAccess (.host [0x14#8, 0x0C#8]) = .ok (.wrsync 12) ∧
    decodeAccess (.host [0x15#8, 0xFE#8, 0x11#8, 0x0F#8]) = .ok (.wraddr 254#8 17#8 15#8) ∧
    decodeAccess (.host (0x16#8 :: List.replicate 14 0xAA#8)) = .ok (.rdaddr (List.replicate 14 0xAA#8)) := by
  decide +kernel

theorem test_decode_fields :
    decodeAccess (.host (0x17#8 :: (List.replicate 256 0x01#8 ++ List.replicate 86 0x3F#8))) =
      .ok (.wrdata (List.replicate 256 0x01#6) (List.replicate 86 0x3F#6)) ∧
    decodeAccess (.host (0x18#8 :: List.replicate 349 0x96#8)) = .ok (.rddata (List.replicate 349 0x96#8)) := by
  decide +kernel

theorem test_decode_enctrack (data : List Byte) (h : data.length = 4096) :
    decodeAccess (.host (0x19#8 :: (data ++ [0xFE#8, 0x05#8, 0x01#8]))) = .ok (.enctrack data 254#8 5#8 .prodos) := by
  simp [decodeAccess, decodeHop, takeBytes_append h, takeByte, takeOrder]

theorem test_decode_loader :
    decodeAccess (.host [0x20#8, 0x01#8, 0x02#8, 0x03#8, 0x0A#8, 0x0B#8, 0x0C#8, 0x01#8]) =
      .ok (.mount .d1 .nib [0x0A#8, 0x0B#8, 0x0C#8] true) ∧
    decodeAccess (.host [0x20#8, 0x00#8, 0x03#8, 0x02#8, 0x0A#8, 0x0B#8]) = .ok (.mount .d0 .dos [0x0A#8, 0x0B#8] false) ∧
    decodeAccess (.host [0x21#8, 0x00#8]) = .ok (.unmount .d0) := by decide +kernel

theorem test_decode_window :
    decodeAccess (.host [0x30#8, 0xA3#8, 0x02#8]) = .ok (.dmemrd 0x123) ∧
    decodeAccess (.host [0x31#8, 0x10#8, 0xAA#8]) = .ok (.dmemwr 0x10 0xAA#8) ∧
    decodeAccess (.host [0x32#8]) = .ok .dreset := by decide +kernel

theorem test_decode_speaker :
    decodeAccess (.host [0x40#8]) = .ok .spktoggle ∧
    decodeAccess (.host [0x41#8, 0x58#8, 0x02#8, 0x00#8, 0x40#8]) = .ok (.spkfill 0x40000258#31) ∧
    decodeAccess (.host [0x42#8]) = .ok .spkrefresh ∧ decodeAccess (.host [0x43#8, 0x09#8]) = .ok (.spkvol 9) ∧
    decodeAccess (.host [0x44#8]) = .ok .spkpause ∧ decodeAccess (.host [0x45#8]) = .ok .spkresume ∧
    decodeAccess (.host [0x46#8]) = .ok .spkreset := by decide +kernel

theorem test_decode_paddles :
    decodeAccess (.host [0x50#8, 0x00#8, 0xFF#8]) = .ok (.pdlset 0 255#8) ∧
    decodeAccess (.host [0x51#8]) = .ok .pdltrig ∧ decodeAccess (.host [0x52#8, 0x05#8]) = .ok (.pdlread 5) ∧
    decodeAccess (.host [0x53#8, 0x06#8, 0x01#8]) = .ok (.btnset 6 true) ∧
    decodeAccess (.host [0x54#8, 0x02#8]) = .ok (.btnread 2) ∧ decodeAccess (.host [0x55#8]) = .ok .pdlreset := by
  decide +kernel

theorem test_decode_rejects :
    decodeAccess (.host []) = .error .emptyRequest ∧ decodeAccess (.host [0x05#8]) = .error (.noOperation 0x05#8) ∧
    decodeAccess (.host [0x11#8, 0xD5#8]) = .error .operandMissing ∧
    decodeAccess (.host [0x21#8, 0x02#8]) = .error .operandRange ∧
    decodeAccess (.host [0x41#8, 0x00#8, 0x00#8, 0x00#8, 0x80#8]) = .error .operandRange := by decide +kernel

/-! ### The step and the table words -/

theorem test_step_from_reset :
    (afterStep (State.reset.withFetchWord 5 0x09)).map (fun t => (t.disk.motorOn, t.draws, t.queue)) = some (true, 1, []) := by
  decide +kernel
theorem test_step_host_word :
    (afterStep ({ State.reset with disk := { State.reset.disk with motorOn := true } }.withFetchWord 8 0x32)).map
      (·.disk.motorOn) = some false := by decide +kernel
theorem test_step_idle : (afterStep State.reset).map (·.draws) = some 0 := by decide
theorem test_step_refuses :
    step { s0 with queue := [{ access := .host [0x05#8], inputs := s0.inp }] } =
      .refused (.undecodable (.noOperation 0x05#8)) := by rfl

/-! ### The Disk II controller (95_test_vectors.md section 2.8) -/

/-- The positions and magnets after each prefix of a run. -/
def heads (s : State) : List Instr → List (Nat × Nat × Nat)
  | [] => []
  | i :: l =>
    match after i s with
    | none => []
    | some t => (t.disk.phases.toNat, t.disk.d0.pos.val, t.disk.d1.pos.val) :: heads t l

/-- V51, V52. -/
theorem test_stepper_walks :
    heads s0 [.rdPh1on, .rdPh1off, .rdPh2on, .rdPh2off] = [(2, 1, 0), (0, 1, 0), (4, 2, 0), (0, 2, 0)] ∧
    heads s0 [.rdPh3on, .rdPh3off] = [(8, 0, 0), (0, 0, 0)] := by decide

/-- V53. -/
theorem test_stepper_clamps :
    heads (withDisk fun k => { k with d0 := { k.d0 with pos := 69 } }) [.wrPh2on 0x11#8, .wrPh2off 0x11#8] =
      [(4, 69, 0), (0, 69, 0)] := by decide

/-- V54. -/
theorem test_stepper_repeats :
    heads s0 [.rdPh1on, .rdPh2on, .rdPh2on, .rdPh2on, .rdPh2off, .rdPh1off] =
      [(2, 1, 0), (6, 2, 0), (6, 1, 0), (6, 2, 0), (2, 1, 0), (0, 1, 0)] := by decide

/-- V57. -/
theorem test_stepper_per_drive :
    heads s0 [.rdPh1on, .rdDrv1, .rdPh2on, .rdPh1on] = [(2, 1, 0), (2, 1, 0), (6, 1, 1), (6, 1, 2)] := by decide

/-- V59, V61: the magnets that are no neighbour of half-track 0; the write forms do the same. -/
theorem test_stepper_other_magnets :
    heads s0 [.wrPh0on 0x11#8, .wrPh0off 0x11#8, .rdPh0on, .rdPh0off] = [(1, 0, 0), (0, 0, 0), (1, 0, 0), (0, 0, 0)] ∧
    heads s0 [.wrPh1on 0x11#8, .wrPh1off 0x11#8, .wrPh3on 0x11#8, .wrPh3off 0x11#8] =
      [(2, 1, 0), (0, 1, 0), (8, 1, 0), (0, 1, 0)] := by decide

/-- The latch and the result a run leaves. -/
def latchAndResult (s : State) (l : List Instr) : Option (Byte × Result) :=
  (afterAll l s).map (fun t => (t.disk.latch, t.result))

/-- V58, V63, V64, V65: even reads return the latch. -/
theorem test_even_reads :
    latchAndResult (withDisk fun k => { k with latch := 0x3C#8 }) [.rdMotoroff] = some (0x3C#8, .byte 0x3C#8) ∧
    latchAndResult (withDisk fun k => { k with latch := 0x3C#8 }) [.rdDrv0] = some (0x3C#8, .byte 0x3C#8) ∧
    latchAndResult (withDisk fun k => { k with latch := 0x3C#8 }) [.rdRdmode] = some (0x3C#8, .byte 0x3C#8) := by
  decide +kernel

/-- V63, V64, V65, V66: the switches' own fields. -/
theorem test_switch_fields :
    (afterAll [.rdMotoron, .rdDrv1, .rdWrmode, .rdLoad] s0).map
      (fun t => (t.disk.motorOn, t.disk.drive, t.disk.writeMode, t.disk.loadMode, t.draws)) =
      some (true, .d1, true, true, 4) ∧
    (afterAll [.wrMotoron 1#8, .wrDrv1 1#8, .wrMotoroff 1#8, .wrDrv0 1#8] s0).map
      (fun t => (t.disk.motorOn, t.disk.drive, t.disk.latch, t.draws)) = some (false, .d0, 0x00#8, 0) := by decide +kernel

/-- V67, V68: the write-latch rule looks at the state after the switch effect. -/
theorem test_write_latch_motor :
    latchAndResult (withDisk fun k => { k with writeMode := true, loadMode := true }) [.wrMotoron 0x42#8] =
      some (0x42#8, .none) ∧
    latchAndResult (withDisk fun k => { k with motorOn := true, writeMode := true, loadMode := true }) [.wrMotoroff 0x42#8] =
      some (0x00#8, .none) := by decide +kernel

/-- V75, V76. -/
theorem test_write_latch_modes :
    latchAndResult (withDisk fun k => { k with motorOn := true, loadMode := true }) [.wrWrmode 0x99#8] = some (0x99#8, .none) ∧
    latchAndResult (withDisk fun k => { k with motorOn := true, writeMode := true, latch := 0x10#8 }) [.wrPh0off 0x77#8] =
      some (0x10#8, .none) := by decide +kernel

/-- V74. -/
theorem test_write_latch_any_address :
    (afterAll [.wrPh0off 0x77#8, .wrShift 0x55#8, .wrRdmode 0x66#8]
      (withDisk fun k => { k with motorOn := true, writeMode := true, loadMode := true })).map
      (fun t => (t.disk.latch, t.disk.off.val, t.disk.loadMode, trackByte t.disk .d0 0 0)) =
      some (0x77#8, 1, false, 0x77#8) := by decide +kernel

/-- V69: the sense is seen one access late. -/
theorem test_sense :
    latchAndResult (withDisk fun k => { k with latch := 0x12#8, d0 := { k.d0 with wp := true } })
      [.rdMotoron, .rdLoad, .rdRdmode] = some (0x92#8, .byte 0x92#8) := by decide +kernel

/-- V71, V72, V73. -/
theorem test_sense_gates :
    (after .rdLoad (withDisk fun k =>
      { k with motorOn := true, writeMode := true, latch := 0x12#8, d0 := { k.d0 with wp := true } })).map (·.disk.latch) =
      some 0x12#8 ∧
    (after (.wrLoad 0x55#8) (withDisk fun k =>
      { k with motorOn := true, latch := 0x12#8, d0 := { k.d0 with wp := true } })).map (·.disk.latch) = some 0x12#8 ∧
    (after .rdLoad (withDisk fun k =>
      { k with drive := .d1, motorOn := true, latch := 0xFF#8, d0 := { k.d0 with wp := true } })).map (·.disk.latch) =
      some 0x7F#8 := by decide +kernel

/-- V77, V78, V116: a read cycle. -/
theorem test_shift_reads :
    (after .rdShift (withDisk fun k => { k with motorOn := true, off := 12, loadMode := true })).map
      (fun t => (t.result, t.disk.off.val, t.disk.loadMode)) = some (.byte 0xD5#8, 13, false) ∧
    (after (.wrShift 0x55#8) (withDisk fun k => { k with motorOn := true })).map
      (fun t => (t.result, t.disk.latch, t.disk.off.val)) = some (.none, 0xFF#8, 1) := by decide +kernel

/-- V79, V112: the poll scan, across the end of the buffer. -/
theorem test_shift_polls :
    (after .rdShift { withDisk (fun k => { k with motorOn := true, off := 2 }) with inp := pollInputs }).map
      (fun t => (t.result, t.disk.off.val)) = some (.byte 0xD5#8, 13) ∧
    (after .rdShift { withDisk (fun k => { k with motorOn := true, off := 6500 }) with inp := pollInputs }).map
      (fun t => (t.result, t.disk.off.val)) = some (.byte 0xD5#8, 13) := by decide +kernel

/-- V113, V115: the sentinel scan wraps; a scan that finds nothing ends where it began. -/
theorem test_shift_sentinel :
    (afterAll [.rdShift, .rdShift] (withDisk fun k => { k with motorOn := true, off := 6127 })).map
      (fun t => (t.result, t.disk.off.val)) = some (.byte 0xFF#8, 1) ∧
    (after .rdShift (withDisk fun k => { k with drive := .d1, motorOn := true, off := 100 })).map
      (fun t => (t.result, t.disk.off.val)) = some (.byte 0x7F#8, 101) := by decide +kernel

/-- V118: the wrap of the spin counter. -/
theorem test_spin :
    (after .rdShift (withDisk fun k => { k with off := 12, spin := 15#4, loadMode := true })).map
      (fun t => (t.result, t.disk.off.val, t.disk.spin, t.disk.loadMode)) = some (.byte 0x7F#8, 12, 0#4, false) ∧
    (after .rdShift (withDisk fun k => { k with off := 12, spin := 14#4 })).map
      (fun t => (t.result, t.disk.off.val, t.disk.spin)) = some (.byte 0xD5#8, 13, 15#4) := by decide +kernel

/-- V120, V121: a write cycle at the end of the buffer, and on a protected disk. -/
theorem test_shift_stores :
    (after .rdShift (withDisk fun k => { k with writeMode := true, latch := 0x33#8, off := 6655, spin := 5#4 })).map
      (fun t => (t.result, t.disk.off.val, t.disk.spin, trackByte t.disk .d0 0 6655)) =
      some (.byte 0x33#8, 0, 5#4, 0x33#8) ∧
    (after .rdShift (withDisk fun k =>
      { k with motorOn := true, writeMode := true, latch := 0x44#8, off := 3, d0 := { k.d0 with wp := true } })).map
      (fun t => trackByte t.disk .d0 0 3) = some 0x44#8 := by decide +kernel

/-- P3: two nibbles written over a track. -/
theorem test_write_two_nibbles :
    (afterAll [.rdMotoron, .rdWrmode, .wrLoad 0xD5#8, .rdShift, .wrLoad 0xAA#8, .rdShift, .rdRdmode]
      (withDisk fun k => { k with off := 20 })).map
      (fun t => (t.disk.latch, t.disk.off.val, [18, 19, 20, 21, 22, 23].map (trackByte t.disk .d0 0))) =
      some (0xAA#8, 22, [0xAA#8, 0xAA#8, 0xD5#8, 0xAA#8, 0xFE#8, 0xDE#8]) := by decide +kernel

/-- V123. -/
theorem test_rom :
    (after (.dmemrd 0x123) s0).map (·.result) = some (.byte 0x23#8) ∧
    (afterAll [.dmemwr 0x10 0xAA#8, .dmemrd 0x10] s0).map (·.result) = some (.byte 0x10#8) := by decide +kernel

/-- V124. -/
theorem test_dreset :
    (after .dreset (withDisk fun k => { k with motorOn := true, latch := 0xD5#8, off := 77, spin := 3#4 })).map
      (fun t => (t.disk.motorOn, t.disk.latch, t.disk.off.val, t.disk.spin)) = some (false, 0xD5#8, 77, 3#4) := by
  decide +kernel

/-! ### The null device (V1 to V3) -/

theorem test_null_device :
    (afterAll [.niord 0, .nmemrd 0xFFFF] s0).map (·.draws) = some 2 ∧
    (afterAll [.niowr 5 0xAB#8, .nmemwr 0 1#8, .nreset] s0).map (fun t => (t.result, t.draws)) = some (.none, 0) := by
  decide +kernel

/-! ### The codec (sections 2.2 to 2.6) -/

/-- The result of an operation on `s0`. -/
def resultOf (i : Instr) : Option Result := (after i s0).map (·.result)

/-- V8, V9. -/
theorem test_enc44 :
    resultOf (.enc44 0xFE#8) = some (.nibbles [0xFF#8, 0xFE#8]) ∧ resultOf (.enc44 0x7F#8) = some (.nibbles [0xBF#8, 0xFF#8]) := by
  decide +kernel

/-- V8 and section 2.2. -/
theorem test_dec44 :
    resultOf (.dec44 0xFF#8 0xFE#8) = some (.byte 0xFE#8) ∧ resultOf (.dec44 0xD5#8 0xAA#8) = some (.byte 0xAA#8) := by
  decide +kernel

/-- The bytes `b[i] = i` (V17). -/
def ramp : List Byte := (List.range 256).map (BitVec.ofNat 8)

/-- Their low values (V17). -/
def rampLow : List Six := (List.replicate 21 [0x2E#6, 0x04#6, 0x3B#6, 0x11#6]).flatten ++ [0x2E#6, 0x04#6]

/-- Their high values (V17). -/
def rampHigh : List Six := (List.range 256).map (fun i => BitVec.ofNat 6 (i / 4))

/-- V17. -/
theorem test_split62 : resultOf (.split62 ramp) = some (.split rampHigh rampLow) := by decide +kernel

/-- V17. -/
theorem test_join62 : resultOf (.join62 rampHigh rampLow) = some (.bytes ramp) := by decide +kernel

theorem test_wrsync : resultOf (.wrsync 3) = some (.nibbles [0xFF#8, 0xFF#8, 0xFF#8]) := by decide +kernel

/-- V19. -/
def fieldV19 : List Byte :=
  [0xD5#8, 0xAA#8, 0x96#8, 0xFF#8, 0xFE#8, 0xAA#8, 0xBB#8, 0xAF#8, 0xAF#8, 0xFA#8, 0xEA#8, 0xDE#8, 0xAA#8, 0xEB#8]

theorem test_wraddr : resultOf (.wraddr 254#8 17#8 15#8) = some (.nibbles fieldV19) := by decide +kernel

/-- V19; a wrong checksum, with no partial result (D27); and the field of 0, 0, 0 (V22) with nibble 3 changed to 2A, a zero in
bit 7, which R73 rejects (log 23). -/
theorem test_rdaddr :
    resultOf (.rdaddr fieldV19) = some (.address 254#8 17#8 15#8) ∧
    resultOf (.rdaddr (fieldV19.set 10 0xEB#8)) = some .addressRejected ∧
    resultOf (.rdaddr ((wraddr 0#8 0#8 0#8).set 3 0x2A#8)) = some .addressRejected := by decide +kernel

/-- V29: the data field of the ramp, at the offsets the vector lists. -/
theorem test_wrdata :
    (match resultOf (.wrdata rampHigh rampLow) with
      | some (.nibbles l) => (l.take 12, slice l 86 10, slice l 340 9)
      | _ => ([], [], [])) =
      ([0xD5#8, 0xAA#8, 0xAD#8, 0x9D#8, 0xE6#8, 0xFF#8, 0xE6#8, 0xFF#8, 0xE6#8, 0xFF#8, 0xE6#8, 0xFF#8],
       [0xE6#8, 0xFF#8, 0xE6#8, 0xEB#8, 0x96#8, 0x96#8, 0x96#8, 0x97#8, 0x96#8, 0x96#8],
       [0x96#8, 0x97#8, 0x96#8, 0x96#8, 0x96#8, 0xFF#8, 0xDE#8, 0xAA#8, 0xEB#8]) := by decide +kernel

/-- V23: the data field of 256 zeros. -/
def fieldV23 : List Byte := [0xD5#8, 0xAA#8, 0xAD#8] ++ List.replicate 343 0x96#8 ++ [0xDE#8, 0xAA#8, 0xEB#8]

theorem test_rddata : resultOf (.rddata fieldV23) = some (.sector (List.replicate 256 0#8) true) := by decide +kernel

/-- The negative cases of section 2.5. -/
theorem test_rddata_rejects :
    [fieldV23.set 100 0xD5#8, fieldV23.set 100 0x97#8, fieldV23.set 2 0x96#8, fieldV23.set 348 0xEA#8].map
      (rddata Config.standard) = [none, none, none, none] := by decide +kernel

/-- V31: one byte value per logical sector. -/
def imageV31 : List Byte := (List.range 16).flatMap (fun l => List.replicate 256 (BitVec.ofNat 8 l))

/-- V31, V32: sectors of track 5: the address field and the first data nibbles, and the interleave. -/
theorem test_encode_sector :
    slice (encSector cfgT imageV31 254#8 5#8 .dos 2) 12 14 =
      [0xD5#8, 0xAA#8, 0x96#8, 0xFF#8, 0xFE#8, 0xAA#8, 0xAF#8, 0xAB#8, 0xAA#8, 0xFE#8, 0xFB#8, 0xDE#8, 0xAA#8, 0xEB#8] ∧
    slice (encSector cfgT imageV31 254#8 5#8 .dos 2) 37 3 = [0xBA#8, 0x96#8, 0x96#8] ∧
    (interleave cfgT .prodos).getD 1 0 = 8 ∧ sectorData imageV31 8 = List.replicate 256 0x08#8 := by
  decide +kernel

/-! ### The image loader (section 2.7) -/

/-- The header of V37, with its magic's last byte, its header size, its format and its block count open. -/
def header (m size format blocks : Byte) : List Byte :=
  [0x32#8, 0x49#8, 0x4D#8, m, 0x00#8, 0x00#8, 0x00#8, 0x00#8, size, 0x00#8, 0x01#8, 0x00#8, format, 0x00#8, 0x00#8, 0x00#8] ++
  [0x01#8, 0x01#8, 0x00#8, 0x80#8, blocks, 0x01#8, 0x00#8, 0x00#8] ++ List.replicate 40 0#8

/-- V38, V39, V40: the failing headers; the drive keeps its buffers. -/
theorem test_mount_header_faults :
    [header 0x47#8 0x40#8 0x01#8 0x19#8, header 0x48#8 0x40#8 0x01#8 0x19#8, header 0x47#8 0x34#8 0x01#8 0x18#8,
     header 0x47#8 0x40#8 0x03#8 0x18#8, (header 0x47#8 0x40#8 0x01#8 0x18#8).take 63,
     header 0x47#8 0x40#8 0x01#8 0x18#8].map
      (fun h => resultOf (.mount .d0 .img2 h false)) =
      [some (.failed (.formatError .numBlocks)), some (.failed (.formatError .magic)),
       some (.failed (.formatError .headerSize)), some (.failed (.formatError .imageFormat)),
       some (.failed (.formatError .truncated)), some (.failed (.formatError .truncated))] := by decide +kernel

/-- V34, V40: a nibble image of exactly 35 x 6656 bytes loads, one byte less does not. -/
theorem test_mount_nib :
    (∃ tracks, loadImage cfgT .nib (List.replicate 232960 0x00#8) true = .ok (true, tracks)) ∧
    loadImage cfgT .nib (List.replicate 232959 0x00#8) true = .error .truncated := by
  constructor
  · rw [loadImage_of_image (hint := .nib) rfl, if_neg (by rw [List.length_replicate]; decide)]
    exact ⟨_, rfl⟩
  · rw [loadImage_of_image (hint := .nib) rfl, if_pos (by rw [List.length_replicate]; decide)]

/-- V34: the bytes of the buffers are those of the image, 7F and non-nibbles among them. -/
theorem test_mount_verbatim :
    [0, 1, 2, 3, 4].map (memRead 0x7F#8 (trkWriteAll [[0x00#8, 0x7F#8], [0x55#8, 0xFF#8]])) =
      [0x00#8, 0x7F#8, 0x55#8, 0xFF#8, 0x7F#8] := by decide

/-- V43. -/
theorem test_unmount : after (.unmount .d0) s0 = some s0 := by rfl

/-- R101's names. -/
theorem test_hints :
    [hintOfFilename ['G', '.', '2', 'M', 'G'], hintOfFilename ['g', '.', '2', 'i', 'm', 'g'], hintOfFilename ['a', '.', 'p', 'o'],
     hintOfFilename ['A', '.', 'N', 'I', 'B'], hintOfFilename ['x', '.', 'd', 's', 'k'], hintOfFilename ['x']] =
      [.img2, .img2, .po, .nib, .dos, .dos] := by decide +kernel

/-! ### The speaker (section 2.9) -/

/-- V96. -/
theorem test_toggle :
    (after .spktoggle (withClock 1234 s0)).map (fun t => (t.flips.ring.getD 0 0#31, t.flips.ringWr)) = some (1234#31, 1) ∧
    (after .spktoggle { withClock 1234 s0 with flips := { ring := List.replicate 8 0#31, ringWr := 7 } }).map
      (fun t => (t.flips.ring.getD 7 0#31, t.flips.ringWr)) = some (1234#31, 0) := by decide +kernel

/-- V80: R209's twelve samples, in one chunk where the buffer has room for exactly them, and where it has more. -/
theorem test_refresh_example :
    [24, 25, 64].map (fun buf => (after .spkrefresh (withSpeaker [100, 150, 500] 3 4 50 buf 0 false 600)).map
      (fun t => (delivered (withSpeaker [100, 150, 500] 3 4 50 buf 0 false 600) t).map
        (fun c => (List.range 12).map (fun m => c.getD (2 * m + 1) 0#8)))) =
      List.replicate 3 (some [[0xF0#8, 0xF0#8, 0x10#8, 0xF0#8, 0xF0#8, 0xF0#8, 0xF0#8, 0xF0#8, 0xF0#8, 0xF0#8, 0x10#8, 0x10#8]]) := by
  decide +kernel

/-- V81: the samples of V80 in three chunks. -/
theorem test_refresh :
    (after .spkrefresh (withSpeaker [100, 150, 500] 3 4 50 11 0 false 600)).map
      (fun t => (t.sinkCalls, t.spk.sclk, t.spk.ringRd, t.spk.level)) =
      some ([.isAudioAvailable true,
             .audioWrite [0x00#8, 0xF0#8, 0x00#8, 0xF0#8, 0x00#8, 0x10#8, 0x00#8, 0xF0#8, 0x00#8, 0xF0#8],
             .audioWrite [0x00#8, 0xF0#8, 0x00#8, 0xF0#8, 0x00#8, 0xF0#8, 0x00#8, 0xF0#8, 0x00#8, 0xF0#8],
             .audioWrite [0x00#8, 0x10#8, 0x00#8, 0x10#8]], 600#31, 3, true) := by decide +kernel

/-- V86, V90: a stale clock, and less than one sample. -/
theorem test_refresh_delivers_nothing :
    (after .spkrefresh (withSpeaker [] 0 4 50 64 0 false (2 ^ 30 + 5))).map (fun t => (t.sinkCalls, t.spk.sclk)) =
      some ([.isAudioAvailable true], 0#31) ∧
    (after .spkrefresh (withSpeaker [] 0 4 50 64 0 false 49)).map (fun t => (t.sinkCalls, t.spk.sclk)) =
      some ([.isAudioAvailable true], 0#31) := by decide +kernel

/-- V83: three events in one window. -/
theorem test_fill :
    (after (.spkfill 100#31) (withSpeaker [10, 20, 30, 60] 4 1 50 6 0 false 0)).map
      (fun t => (t.result, t.spk.pcm.take 4, t.spk.ringRd, t.spk.level)) =
      some (.count 4, [0x00#8, 0x02#8, 0x00#8, 0xFE#8], 4, false) := by decide +kernel

/-- V87: a fill across the wrap of the clock. -/
theorem test_fill_wraps :
    (after (.spkfill 100#31) (withSpeaker [2 ^ 31 - 30, 20] 2 4 50 8 (2 ^ 31 - 100) false 0)).map
      (fun t => (t.spk.pcm, t.spk.sclk, t.spk.level)) =
      some ([0x00#8, 0xF0#8, 0x00#8, 0x10#8, 0x00#8, 0xF0#8, 0x00#8, 0xF0#8], 100#31, false) := by decide +kernel

/-- V97 (with P4's rate), V98. -/
theorem test_resume :
    (after .spkresume { s0 with inp := { s0.inp with cpuSpeedKHz := 1000, initAudio := some 16 } }).map
      (fun t => (t.result, t.spk.cps, t.spk.bufSize, t.spk.sinkOpen, t.sinkCalls)) =
      some (.ok, 50, 16, true, [.initAudio (some 16)]) ∧
    (after .spkresume { s0 with inp := { s0.inp with cpuSpeedKHz := 19, initAudio := some 16 } }).map
      (fun t => (t.result, t.spk.sinkOpen, t.sinkCalls)) = some (.failed .resourceUnavailable, false, []) := by decide +kernel

/-- V99. -/
theorem test_pause :
    (afterAll [.spkpause, .spkpause] (withSpeaker [] 0 4 50 8 0 false 0)).map (fun t => (t.sinkCalls, t.spk.sinkOpen)) =
      some ([.closeAudio], false) := by decide +kernel

/-- V130, V131. -/
theorem test_volume :
    (afterAll [.spkvol 9, .spkreset] s0).map (fun t => (t.spk.volume, t.sinkCalls)) = some (1#3, []) := by decide +kernel

/-! ### The paddles (section 2.10) -/

/-- V100's state after the trigger. -/
def triggered : Option State := (after (.pdlset 0 255#8) s0).bind (fun t => after .pdltrig (withClock 1000 t))

/-- V100. -/
theorem test_trigger :
    triggered.map (fun t => (t.pdl.inc.toList, t.pdl.event.toList)) =
      some ([2813, 8, 8, 8], [3813#31, 1008#31, 1008#31, 1008#31]) := by decide +kernel

/-- V100, V104, V107. -/
theorem test_paddle_reads :
    ([3812, 3813, 3813 + 2 ^ 30 - 1, 3813 + 2 ^ 30].map (fun c =>
      (triggered.bind (fun t => after (.pdlread 4) (withClock c t))).map (·.result))) =
      [some (.byte 0x80#8), some (.byte 0x00#8), some (.byte 0x00#8), some (.byte 0x80#8)] := by decide +kernel

/-- V106, V107. -/
theorem test_buttons :
    (afterAll [.btnset 6 true, .btnread 2] s0).map (·.result) = some (.byte 0x80#8) ∧
    (afterAll [.btnset 2 true, .btnread 1] s0).map (·.result) = some (.byte 0x00#8) := by decide +kernel

/-- V108. -/
theorem test_pdlreset : after .pdlreset s0 = some s0 := by rfl

/-! ### Hypotheses: for each statement that has some, a state and operands that meet them (each clause, at a boundary) -/

/-- `s0` after its first request has been issued: a toggle with the poll inputs. -/
def sQ : State := { s0 with queue := [{ access := .host [0x40#8], inputs := pollInputs }] }

/-- PowerOnIsLegal; ConfigLegal wherever it is assumed. -/
theorem test_hyp_config : ConfigLegal cfgT ∧ ∀ g ∈ cfgT.gcr62, g.getLsbD 7 = true := by decide +kernel

/-- EveryStepKeepsTheInvariant: a legal state whose step runs an operation. -/
theorem test_hyp_invariant :
    Legal sQ ∧ ∃ t, step sQ = .next t ∧ t.flips.ringWr = 1 := by
  refine ⟨⟨test_hyp_config.1, by decide +kernel, by decide +kernel, by decide +kernel, ?_, by decide +kernel, ?_⟩, _, rfl, rfl⟩
  · exact fun a => ⟨0#8, by fin_cases a <;> rfl⟩
  · decide +kernel

/-- StepRunsTheDecodedOperation: its three clauses. -/
theorem test_hyp_step :
    (∃ r q i, sQ.queue = r :: q ∧ decodeAccess r.access = .ok i) ∧
    (∃ r q e, ({ s0 with queue := [{ access := .host [], inputs := s0.inp }] } : State).queue = r :: q ∧
      decodeAccess r.access = .error e) ∧ s0.queue = [] :=
  ⟨⟨_, _, .spktoggle, rfl, rfl⟩, ⟨_, _, .emptyRequest, rfl, rfl⟩, rfl⟩

/-- R234, R249, with the count of R206: a refresh whose step is 2^31 completes, asks the sink and delivers nothing. -/
theorem test_standing_refresh :
    (after .spkrefresh (withSpeaker [] 0 4 (2 ^ 31) 8 0 false 600)).map (fun t => (t.sinkCalls, t.spk.sclk)) =
      some ([.isAudioAvailable true], 0#31) := by decide +kernel

/-- DecodeUndoesEncode, DecodedOperationsAreWellFormed: an operation with list operands, and a decoded one. -/
theorem test_hyp_codes :
    (Instr.mount .d1 .img2 [0x32#8] true).wf = true ∧ (Instr.rdaddr fieldV19).wf = true ∧
    decodeAccess (.host (0x16#8 :: fieldV19)) = .ok (.rdaddr fieldV19) := by decide +kernel

/-- TableWordsDecode: a MOUNT without its last operand, of no bytes and of some. -/
theorem test_hyp_default :
    encode (.mount .d0 .dos [] false) = .host ([0x20#8, 0x00#8, 0x03#8, 0x00#8] ++ [0x00#8]) ∧
    encode (.mount .d1 .nib [0x0A#8] false) = .host ([0x20#8, 0x01#8, 0x02#8, 0x01#8, 0x0A#8] ++ [0x00#8]) := by decide +kernel

/-- NumbersOutsideTheTableNameNothing: the numbers next to the ends of R72's groups are outside. -/
theorem test_hyp_numbers :
    ∀ op ∈ [0x05#8, 0x0F#8, 0x1A#8, 0x1F#8, 0x22#8, 0x33#8, 0x3F#8, 0x47#8, 0x56#8, 0xFF#8],
      op.toNat ∉ [0x00, 0x01, 0x02, 0x03, 0x04, 0x10, 0x11, 0x12, 0x13, 0x14, 0x15, 0x16, 0x17, 0x18, 0x19, 0x20, 0x21,
        0x30, 0x31, 0x32, 0x40, 0x41, 0x42, 0x43, 0x44, 0x45, 0x46, 0x50, 0x51, 0x52, 0x53, 0x54, 0x55] := by decide

/-- PhaseSwitchesStepTheHead: each of the eight effects leads somewhere, on either drive, at 0, at 69 and between. -/
theorem test_hyp_phases :
    (∃ k, Steps (· ||| 0b1000#4) s0.disk k ∧ k.d0.pos = 0) ∧
    (∃ k, Steps (· ||| 0b0010#4) s0.disk k ∧ k.d0.pos = 1) ∧
    (∃ k, Steps (· ||| 0b0100#4) { s0.disk with d0 := { s0.disk.d0 with pos := 69 } } k ∧ k.d0.pos = 69) ∧
    (∃ k, Steps (· ||| 0b0001#4) { s0.disk with drive := .d1, d1 := { s0.disk.d1 with pos := 69 } } k ∧ k.d1.pos = 68) ∧
    (∃ k, Steps (· &&& 0b1110#4) { s0.disk with phases := 0b0011#4 } k ∧ k.d0.pos = 1) ∧
    (∃ k, Steps (· &&& 0b1101#4) { s0.disk with phases := 0b0010#4 } k ∧ k.d0.pos = 0) ∧
    (∃ k, Steps (· &&& 0b1011#4) { s0.disk with phases := 0b0110#4 } k ∧ k.d0.pos = 1) ∧
    (∃ k, Steps (· &&& 0b0111#4) { s0.disk with phases := 0b1010#4 } k ∧ k.d0.pos = 1) :=
  ⟨⟨_, ⟨0, by unfold HeadMoves; decide, rfl⟩, rfl⟩, ⟨_, ⟨1, by unfold HeadMoves; decide, rfl⟩, rfl⟩,
   ⟨_, ⟨69, by unfold HeadMoves; decide, rfl⟩, rfl⟩, ⟨_, ⟨68, by unfold HeadMoves; decide, rfl⟩, rfl⟩,
   ⟨_, ⟨1, by unfold HeadMoves; decide, rfl⟩, rfl⟩, ⟨_, ⟨0, by unfold HeadMoves; decide, rfl⟩, rfl⟩,
   ⟨_, ⟨1, by unfold HeadMoves; decide, rfl⟩, rfl⟩, ⟨_, ⟨1, by unfold HeadMoves; decide, rfl⟩, rfl⟩⟩

/-- MotorDriveAndModeSwitches, and the addresses `Encoded` speaks of: the lowest and one of a slot. -/
theorem test_hyp_addresses :
    0x9 % 16 = 0x9 ∧ 0xC0E9 % 16 = 0x9 ∧ ∃ k : Disk, k = { s0.disk with motorOn := true } := ⟨rfl, rfl, _, rfl⟩

/-- LoadArmsAndSenses, SenseIsSeenByTheNextEvenRead, WrittenNibbleIsOnTheTrack: the modes they ask for. -/
theorem test_hyp_modes :
    (∃ s : State, s.disk.motorOn = true ∧ s.disk.writeMode = false) ∧
    (∃ s : State, ¬(s.disk.motorOn = true ∧ s.disk.writeMode = false)) ∧
    (∃ s t : State, s.disk.motorOn = true ∧ s.disk.writeMode = false ∧ decodeAccess (.ioRead 0xE) = .ok .rdRdmode ∧
      0xE % 2 = 0 ∧ 0xE % 16 ≠ 0xC ∧ exec .rdLoad s = .next t) ∧
    (∃ s t : State, DiskLegal s.disk ∧ s.disk.motorOn = true ∧ s.disk.writeMode = true ∧
      exec (.wrLoad 0xD5#8) s = .next t) := by
  refine ⟨⟨withDisk fun k => { k with motorOn := true }, rfl, rfl⟩, ⟨s0, by decide⟩,
    ⟨withDisk fun k => { k with motorOn := true }, _, rfl, rfl, rfl, rfl, by decide, rfl⟩,
    ⟨withDisk fun k => { k with motorOn := true, writeMode := true }, _, by decide +kernel, rfl, rfl, rfl⟩⟩

/-- SpinShortCircuit. -/
theorem test_hyp_spin :
    ∃ s : State, s.disk.writeMode = false ∧ s.disk.motorOn = false ∧ s.disk.spin = 15#4 :=
  ⟨withDisk fun k => { k with spin := 15#4 }, rfl, rfl, rfl⟩

/-- ReadCycleScansAndAdvances: motor on, and motor off with `spin` 14; the poll predicate true, and false. -/
theorem test_hyp_read_cycle :
    (∃ s : State, s.disk.writeMode = false ∧ s.disk.motorOn = true ∧ Polls s) ∧
    (∃ s : State, s.disk.writeMode = false ∧ s.disk.spin ≠ 15#4 ∧ s.disk.spin = 14#4 ∧ ¬ Polls s) := by
  refine ⟨⟨{ withDisk (fun k => { k with motorOn := true }) with inp := pollInputs }, rfl, rfl, rfl, ?_⟩,
    ⟨withDisk fun k => { k with spin := 14#4 }, rfl, by decide, rfl, ?_⟩⟩
  · intro k
    exact ⟨0x1000 + k.val, by fin_cases k <;> rfl, by fin_cases k <;> rfl⟩
  · rintro ⟨-, h⟩
    obtain ⟨a, -, h⟩ := h 0
    have h' : (0x00#8 : Byte) = 0x10#8 := h
    exact absurd h' (by decide)

/-- WriteCycleStoresTheLatch: on either drive, at the last place of the last track. -/
theorem test_hyp_write_cycle :
    ∃ s : State, DiskLegal s.disk ∧ s.disk.writeMode = true ∧ s.disk.drive = .d1 ∧ s.disk.off = 6655 ∧ s.disk.d1.pos = 69 :=
  ⟨withDisk fun k => { k with writeMode := true, drive := .d1, off := 6655, d1 := { k.d1 with pos := 69 } },
    by decide +kernel, rfl, rfl, rfl, rfl⟩

/-- EvenReadsReturnTheLatch, AnyWriteAddressLoadsTheLatch, ReadsAndWritesShareTheSwitchEffect: even and odd, closed and open. -/
theorem test_hyp_accesses :
    decodeAccess (.ioRead 0xE) = .ok .rdRdmode ∧ decodeAccess (.ioRead 0xF) = .ok .rdWrmode ∧
    decodeAccess (.ioWrite 0xF 0x99#8) = .ok (.wrWrmode 0x99#8) ∧ 0xF % 16 ≠ 0xC ∧
    (∃ s t : State, exec (.wrWrmode 0x99#8) s = .next t ∧ t.disk.motorOn = true ∧ t.disk.writeMode = true ∧
      t.disk.loadMode = true) ∧
    (∃ s t u : State, exec .rdWrmode s = .next t ∧ exec (.wrWrmode 0x99#8) s = .next u ∧
      ¬(u.disk.motorOn = true ∧ u.disk.writeMode = true ∧ u.disk.loadMode = true)) := by
  refine ⟨by decide +kernel, by decide +kernel, by decide +kernel, by decide,
    ⟨withDisk fun k => { k with motorOn := true, loadMode := true }, _, rfl, rfl, rfl, rfl⟩, ⟨s0, _, _, rfl, rfl, by decide⟩⟩

/-- HeadMovesOnlyTowardsOneMagnet: moves both ways. -/
theorem test_hyp_moves :
    (∃ t, exec .rdPh1on s0 = .next t ∧ t.disk.d0.pos.val = s0.disk.d0.pos.val + 1) ∧
    (∃ s t : State, exec .rdPh0on s = .next t ∧ s.disk.d0.pos.val = t.disk.d0.pos.val + 1) :=
  ⟨⟨_, rfl, rfl⟩, ⟨withDisk fun k => { k with d0 := { k.d0 with pos := 1 } }, _, rfl, rfl⟩⟩

/-- ControllerRegistersHaveFewWriters: each register is written by someone. -/
theorem test_hyp_writers :
    (∃ t, exec .rdDrv1 s0 = .next t ∧ t.disk.drive ≠ s0.disk.drive) ∧
    (∃ t, exec .rdPh2on s0 = .next t ∧ t.disk.phases ≠ s0.disk.phases) ∧
    (∃ t, exec .rdMotoron s0 = .next t ∧ t.disk.motorOn ≠ s0.disk.motorOn) ∧
    (∃ t, exec .rdWrmode s0 = .next t ∧ t.disk.writeMode ≠ s0.disk.writeMode) ∧
    (∃ t, exec .rdLoad s0 = .next t ∧ t.disk.loadMode ≠ s0.disk.loadMode) ∧
    (∃ s t : State, exec .rdShift s = .next t ∧ t.disk.latch ≠ s.disk.latch ∧ t.disk.off ≠ s.disk.off ∧
      t.disk.spin ≠ s.disk.spin) := by
  refine ⟨⟨_, rfl, by decide⟩, ⟨_, rfl, by decide⟩, ⟨_, rfl, by decide⟩, ⟨_, rfl, by decide⟩, ⟨_, rfl, by decide⟩,
    ⟨withDisk id, _, rfl, by decide +kernel, by decide +kernel, by decide +kernel⟩⟩

/-- OnlyTheSequencerAndMountWriteTracks: a byte that a write cycle changes. -/
theorem test_hyp_track_writers :
    ∃ s t : State, exec .rdShift s = .next t ∧ trackByte t.disk .d0 0 0 ≠ trackByte s.disk .d0 0 0 :=
  ⟨withDisk fun k => { k with writeMode := true, latch := 0x33#8 }, _, rfl, by decide +kernel⟩

/-- FailedMountWritesNothing. -/
theorem test_hyp_failed_mount : ∃ t, exec (.mount .d0 .img2 [] false) s0 = .next t ∧ t.result ≠ .ok :=
  ⟨_, rfl, by decide +kernel⟩

/-- UnitsShareNoState, DiskIsBlindToSpeakerAndPaddles: two states that differ in the speaker and the paddles, and run. -/
theorem test_hyp_blind :
    ∃ s s' t t' : State, s.disk = s'.disk ∧ s.cfg = s'.cfg ∧ s.queue = s'.queue ∧ s.draws = s'.draws ∧ s.spk ≠ s'.spk ∧
      RunsTo 1 s t ∧ RunsTo 1 s' t' :=
  ⟨sQ, { sQ with spk := { sQ.spk with volume := 7#3 } }, _, _, rfl, rfl, rfl, rfl, by decide +kernel,
    ⟨_, rfl, rfl⟩, ⟨_, rfl, rfl⟩⟩

/-- RomWindow. -/
theorem test_hyp_rom : s0.cfg.rom.length = 256 := by decide +kernel

/-- SplitHasItsClosedForm, JoinFormula, JoinUndoesSplit, DataFieldFormat, DataFieldReadsBack: lengths and symbols. -/
theorem test_hyp_codec :
    ramp.length = 256 ∧ rampHigh.length = 256 ∧ rampLow.length = 86 ∧ s0.cfg.gcr62.length = 64 ∧ s0.cfg.gcr62.Nodup := by
  decide +kernel

/-- AddressFieldReadsBack: a field that is accepted, one whose checksum is wrong, and ones whose first or last 4-and-4 nibble alone
has a zero in an odd bit position. -/
theorem test_hyp_address :
    OnlyReturns (.wraddr 254#8 17#8 15#8) s0 (.nibbles fieldV19) ∧ fieldV19.length = 14 ∧
    (fieldV19.set 10 0xEB#8).length = 14 ∧ addressOk fieldV19 = true ∧ addressOk (fieldV19.set 10 0xEB#8) = false ∧
    addressOk (wraddr 0#8 0#8 0#8) = true ∧ addressOk ((wraddr 0#8 0#8 0#8).set 3 0x2A#8) = false ∧
    addressOk ((wraddr 0#8 0#8 0#8).set 10 0x8A#8) = false :=
  ⟨rfl, rfl, rfl, by decide, by decide, by decide, by decide, by decide⟩

/-- DataFieldAcceptance: a field that is accepted, and one that is not. -/
theorem test_hyp_data_field :
    fieldV23.length = 349 ∧
    (slice fieldV23 0 3 = [0xD5#8, 0xAA#8, 0xAD#8] ∧ slice fieldV23 346 3 = [0xDE#8, 0xAA#8, 0xEB#8] ∧
      ∃ x : List Six, x.map (symbol s0.cfg) = slice fieldV23 3 343 ∧ x.foldl (· ^^^ ·) 0#6 = 0#6) ∧
    (fieldV23.set 2 0x96#8).length = 349 ∧ slice (fieldV23.set 2 0x96#8) 0 3 ≠ [0xD5#8, 0xAA#8, 0xAD#8] := by
  refine ⟨by decide +kernel, ⟨by decide +kernel, by decide +kernel, List.replicate 343 0#6, ?_, ?_⟩, by decide +kernel,
    by decide +kernel⟩
  · decide +kernel
  · decide +kernel

/-- TrackLayout, TrackReadsBack, StructuredNibblesHaveBit7: an image of one track and what it is encoded to. -/
theorem test_hyp_track :
    (List.replicate 4096 0x00#8 : List Byte).length = 4096 ∧
    ∃ nib, OnlyReturns (.enctrack (List.replicate 4096 0x00#8) 254#8 5#8 .dos) s0 (.nibbles nib) :=
  ⟨List.length_replicate, _, rfl⟩

/-- HeaderChecksInOrder: 63 bytes, and 64 bytes for each later check. -/
theorem test_hyp_header :
    ((header 0x47#8 0x40#8 0x01#8 0x18#8).take 63).length < 64 ∧
    (64 ≤ (header 0x48#8 0x40#8 0x01#8 0x18#8).length ∧
      slice (header 0x48#8 0x40#8 0x01#8 0x18#8) 0 4 ≠ [0x32#8, 0x49#8, 0x4D#8, 0x47#8]) ∧
    (slice (header 0x47#8 0x34#8 0x01#8 0x18#8) 0 4 = [0x32#8, 0x49#8, 0x4D#8, 0x47#8] ∧
      field (header 0x47#8 0x34#8 0x01#8 0x18#8) 8 2 ≠ 64) ∧
    (field (header 0x47#8 0x40#8 0x03#8 0x18#8) 8 2 = 64 ∧ 2 < field (header 0x47#8 0x40#8 0x03#8 0x18#8) 12 4) ∧
    (field (header 0x47#8 0x40#8 0x01#8 0x19#8) 12 4 = 1 ∧ field (header 0x47#8 0x40#8 0x01#8 0x19#8) 20 4 ≠ 280) := by
  decide +kernel

/-- ShortStreamsAreTruncated (its raw clauses), RawImagesMount: one byte too few, and exactly enough. -/
theorem test_hyp_streams :
    (List.replicate 143359 0x00#8 : List Byte).length < 143360 ∧ 143360 ≤ (List.replicate 143360 0x00#8 : List Byte).length ∧
    (List.replicate 232959 0x00#8 : List Byte).length < 232960 ∧ 232960 ≤ (List.replicate 232960 0x00#8 : List Byte).length := by
  simp only [List.length_replicate]
  decide

/-- A 2IMG image of `n` zero bytes. -/
def wrapped (format blocks : Byte) (n : Nat) : List Byte := header 0x47#8 0x40#8 format blocks ++ List.replicate n 0x00#8

/-- WrappedImagesMount, and ShortStreamsAreTruncated's clause on headers: the three formats, with exactly enough bytes (`n` 143360
or 232960) and with one too few; flag bits 31 and 8 are set. -/
theorem test_hyp_wrapped (n : Nat) (format blocks : Byte) (s : State) :
    64 ≤ (wrapped format blocks n).length ∧ slice (wrapped format blocks n) 0 4 = [0x32#8, 0x49#8, 0x4D#8, 0x47#8] ∧
    field (wrapped format blocks n) 8 2 = 64 ∧
    0x01#8 = (if (field (wrapped format blocks n) 16 4).testBit 8
      then BitVec.ofNat 8 (field (wrapped format blocks n) 16 4 % 256) else s.cfg.defaultVolume) ∧
    field (wrapped format blocks n) 12 4 = format.toNat ∧ field (wrapped 0x01#8 0x18#8 n) 20 4 = 280 ∧
    (wrapped format blocks n).length = 64 + n ∧
    (n = 143359 → (wrapped format blocks n).length < 64 + 143360) ∧
    (n = 232959 → (wrapped format blocks n).length < 64 + 232960) := by
  have h : (wrapped format blocks n).length = 64 + n := by
    simp only [wrapped, List.length_append, List.length_replicate]
    rfl
  have hf : field (wrapped format blocks n) 16 4 = 0x80000101 := by
    show ([1 * 1, 1 * 256, 0 * 65536, 128 * 16777216] : List Nat).sum = 0x80000101
    decide
  have hs : field (wrapped format blocks n) 8 2 = 64 := by
    show ([64 * 1, 0 * 256] : List Nat).sum = 64
    decide
  have hb : field (wrapped 0x01#8 0x18#8 n) 20 4 = 280 := by
    show ([24 * 1, 1 * 256, 0 * 65536, 0 * 16777216] : List Nat).sum = 280
    decide
  refine ⟨by omega, rfl, hs, by rw [hf, if_pos (by decide)], ?_, hb, h, fun hn => by omega, fun hn => by omega⟩
  show ([format.toNat * 1, 0 * 256, 0 * 65536, 0 * 16777216] : List Nat).sum = format.toNat
  simp

/-- VolumeAndPause, RefreshReturnsEarly: a held sink, available or not, and none. -/
theorem test_hyp_sink :
    (withSpeaker [] 0 4 50 8 0 false 0).spk.sinkOpen = true ∧ (withSpeaker [] 0 4 50 8 0 false 0).inp.audioAvailable = true ∧
    { withSpeaker [] 0 4 50 8 0 false 0 with inp := s0.inp }.inp.audioAvailable = false ∧ s0.spk.sinkOpen = false :=
  ⟨rfl, rfl, rfl, rfl⟩

/-- ResumeAcquiresTheSink: a step of 0 just below and of 1 just at the rate; a sink that fails and one that answers. -/
theorem test_hyp_resume :
    (19 * 1000 / cfgT.sampleRate = 0) ∧ (20 * 1000 / cfgT.sampleRate ≠ 0) ∧
    ({ s0.inp with cpuSpeedKHz := 20 } : Inputs).initAudio = none ∧
    ({ s0.inp with cpuSpeedKHz := 20, initAudio := some 16 } : Inputs).initAudio = some 16 := by decide +kernel

/-- OneSampleDrainsAndEmits: room for exactly one sample, for two, and for two with a byte to spare. -/
theorem test_hyp_one_sample :
    ∀ buf ∈ [2, 4, 5],
      let s := withSpeaker [10, 20, 30, 60] 4 1 50 buf 0 false 0
      RingLegal s.cfg s.flips ∧ s.spk.ringRd < s.cfg.flipRingSize ∧ 2 ≤ s.spk.bufSize ∧
        s.spk.pcm.length = s.spk.bufSize ∧ ¬ Earlier 100#31 s.spk.sclk ∧
        ¬ Earlier 100#31 (s.spk.sclk + BitVec.ofNat 31 s.spk.cps) := by
  unfold Earlier ticks
  decide +kernel

/-- StaleClockDeliversNothing: a gap of exactly 2^30, a buffer of one byte, a step of 2^31. -/
theorem test_hyp_stale :
    2 ^ 30 ≤ ticks (withSpeaker [] 0 4 50 8 0 false (2 ^ 30)).spk.sclk (withSpeaker [] 0 4 50 8 0 false (2 ^ 30)).inp.clockNow ∧
    (withSpeaker [] 0 4 50 1 0 false 600).spk.bufSize < 2 ∧
    (withSpeaker [] 0 4 (2 ^ 31) 8 0 false 600).spk.cps % 2 ^ 31 = 0 := by
  unfold ticks
  decide +kernel

/-- RefreshCatchesUp, RefreshRepeatsFills, the first half of ChunkingDoesNotChangeTheSamples, DeliveredSamplesHaveTheAmplitude: the
smallest and the largest step, the largest gap, and two buffer sizes on a legal ring. -/
theorem test_hyp_refresh :
    Refreshing (withSpeaker [] 0 4 1 2 0 false (2 ^ 30 - 1)) ∧
    ticks (withSpeaker [] 0 4 1 2 0 false (2 ^ 30 - 1)).spk.sclk (withSpeaker [] 0 4 1 2 0 false (2 ^ 30 - 1)).inp.clockNow < 2 ^ 30 ∧
    Refreshing (withSpeaker [] 0 4 (2 ^ 30) 2 0 false 600) ∧
    Refreshing (withSpeaker [100, 150, 500] 3 4 50 24 0 false 600) ∧
    Refreshing (withSpeaker [100, 150, 500] 3 4 50 11 0 false 600) ∧
    (let s := withSpeaker [100, 150, 500] 3 4 50 24 0 false 600
     RingLegal s.cfg s.flips ∧ s.spk.ringRd < s.cfg.flipRingSize) ∧
    (∃ t, exec .spkrefresh (withSpeaker [100, 150, 500] 3 4 50 24 0 false 600) = .next t) ∧
    ∃ t, exec .spkrefresh (withSpeaker [100, 150, 500] 3 4 50 11 0 false 600) = .next t := by
  refine ⟨⟨rfl, rfl, ?_, ?_, ?_, rfl⟩, ?_, ⟨rfl, rfl, ?_, ?_, ?_, rfl⟩, ⟨rfl, rfl, ?_, ?_, ?_, rfl⟩,
    ⟨rfl, rfl, ?_, ?_, ?_, rfl⟩, ?_, ⟨_, rfl⟩, ⟨_, rfl⟩⟩ <;> decide +kernel

/-- RefreshRepeatsFills: a state of its example, and a fill of 0 and a fill of some bytes. -/
theorem test_hyp_fills :
    (let s := withSpeaker [100, 150, 500] 3 4 50 24 0 false 600
     s.spk.cps = 50 ∧ s.spk.sclk = 0#31 ∧ s.spk.level = false ∧ s.spk.ringRd = 0 ∧ s.spk.volume = 4#3 ∧ 24 ≤ s.spk.bufSize ∧
       s.inp.clockNow = 600#31 ∧ 3 < s.cfg.flipRingSize ∧ s.flips.ringWr = 3 ∧ s.flips.ring.take 3 = [100#31, 150#31, 500#31]) ∧
    (after (.spkfill 49#31) (withSpeaker [] 0 4 50 24 0 false 49)).map (·.result) = some (.count 0) ∧
    (after (.spkfill 50#31) (withSpeaker [] 0 4 50 24 0 false 50)).map (·.result) = some (.count 2) := by decide +kernel

/-- Inputs at clock `c` with the sink available. -/
def inputsAt (c : Nat) : Inputs := (withSpeaker [] 0 4 50 8 0 false c).inp

/-- The second half of ChunkingDoesNotChangeTheSamples: a refresh at 600, then one at 700, with no event appended and with an event
at exactly the first refresh's final `sclk`. -/
theorem test_hyp_two_refreshes :
    let s := withSpeaker [100, 150] 2 4 50 24 0 false 600
    let f' : FlipRing := { ring := s.flips.ring.set 2 600#31, ringWr := 3 }
    Refreshing s ∧ (inputsAt 700).audioAvailable = true ∧
    ticks s.spk.sclk s.inp.clockNow ≤ ticks s.spk.sclk (inputsAt 700).clockNow ∧
    ticks s.spk.sclk (inputsAt 700).clockNow < 2 ^ 30 ∧
    RingLegal s.cfg s.flips ∧ s.spk.ringRd < s.cfg.flipRingSize ∧ 2 + 1 < s.cfg.flipRingSize ∧
    s.flips.ringWr = (s.spk.ringRd + 2) % s.cfg.flipRingSize ∧ f'.ringWr = (s.spk.ringRd + 2 + 1) % s.cfg.flipRingSize ∧
    s.flips.ringWr = (s.spk.ringRd + 2 + 0) % s.cfg.flipRingSize ∧
    (∀ i < 2, f'.ring.getD ((s.spk.ringRd + i) % s.cfg.flipRingSize) 0#31 =
      s.flips.ring.getD ((s.spk.ringRd + i) % s.cfg.flipRingSize) 0#31) ∧
    ∃ t u w, exec .spkrefresh s = .next t ∧ exec .spkrefresh { t with inp := inputsAt 700, flips := f' } = .next u ∧
      exec .spkrefresh { s with inp := inputsAt 700, flips := f' } = .next w ∧
      ¬ Earlier (f'.ring.getD ((s.spk.ringRd + 2) % s.cfg.flipRingSize) 0#31) t.spk.sclk ∧
      ¬ Earlier (f'.ring.getD ((s.spk.ringRd + 2) % s.cfg.flipRingSize) 0#31) s.spk.sclk := by
  refine ⟨⟨rfl, rfl, by decide, by decide, by decide +kernel, rfl⟩, rfl, by decide +kernel, by decide +kernel, by decide +kernel,
    by decide +kernel, by decide +kernel, by decide +kernel, by decide +kernel, by decide +kernel, by decide +kernel,
    _, _, _, rfl, rfl, rfl, ?_, ?_⟩ <;> (unfold Earlier ticks; decide +kernel)

/-- PaddleAxes: an axis that reads high and one that reads low. -/
theorem test_hyp_axes :
    ¬ Earlier s0.inp.clockNow (s0.pdl.event.get 0) ∧ Earlier (withClock (2 ^ 30) s0).inp.clockNow (s0.pdl.event.get 0) := by
  unfold Earlier ticks
  decide +kernel

/-- PaddleReadsHighForItsInterval: the first and the last tick of each of its three clauses. -/
theorem test_hyp_interval :
    (∃ t u, exec (.pdlset 0 255#8) s0 = .next t ∧ exec .pdltrig t = .next u) ∧
    0 < (255#8).toNat * 11 + 8 ∧ 2812 < (255#8).toNat * 11 + 8 ∧
    ((255#8).toNat * 11 + 8 ≤ 2813 ∧ 2813 + 2 ^ 30 - 1 < (255#8).toNat * 11 + 8 + 2 ^ 30) ∧
    ((255#8).toNat * 11 + 8 + 2 ^ 30 ≤ 2813 + 2 ^ 30 ∧ 2813 + 2 ^ 31 - 1 < (255#8).toNat * 11 + 8 + 2 ^ 31) ∧
    ∀ k, ∃ x : Inputs, x.clockNow = s0.inp.clockNow + BitVec.ofNat 31 k :=
  ⟨⟨_, _, rfl, rfl⟩, by decide, by decide, by decide, by decide,
    fun k => ⟨{ s0.inp with clockNow := s0.inp.clockNow + BitVec.ofNat 31 k }, rfl⟩⟩

end Sys2Proof.Tests
end

/-! PROOFS. The statements of 00_scope.md: the step runs the oldest request, an operation changes only its own unit, and the disk
side of a run is a function of the disk side. -/

namespace Sys2Proof.Scope

open Sys2Proof.Machine Sys2Proof.Claims

/-! ### The step (R3, R246; log 1) -/

theorem step_of_empty {s : State} (h : s.queue = []) : step s = .next s := by
  simp [step, fetch, h]

theorem step_of_decoded {s : State} {r : Request} {q : List Request} {i : Instr} (h : s.queue = r :: q)
    (hi : decodeAccess r.access = .ok i) : step s = exec i { s with queue := q, inp := r.inputs } := by
  simp [step, fetch, h, hi]

theorem step_of_undecodable {s : State} {r : Request} {q : List Request} {e : DecodeError} (h : s.queue = r :: q)
    (he : decodeAccess r.access = .error e) : step s = .refused (.undecodable e) := by
  simp [step, fetch, h, he]

/-- Settles O4: the three clauses are the three ways a step goes. -/
theorem stepRunsTheDecodedOperation : Obligations.StepRunsTheDecodedOperation :=
  ⟨fun _ _ _ _ => step_of_decoded, fun _ _ _ _ => step_of_undecodable, fun _ => step_of_empty⟩

/-- A step that answers a next state was idle, or ran the operation of the oldest request. -/
theorem step_next_cases {s t : State} (h : step s = .next t) :
    (s.queue = [] ∧ t = s) ∨
    ∃ r q i, s.queue = r :: q ∧ decodeAccess r.access = .ok i ∧ exec i { s with queue := q, inp := r.inputs } = .next t := by
  cases hq : s.queue with
  | nil =>
    rw [step_of_empty hq] at h
    exact .inl ⟨rfl, (Host.Outcome.next.inj h).symm⟩
  | cons r q =>
    cases hd : decodeAccess r.access with
    | error e =>
      rw [step_of_undecodable hq hd] at h
      cases h
    | ok i =>
      rw [step_of_decoded hq hd] at h
      exact .inr ⟨r, q, i, rfl, hd, h⟩

/-! ### What an operation does to the disk side

The controller an operation leaves and the free values it draws, as functions of the operation, the parameters, the inputs and the
controller alone. `exec_shape` ties both to `exec`. -/

/-- The switch effect of a bus access, before the write-latch rule (R150 to R163, R176, R177). -/
def switchEffect (cfg : Config) (inp : Inputs) (k : Disk) : Instr → Disk
  | .rdPh0off | .wrPh0off _ => phaseOff 0 k
  | .rdPh0on | .wrPh0on _ => phaseOn 0 k
  | .rdPh1off | .wrPh1off _ => phaseOff 1 k
  | .rdPh1on | .wrPh1on _ => phaseOn 1 k
  | .rdPh2off | .wrPh2off _ => phaseOff 2 k
  | .rdPh2on | .wrPh2on _ => phaseOn 2 k
  | .rdPh3off | .wrPh3off _ => phaseOff 3 k
  | .rdPh3on | .wrPh3on _ => phaseOn 3 k
  | .rdMotoroff | .wrMotoroff _ => { k with motorOn := false }
  | .rdMotoron | .wrMotoron _ => { k with motorOn := true }
  | .rdDrv0 | .wrDrv0 _ => { k with drive := .d0 }
  | .rdDrv1 | .wrDrv1 _ => { k with drive := .d1 }
  | .rdShift | .wrShift _ => shiftCycle (pollMatches cfg inp) k
  | .rdLoad => senseProtect { k with loadMode := true }
  | .wrLoad _ => { k with loadMode := true }
  | .rdRdmode | .wrRdmode _ => { k with writeMode := false }
  | .rdWrmode | .wrWrmode _ => { k with writeMode := true }
  | _ => k

/-- The write-latch rule of a bus write; any other operation leaves the latch as it is (R165). -/
def latchEffect (i : Instr) (k : Disk) : Disk :=
  match writtenByte i with
  | some v => writeLatch v k
  | none => k

/-- The controller after an operation. -/
def diskAfter (cfg : Config) (inp : Inputs) (k : Disk) : Instr → Disk
  | .mount d hint stream wp =>
    match loadImage cfg hint stream wp with
    | .ok (w, tracks) => commitMount d w tracks k
    | .error _ => k
  | .dreset => { k with motorOn := false }
  | i => latchEffect i (switchEffect cfg inp k i)

/-- How many free values an operation draws: one for a read that returns noise, for a rejected RDDATA and for a SPKRESUME that
opens the sink (R4, R129, R164, R205). -/
def drawsTaken (cfg : Config) (inp : Inputs) : Instr → Nat
  | .rdPh0on | .rdPh1on | .rdPh2on | .rdPh3on | .rdMotoron | .rdDrv1 | .rdLoad | .rdWrmode => 1
  | .niord _ | .nmemrd _ => 1
  | .rddata n => if (rddata cfg n).isSome then 0 else 1
  | .spkresume => if clocksPerSample cfg inp ≠ 0 ∧ inp.initAudio.isSome then 1 else 0
  | _ => 0

/-- The state an operation leaves where only the controller, the result and the draw count may differ. -/
def diskSideAfter (i : Instr) (r : Result) (s : State) : State :=
  { s with disk := diskAfter s.cfg s.inp s.disk i, result := r, draws := s.draws + drawsTaken s.cfg s.inp i }

/-- An operation of another unit leaves the controller as it was (R5). -/
theorem diskAfter_of_ne_disk {i : Instr} (h : partOf i ≠ .disk) (cfg : Config) (inp : Inputs) (k : Disk) :
    diskAfter cfg inp k i = k := by
  generalize hp : partOf i = p at h
  cases p
  case disk => exact absurd rfl h
  all_goals cases i <;> cases hp <;> rfl

/-! ### What an operation does to everything else, unit by unit (R5, R6) -/

theorem mountResult_eq (d : Drive) (hint : Hint) (stream : List Byte) (wp : Bool) (s : State) :
    ∃ r, mountResult d hint stream wp s = diskSideAfter (.mount d hint stream wp) r s := by
  obtain ⟨e, hl, hm⟩ | ⟨w, tracks, hl, hm⟩ := mountResult_cases d hint stream wp s
  · exact ⟨.failed (.formatError e), by simp [hm, diskSideAfter, diskAfter, drawsTaken, hl, raise, returns]⟩
  · exact ⟨.ok, by simp [hm, diskSideAfter, diskAfter, drawsTaken, hl, returns]⟩

theorem rddataResult_eq (n : List Byte) (s : State) : ∃ r, rddataResult n s = diskSideAfter (.rddata n) r s := by
  unfold rddataResult
  cases hd : rddata s.cfg n with
  | some b =>
    have hn : drawsTaken s.cfg s.inp (.rddata n) = 0 := by simp [drawsTaken, hd]
    exact ⟨.sector b true, by rw [diskSideAfter, hn]; rfl⟩
  | none =>
    have hn : drawsTaken s.cfg s.inp (.rddata n) = 1 := by simp [drawsTaken, hd]
    exact ⟨.sector (unspecifiedBytes s 256) false, by rw [diskSideAfter, hn]; rfl⟩

theorem exec_of_disk {i : Instr} (h : partOf i = .disk) (s : State) : ∃ r, exec i s = .next (diskSideAfter i r s) := by
  cases i <;> cases h
  case mount d hint stream wp =>
    obtain ⟨r, hr⟩ := mountResult_eq d hint stream wp s
    exact ⟨r, congrArg Host.Outcome.next hr⟩
  all_goals exact ⟨_, rfl⟩

theorem exec_of_pure {i : Instr} (h : partOf i = .pure) (s : State) : ∃ r, exec i s = .next (diskSideAfter i r s) := by
  cases i <;> cases h
  case rddata n =>
    obtain ⟨r, hr⟩ := rddataResult_eq n s
    exact ⟨r, congrArg Host.Outcome.next hr⟩
  all_goals exact ⟨_, rfl⟩

theorem exec_of_flips {i : Instr} (h : partOf i = .flips) (s : State) :
    ∃ r f, exec i s = .next { diskSideAfter i r s with flips := f } := by
  cases i <;> cases h
  exact ⟨_, _, rfl⟩

theorem exec_of_paddle {i : Instr} (h : partOf i = .paddle) (s : State) :
    ∃ r p, exec i s = .next { diskSideAfter i r s with pdl := p } := by
  cases i <;> cases h
  case pdlread => exact ⟨.byte _, s.pdl, rfl⟩
  case btnread => exact ⟨.byte _, s.pdl, rfl⟩
  case pdlreset => exact ⟨.none, s.pdl, rfl⟩
  all_goals exact ⟨_, _, rfl⟩

/-- A refresh changes the synthesizer and calls the sink (R206). -/
theorem refreshed_eq (s : State) : ∃ k calls, refreshed s = { s with spk := k, sinkCalls := s.sinkCalls ++ calls } := by
  obtain ⟨-, h⟩ | ⟨-, -, h⟩ | ⟨-, -, h⟩ := refreshed_cases s
  · exact ⟨s.spk, [], by simp [h]⟩
  · exact ⟨s.spk, [.isAudioAvailable false], h⟩
  · exact ⟨_, .isAudioAvailable true :: _, by simp only [h, deliver, callSink, List.append_assoc, List.singleton_append]; rfl⟩

/-- Giving up the sink changes the synthesizer and calls the sink (R204). -/
theorem closeSink_eq (s : State) : ∃ k calls, closeSink s = { s with spk := k, sinkCalls := s.sinkCalls ++ calls } := by
  unfold closeSink
  split
  · exact ⟨_, [.closeAudio], rfl⟩
  · exact ⟨s.spk, [], by simp⟩

/-- The three ways of SPKRESUME change the synthesizer and call the sink; the one that opens the sink draws once (R205). -/
theorem resume_eq (s : State) : ∃ r k calls,
    resume s = { diskSideAfter .spkresume r s with spk := k, sinkCalls := s.sinkCalls ++ calls } := by
  unfold resume
  split_ifs with hc
  · have hn : drawsTaken s.cfg s.inp .spkresume = 0 := by simp [drawsTaken, hc]
    exact ⟨.failed .resourceUnavailable, s.spk, [], by rw [diskSideAfter, hn, List.append_nil]; rfl⟩
  · cases ha : s.inp.initAudio with
    | none =>
      have hn : drawsTaken s.cfg s.inp .spkresume = 0 := by simp [drawsTaken, ha]
      exact ⟨.failed .resourceUnavailable, s.spk, [.initAudio none], by rw [diskSideAfter, hn]; rfl⟩
    | some bytes =>
      have hn : drawsTaken s.cfg s.inp .spkresume = 1 := by simp [drawsTaken, hc, ha]
      exact ⟨.ok, _, [.initAudio (some bytes)], by rw [diskSideAfter, hn]; rfl⟩

theorem exec_of_speaker {i : Instr} (h : partOf i = .speaker) (s : State) : ∃ r k calls,
    exec i s = .next { diskSideAfter i r s with spk := k, sinkCalls := s.sinkCalls ++ calls } ∧
    (i ≠ .spkrefresh → i ≠ .spkpause → i ≠ .spkresume → calls = []) := by
  cases i <;> cases h
  case spkfill e => exact ⟨_, _, [], by rw [List.append_nil]; rfl, fun _ _ _ => rfl⟩
  case spkvol v => exact ⟨_, _, [], by rw [List.append_nil]; rfl, fun _ _ _ => rfl⟩
  case spkreset => exact ⟨.none, s.spk, [], by rw [List.append_nil]; rfl, fun _ _ _ => rfl⟩
  case spkrefresh =>
    obtain ⟨k, calls, hs⟩ := refreshed_eq s
    exact ⟨.none, k, calls, by simp only [exec, execSpkrefresh, hs]; rfl, fun h => absurd rfl h⟩
  case spkpause =>
    obtain ⟨k, calls, hs⟩ := closeSink_eq s
    exact ⟨.none, k, calls, by simp only [exec, execSpkpause, hs]; rfl, fun _ h => absurd rfl h⟩
  case spkresume =>
    obtain ⟨_, closing, hs⟩ := closeSink_eq s
    obtain ⟨r, k, opening, hr⟩ := resume_eq (closeSink s)
    refine ⟨r, k, closing ++ opening, ?_, fun _ _ h => absurd rfl h⟩
    show Host.Outcome.next (resume (closeSink s)) = _
    rw [hr, hs, List.append_assoc]
    rfl

/-! ### What an operation can do, said once -/

/-- Every operation answers a state whose controller and draw count follow from the disk side alone, and in which only the operation's
own unit differs otherwise; only the three sink operations call the sink. -/
theorem exec_shape (i : Instr) (s : State) : ∃ r k f p calls,
    exec i s = .next { diskSideAfter i r s with spk := k, flips := f, pdl := p, sinkCalls := s.sinkCalls ++ calls } ∧
    (partOf i ≠ .speaker → k = s.spk) ∧ (partOf i ≠ .flips → f = s.flips) ∧ (partOf i ≠ .paddle → p = s.pdl) ∧
    (i ≠ .spkrefresh → i ≠ .spkpause → i ≠ .spkresume → calls = []) := by
  cases hp : partOf i with
  | disk =>
    obtain ⟨r, h⟩ := exec_of_disk hp s
    exact ⟨r, s.spk, s.flips, s.pdl, [], by rw [h, List.append_nil]; rfl, by simp⟩
  | pure =>
    obtain ⟨r, h⟩ := exec_of_pure hp s
    exact ⟨r, s.spk, s.flips, s.pdl, [], by rw [h, List.append_nil]; rfl, by simp⟩
  | flips =>
    obtain ⟨r, f, h⟩ := exec_of_flips hp s
    exact ⟨r, s.spk, f, s.pdl, [], by rw [h, List.append_nil]; rfl, by simp⟩
  | paddle =>
    obtain ⟨r, p, h⟩ := exec_of_paddle hp s
    exact ⟨r, s.spk, s.flips, p, [], by rw [h, List.append_nil]; rfl, by simp⟩
  | speaker =>
    obtain ⟨r, k, calls, h, hcalls⟩ := exec_of_speaker hp s
    exact ⟨r, k, s.flips, s.pdl, calls, h, by simp, by simp, by simp, hcalls⟩

/-- Settles O26: each clause is a field of the one shape an operation's answer has. -/
theorem unitsShareNoState : Obligations.UnitsShareNoState := by
  intro i s t h
  obtain ⟨r, k, f, p, calls, hshape, hspk, hflips, hpdl, hcalls⟩ := exec_shape i s
  obtain rfl := Host.Outcome.next.inj (hshape.symm.trans h)
  exact ⟨fun hd => diskAfter_of_ne_disk hd _ _ _, hspk, hflips, hpdl, rfl, rfl, rfl, Nat.le_add_right _ _, ⟨calls, rfl⟩,
    fun h1 h2 h3 => by simp [hcalls h1 h2 h3]⟩

/-! ### Noninterference (R3, R5, R222) -/

/-- Two states with the same disk side: controller, parameters, queue and draw count. -/
structure SameDiskSide (s s' : State) : Prop where
  disk : s.disk = s'.disk
  cfg : s.cfg = s'.cfg
  queue : s.queue = s'.queue
  draws : s.draws = s'.draws

/-- The disk side an operation leaves follows from the disk side and the inputs it ran with. -/
theorem exec_diskSide {i : Instr} {s t : State} (h : exec i s = .next t) :
    t.disk = diskAfter s.cfg s.inp s.disk i ∧ t.cfg = s.cfg ∧ t.queue = s.queue ∧
    t.draws = s.draws + drawsTaken s.cfg s.inp i := by
  obtain ⟨r, k, f, p, calls, hshape, -⟩ := exec_shape i s
  obtain rfl := Host.Outcome.next.inj (hshape.symm.trans h)
  exact ⟨rfl, rfl, rfl, rfl⟩

theorem exec_sameDiskSide {i : Instr} {s s' t t' : State} (hs : SameDiskSide s s') (hinp : s.inp = s'.inp)
    (h : exec i s = .next t) (h' : exec i s' = .next t') : SameDiskSide t t' := by
  obtain ⟨hdisk, hcfg, hqueue, hdraws⟩ := exec_diskSide h
  obtain ⟨hdisk', hcfg', hqueue', hdraws'⟩ := exec_diskSide h'
  constructor
  · rw [hdisk, hdisk', hs.disk, hs.cfg, hinp]
  · rw [hcfg, hcfg', hs.cfg]
  · rw [hqueue, hqueue', hs.queue]
  · rw [hdraws, hdraws', hs.draws, hs.cfg, hinp]

/-- Equal queues issue the same operation with the same inputs, or leave both machines idle. -/
theorem step_sameDiskSide {s s' t t' : State} (hs : SameDiskSide s s') (h : step s = .next t) (h' : step s' = .next t') :
    SameDiskSide t t' := by
  obtain ⟨hq, rfl⟩ | ⟨r, q, i, hq, hi, hexec⟩ := step_next_cases h
  · rw [step_of_empty (hs.queue.symm.trans hq)] at h'
    exact Host.Outcome.next.inj h' ▸ hs
  · rw [step_of_decoded (hs.queue.symm.trans hq) hi] at h'
    refine exec_sameDiskSide ?_ ?_ hexec h'
    · exact ⟨hs.disk, hs.cfg, rfl, hs.draws⟩
    · rfl

theorem runsTo_sameDiskSide (n : Nat) {s s' t t' : State} (hs : SameDiskSide s s') (h : RunsTo n s t)
    (h' : RunsTo n s' t') : SameDiskSide t t' := by
  induction n generalizing s s' with
  | zero =>
    obtain rfl : s = t := h
    obtain rfl : s' = t' := h'
    exact hs
  | succ n ih =>
    obtain ⟨m, hstep, hrest⟩ := h
    obtain ⟨m', hstep', hrest'⟩ := h'
    exact ih (step_sameDiskSide hs hstep hstep') hrest hrest'

/-- Settles O27, by induction on the number of steps, with the same disk side as the relation every step keeps. -/
theorem diskIsBlindToSpeakerAndPaddles : Obligations.DiskIsBlindToSpeakerAndPaddles := by
  intro n s s' t t' hdisk hcfg hqueue hdraws h h'
  obtain ⟨hdisk, hcfg, hqueue, hdraws⟩ := runsTo_sameDiskSide n ⟨hdisk, hcfg, hqueue, hdraws⟩ h h'
  exact ⟨hdisk, hcfg, hqueue, hdraws⟩

end Sys2Proof.Scope

/-! PROOFS. The statements of 10_state.md: which operations write the registers of the controller, the track bytes and the
write-protect flags. -/

namespace Sys2Proof.Registers

open Sys2Proof.Machine Sys2Proof.Claims Sys2Proof.Scope

/-! ### The ways an operation can change the controller -/

/-- The operation `i`, answering `r`, may take the controller `k` to this one: one switch effect and then the write-latch rule, a
bus reset, or a mount that succeeds. -/
inductive DiskChange (i : Instr) (r : Result) (k : Disk) : Disk → Prop where
  | nothing : DiskChange i r k k
  | phases {a : Nat} (p : BitVec 4) (hn : nibbleOf i = some a) (ha : a < 8) :
      DiskChange i r k (stepper { k with phases := p })
  | motor (m : Bool) (h : nibbleOf i = some 0x8 ∨ nibbleOf i = some 0x9 ∨ i = .dreset) :
      DiskChange i r k { k with motorOn := m }
  | drive (d : Drive) (h : nibbleOf i = some 0xA ∨ nibbleOf i = some 0xB) : DiskChange i r k { k with drive := d }
  | shift (poll : Bool) (hn : nibbleOf i = some 0xC) : DiskChange i r k (shiftCycle poll k)
  | sense (hi : i = .rdLoad) : DiskChange i r k (senseProtect { k with loadMode := true })
  | load (hn : nibbleOf i = some 0xD) : DiskChange i r k { k with loadMode := true }
  | mode (w : Bool) (h : nibbleOf i = some 0xE ∨ nibbleOf i = some 0xF) : DiskChange i r k { k with writeMode := w }
  | write {v : Byte} {k' : Disk} (hv : writtenByte i = some v) (h : DiskChange i r k k') :
      DiskChange i r k (writeLatch v k')
  | mount {d : Drive} {hint : Hint} {stream : List Byte} {wp : Bool} (w : Bool) (tracks : List (List Byte))
      (hi : i = .mount d hint stream wp) (hr : r = .ok) : DiskChange i r k (commitMount d w tracks k)

theorem switchEffect_change (cfg : Config) (inp : Inputs) (i : Instr) (r : Result) (k : Disk) :
    DiskChange i r k (switchEffect cfg inp k i) := by
  cases i
  case rdPh0off | rdPh0on | rdPh1off | rdPh1on | rdPh2off | rdPh2on | rdPh3off | rdPh3on
      | wrPh0off | wrPh0on | wrPh1off | wrPh1on | wrPh2off | wrPh2on | wrPh3off | wrPh3on =>
    exact .phases _ rfl (by decide)
  case rdMotoroff | wrMotoroff => exact .motor false (.inl rfl)
  case rdMotoron | wrMotoron => exact .motor true (.inr (.inl rfl))
  case rdDrv0 | wrDrv0 => exact .drive .d0 (.inl rfl)
  case rdDrv1 | wrDrv1 => exact .drive .d1 (.inr rfl)
  case rdShift | wrShift => exact .shift (pollMatches cfg inp) rfl
  case rdLoad => exact .sense rfl
  case wrLoad => exact .load rfl
  case rdRdmode | wrRdmode => exact .mode false (.inl rfl)
  case rdWrmode | wrWrmode => exact .mode true (.inr rfl)
  all_goals exact .nothing

theorem DiskChange.latchEffect {i : Instr} {r : Result} {k k' : Disk} (h : DiskChange i r k k') :
    DiskChange i r k (latchEffect i k') := by
  unfold Scope.latchEffect
  split
  next hv => exact .write hv h
  next => exact h

/-- Every operation changes the controller in one of these ways. -/
theorem exec_diskChange {i : Instr} {s t : State} (h : exec i s = .next t) : DiskChange i t.result s.disk t.disk := by
  cases i
  case mount d hint stream wp =>
    obtain rfl : mountResult d hint stream wp s = t := Host.Outcome.next.inj h
    obtain ⟨e, -, hm⟩ | ⟨w, tracks, -, hm⟩ := mountResult_cases d hint stream wp s <;> rw [hm]
    · exact .nothing
    · exact .mount w tracks rfl rfl
  case dreset =>
    rw [(exec_diskSide h).1]
    exact .motor false (.inr (.inr rfl))
  all_goals
    rw [(exec_diskSide h).1]
    exact (switchEffect_change s.cfg s.inp _ _ s.disk).latchEffect

/-! ### The registers (R10 to R17) -/

/-- Settles O22: each way of changing the controller writes only its own registers. -/
theorem controllerRegistersHaveFewWriters : Obligations.ControllerRegistersHaveFewWriters := by
  intro i s t h
  have hchange := exec_diskChange h
  generalize t.disk = k' at hchange
  induction hchange with
  | nothing => simp
  | phases p hn ha => simpa using fun _ => ⟨_, hn, ha⟩
  | motor m hi => simpa using fun _ => hi
  | drive d hi => simpa using fun _ => hi
  | shift poll hn => simp [hn]
  | sense hi => simp [hi, nibbleOf]
  | load hn => simp [hn]
  | mode w hi => simpa using fun _ => hi
  | write hv _ ih =>
    obtain ⟨hdrive, hphases, hmotor, -, hmode, hload, hoff, hspin⟩ := ih
    exact ⟨hdrive, hphases, hmotor, fun _ => .inr (.inr ⟨_, hv⟩), hmode, hload, hoff, hspin⟩
  | mount w tracks => simp

/-! ### The tracks and the write-protect flags (R18, R20) -/

theorem trackByte_eq (k : Disk) (d : Drive) (tr o : Nat) :
    trackByte k d tr o = memRead trackUnlisted (driveState k d).trk (6656 * tr + o) := by
  cases d <;> rfl

theorem selected_eq (k : Disk) : selected k = driveState k k.drive := by
  unfold selected driveState
  cases k.drive <;> rfl

/-- What a change of the controller leaves of a drive, its position apart: everything, everything but the byte under the head of a
write-mode cycle (R173), or what a successful mount puts there (R111). -/
theorem DiskChange.driveState_cases {i : Instr} {r : Result} {k k' : Disk} (h : DiskChange i r k k') (d : Drive) :
    ((driveState k' d).wp = (driveState k d).wp ∧
      ((driveState k' d).trk = (driveState k d).trk ∨
        nibbleOf i = some 0xC ∧ k.writeMode = true ∧ d = k.drive ∧
          (driveState k' d).trk = trkWrite (driveState k d).trk (trackOf (driveState k d).pos) k.off k.latch)) ∨
    (∃ hint stream wp, i = .mount d hint stream wp) ∧ r = .ok := by
  induction h with
  | nothing => exact .inl ⟨rfl, .inl rfl⟩
  | phases p =>
    left
    rw [driveState_stepper]
    split_ifs <;> cases d <;> exact ⟨rfl, .inl rfl⟩
  | motor | drive | load | mode => cases d <;> exact .inl ⟨rfl, .inl rfl⟩
  | shift poll hn =>
    left
    rw [driveState_shiftCycle]
    split_ifs with hstore
    · exact ⟨rfl, .inr ⟨hn, hstore.1, hstore.2, rfl⟩⟩
    · exact ⟨rfl, .inl rfl⟩
  | sense => cases d <;> simp
  | write _ _ ih => rwa [driveState_writeLatch]
  | @mount e hint stream wp w tracks hi hr =>
    rw [driveState_commitMount]
    split_ifs with hd
    · exact .inr ⟨⟨hint, stream, wp, hd ▸ hi⟩, hr⟩
    · exact .inl ⟨rfl, .inl rfl⟩

/-- A write to the track memory that changes place (`tr`, `o`) was to that place, in any memory. -/
theorem place_of_trkWrite_ne {m : Memory} {t : TrackIndex} {off : Offset} {v : Byte} {tr o : Nat} (ho : o < 6656)
    (h : memRead trackUnlisted (trkWrite m t off v) (6656 * tr + o) ≠ memRead trackUnlisted m (6656 * tr + o)) :
    tr = t.val ∧ o = off.val := by
  have hkey : 6656 * tr + o = 6656 * t.val + off.val := by
    by_contra hne
    exact h (memRead_memWrite_of_ne v hne)
  have hoff := off.isLt
  omega

/-- Settles O23: of the three things that can happen to a drive, only a write-mode cycle and a successful mount change a byte, and
only the mount the flag. -/
theorem onlyTheSequencerAndMountWriteTracks : Obligations.OnlyTheSequencerAndMountWriteTracks := by
  intro i s t d h
  obtain ⟨hwp, htrk⟩ | hmount := (exec_diskChange h).driveState_cases d
  · refine ⟨fun tr _ o ho hne => .inl ?_, fun hne => absurd hwp hne⟩
    rw [trackByte_eq, trackByte_eq] at hne
    obtain hsame | ⟨hn, hw, hd, hstored⟩ := htrk
    · rw [hsame] at hne
      exact absurd rfl hne
    · rw [hstored] at hne
      obtain ⟨htr, hoff⟩ := place_of_trkWrite_ne ho hne
      refine ⟨hn, hw, hd, ?_, hoff⟩
      rw [htr, selected_eq, ← hd]
      exact Nat.shiftRight_eq_div_pow _ 1
  · exact ⟨fun _ _ _ _ _ => .inr hmount, fun _ => hmount⟩

end Sys2Proof.Registers

/-! PROOFS. The statements of 30_encoding.md: encoder and decoder, the bus selectors, the host numbers, and the codec's formats of
R63 to R65. -/

namespace Sys2Proof.Encoding

open Sys2Proof.Machine Sys2Proof.Claims

/-! ### Encoding and decoding (R60, R72; log 3) -/

theorem decodeAccess_of_decodeHop {bytes rest : List Byte} {i : Instr} (h : decodeHop bytes = .ok (i, rest)) :
    decodeAccess (.host bytes) = .ok i := by
  simp only [decodeAccess, h]

/-- The decoder reads exactly the bytes the encoder writes for a host operation, and leaves what follows them. The lengths of
well-formedness are needed where a list is written without its length. -/
theorem decodeHop_encode {i : Instr} (hwf : i.wf = true) {bytes : List Byte} (h : encode i = .host bytes) (rest : List Byte) :
    decodeHop (bytes ++ rest) = .ok (i, rest) := by
  cases i <;> cases h <;> simp only [Instr.wf, Bool.and_eq_true, beq_iff_eq] at hwf
  case split62 | rdaddr | rddata | enctrack => simp [decodeHop, takeBytes_putBytes hwf]
  case join62 | wrdata =>
    obtain ⟨hhi, hlo⟩ := hwf
    simp [decodeHop, takeSixes_putSixes hhi, takeSixes_putSixes hlo]
  all_goals simp [decodeHop]

/-- Settles O7: a bus access is decoded by evaluation, a host operation operand by operand. -/
theorem decodeUndoesEncode : Obligations.DecodeUndoesEncode := by
  intro i hwf
  cases he : encode i with
  | ioRead addr => cases i <;> cases he <;> rfl
  | ioWrite addr wdata => cases i <;> cases he <;> rfl
  | host bytes =>
    have hdecode := decodeHop_encode hwf he []
    rw [List.append_nil] at hdecode
    exact decodeAccess_of_decodeHop hdecode

/-! ### What is decoded is well-formed (R72, R73) -/

/-- Every operation an operand reader answers is well-formed. -/
def AnswersWellFormed (p : Parsed Instr) : Prop := ∀ i r, p = .ok (i, r) → i.wf = true

@[simp] theorem answersWellFormed_ok (i : Instr) (r : List Byte) : AnswersWellFormed (.ok (i, r)) ↔ i.wf = true := by
  simp [AnswersWellFormed]

@[simp] theorem answersWellFormed_error (e : DecodeError) : AnswersWellFormed (.error e) := by
  simp [AnswersWellFormed]

/-- Reading one operand more: what follows may use that the operand was read. -/
@[simp] theorem answersWellFormed_operand {α : Type} (p : Parsed α) (f : α → List Byte → Parsed Instr) :
    AnswersWellFormed (operand p f) ↔ ∀ x r, p = .ok (x, r) → AnswersWellFormed (f x r) := by
  rcases p with e | ⟨x, r⟩ <;> simp

/-- Only the six operations with lists of a fixed length are left to show once the operands are read. -/
theorem answersWellFormed_decodeHop (bytes : List Byte) : AnswersWellFormed (decodeHop bytes) := by
  unfold decodeHop
  split
  · exact answersWellFormed_error _
  have hsixes : ∀ {l : List Byte} (hi : List Six) (r : List Byte), takeSixes 256 l = .ok (hi, r) →
      ∀ (lo : List Six) (r' : List Byte), takeSixes 86 r = .ok (lo, r') → hi.length = 256 ∧ lo.length = 86 :=
    fun _ _ hhi _ _ hlo => ⟨length_of_takeSixes hhi, length_of_takeSixes hlo⟩
  split <;> simp only [answersWellFormed_ok, answersWellFormed_error, answersWellFormed_operand, Instr.wf, Bool.and_eq_true,
    beq_iff_eq, implies_true]
  case h_8 | h_12 | h_14 => exact fun _ _ => length_of_takeBytes
  case h_9 | h_13 => exact hsixes
  case h_15 => exact fun _ _ hdata _ _ _ _ _ _ _ _ _ => length_of_takeBytes hdata

theorem decodeSelector_wf (sel : BitVec 5) (wdata : Byte) : (decodeSelector sel wdata).wf = true :=
  forall_decodeSelector (P := fun i => i.wf = true) (by intro n hn; interval_cases n <;> rfl) sel

/-- Settles O8: a bus access needs no check, and a host operation's lists were read with their lengths. -/
theorem decodedOperationsAreWellFormed : Obligations.DecodedOperationsAreWellFormed := by
  intro a i h
  cases a with
  | ioRead addr => exact Except.ok.inj h ▸ decodeSelector_wf _ _
  | ioWrite addr wdata => exact Except.ok.inj h ▸ decodeSelector_wf _ _
  | host bytes =>
    cases hd : decodeHop bytes with
    | error e => simp [decodeAccess, hd] at h
    | ok p =>
      rw [decodeAccess_of_decodeHop hd] at h
      exact Except.ok.inj h ▸ answersWellFormed_decodeHop bytes _ _ hd

/-! ### Bus accesses (R60 to R62) -/

theorem selector_mod (w : Bool) (addr : Nat) : selector w (addr % 16) = selector w addr := by
  apply BitVec.eq_of_toNat_eq
  rw [selector_toNat, selector_toNat, Nat.mod_mod]

/-- The low four bits of a selector are the address nibble of its operation. -/
theorem nibbleOf_decodeSelector (sel : BitVec 5) (wdata : Byte) :
    nibbleOf (decodeSelector sel wdata) = some (sel.toNat % 16) := by
  have heach : ∀ n < 32, nibbleOf (decodeSelector (BitVec.ofNat 5 n) wdata) = some (n % 16) := by
    intro n hn
    interval_cases n <;> rfl
  simpa using heach sel.toNat sel.isLt

/-- Bit 4 of a selector says whether its operation carries the data byte. -/
theorem writtenByte_decodeSelector (sel : BitVec 5) (wdata : Byte) :
    writtenByte (decodeSelector sel wdata) = if sel.toNat < 16 then none else some wdata := by
  have heach : ∀ n < 32, writtenByte (decodeSelector (BitVec.ofNat 5 n) wdata) = if n < 16 then none else some wdata := by
    intro n hn
    interval_cases n <;> rfl
  simpa using heach sel.toNat sel.isLt

/-- Settles O9: the selector keeps the low four bits of the address and the direction, and each of the 32 names an operation. -/
theorem busDecodeUsesLowFourBits : Obligations.BusDecodeUsesLowFourBits := by
  intro addr v
  have hlt : addr % 16 < 16 := Nat.mod_lt _ (by decide)
  refine ⟨?_, ?_, ⟨_, rfl, ?_, ?_⟩, _, rfl, ?_, ?_⟩
  · simp only [decodeAccess, selector_mod]
  · simp only [decodeAccess, selector_mod]
  · simp [nibbleOf_decodeSelector, selector_toNat]
  · simp [writtenByte_decodeSelector, selector_toNat, hlt]
  · simp [nibbleOf_decodeSelector, selector_toNat]
  · simp [writtenByte_decodeSelector, selector_toNat]

/-! ### Host numbers (R72, R73) -/

/-- Every arm of the decoder but the last is taken by a number of the table. -/
theorem decodeHop_of_not_mem {op : Byte} (h : op.toNat ∉ hopNumbers) (rest : List Byte) :
    decodeHop (op :: rest) = .error (.noOperation op) := by
  have harm : ∀ n ∈ hopNumbers, op.toNat ≠ n := fun n hn e => h (e ▸ hn)
  rw [decodeHop]
  split
  case h_34 => rfl
  all_goals exact absurd ‹op.toNat = _› (harm _ (by decide))

/-- Settles O10: the numbers of the statement are `hopNumbers`, the numbers the decoder's arms have. -/
theorem numbersOutsideTheTableNameNothing : Obligations.NumbersOutsideTheTableNameNothing := by
  intro op rest h
  simp only [decodeAccess, decodeHop_of_not_mem h]

/-- A table word whose low byte is a host number is read as that number with operand bytes after it (log 4). -/
theorem tableAccess_of_mem_hopNumbers {nbits w : Nat} (hbits : 8 ≤ nbits) (hw : w % 256 ∈ hopNumbers) :
    ∃ rest, tableAccess nbits w = .host (BitVec.ofNat 8 w :: rest) := by
  have hhost : ¬(nbits < 8 ∨ (hopNumbers.contains (w % 256) = false ∧ w % 256 < 32)) := by
    simp [hw, hbits]
  rw [tableAccess, if_neg hhost, show longestOperation = 4099 + 1 from rfl, List.range_succ_eq_map, List.map_cons]
  exact ⟨_, rfl⟩

theorem decodeTableWord_spkresume : decodeTableWord 8 0x45 = some .spkresume := by
  obtain ⟨rest, hword⟩ := tableAccess_of_mem_hopNumbers (nbits := 8) (w := 0x45) le_rfl (by decide)
  rw [decodeTableWord, hword]
  rfl

/-- A MOUNT without its last byte is read with the default of R100. -/
theorem decodeHop_mount_default (d : Drive) (hint : Hint) (stream : List Byte) :
    decodeHop (0x20#8 :: (putDrive d ++ putHint hint ++ putStream stream)) = .ok (.mount d hint stream false, []) := by
  have hstream : takeStream (putStream stream) = .ok (stream, []) := by
    simpa using takeStream_putStream stream []
  simp [decodeHop, hstream]

/-- Settles O11: the words are evaluated; a MOUNT's bytes without the flag are its number and its first three operands. -/
theorem tableWordsDecode : Obligations.TableWordsDecode := by
  refine ⟨rfl, rfl, rfl, rfl, rfl, rfl, rfl, decodeTableWord_spkresume, fun d hint stream bytes h => ?_⟩
  have hbytes : 0x20#8 :: (putDrive d ++ putHint hint ++ putStream stream) = bytes :=
    List.append_cancel_right (Access.host.inj h)
  rw [← hbytes]
  exact decodeAccess_of_decodeHop (decodeHop_mount_default d hint stream)

/-! ### 4-and-4 and the address field (R63, R64) -/

/-- The shifts and masks of the procedure give the bits of R63. -/
theorem enc44_eq_pair44 (v : Byte) : enc44 v = pair44 v := by
  have hodd : (v >>> 1) ||| 0xAA#8 = (pair44 v).getD 0 0#8 := by
    ext b hb
    interval_cases b <;> simp [pair44, BitVec.ofBoolListBE, BitVec.getElem_cons]
  have heven : v ||| 0xAA#8 = (pair44 v).getD 1 0#8 := by
    ext b hb
    interval_cases b <;> simp [pair44, BitVec.ofBoolListBE, BitVec.getElem_cons]
  rw [enc44, hodd, heven]
  rfl

theorem dec44_pair44 (v : Byte) : dec44 ((pair44 v).getD 0 0#8) ((pair44 v).getD 1 0#8) = v := by
  rw [← enc44_eq_pair44]
  exact dec44_enc44 v

theorem getLsbD_zero_dec44 (x y : Byte) : (dec44 x y).getLsbD 0 = y.getLsbD 0 := by
  simp [dec44]

theorem getLsbD_succ_dec44 (x y : Byte) {b : Nat} (hb : b < 7) :
    (dec44 x y).getLsbD (b + 1) = (x.getLsbD b && y.getLsbD (b + 1)) := by
  simp [dec44, show b + 1 < 8 by omega, BitVec.getLsbD_eq_getElem (show b < 8 by omega)]

/-- Settles O31: ENC44 and DEC44 bit by bit, and DEC44 of ENC44's two nibbles. -/
theorem fourAndFour : Obligations.FourAndFour := by
  intro v x y s
  refine ⟨?_, ⟨dec44 x y, rfl, getLsbD_zero_dec44 x y, fun b => getLsbD_succ_dec44 x y⟩, ?_⟩
  · rw [← enc44_eq_pair44]
    rfl
  · rw [← congrArg Result.byte (dec44_pair44 v)]
    rfl

/-- Settles O35: WRSYNC and WRADDR are the model's lists with the pairs of R63 in them. -/
theorem syncAndAddressField : Obligations.SyncAndAddressField := by
  intro n v t c s
  refine ⟨rfl, ?_⟩
  simp only [← enc44_eq_pair44]
  rfl

/-! ### The data field (R65) -/

/-- Nibble `k` of a checksum chain: each value against the one before it, the last against 0. -/
theorem getD_chain (cfg : Config) (last : Six) (l : List Six) (k : Nat) (hk : k ≤ l.length) :
    (chain cfg last l).getD k 0#8 = gcr cfg ((last :: l).getD k 0#6 ^^^ l.getD k 0#6) := by
  induction l generalizing last k with
  | nil =>
    obtain rfl : k = 0 := by simpa using hk
    simp [chain]
  | cons p l ih =>
    cases k with
    | zero => simp [chain]
    | succ k => simpa [chain] using ih p k (by simpa using hk)

/-- The plaintext of a data field is in the order of R65; past its 342 values both sides read 0. -/
theorem getD_reverse_append {lo : List Six} (hlo : lo.length = 86) (hi : List Six) (k : Nat) :
    (lo.reverse ++ hi).getD k 0#6 = plain hi lo k := by
  unfold plain
  split_ifs with hk
  · rw [List.getD_append _ _ _ _ (by simpa [hlo] using hk), List.getD_reverse _ (by omega), hlo]
  · rw [List.getD_append_right _ _ _ _ (by simpa [hlo] using hk), List.length_reverse, hlo]

section
variable (cfg : Config) {hi lo : List Six} (hhi : hi.length = 256) (hlo : lo.length = 86)
include hhi hlo

/-- The 343 nibbles between prologue and epilogue are the chain's. -/
theorem getD_wrdata {k : Nat} (hk : k ≤ 342) :
    (wrdata cfg hi lo).getD (3 + k) 0#8 =
      gcr cfg ((0#6 :: (lo.reverse ++ hi)).getD k 0#6 ^^^ plain hi lo k) := by
  have hchain : (chain cfg 0#6 (lo.reverse ++ hi)).length = 343 := by simp [hhi, hlo]
  have hprologue : dataPrologue.length = 3 := rfl
  rw [wrdata, List.append_assoc, List.getD_append_right _ _ _ _ (by omega), hprologue, Nat.add_sub_cancel_left,
    List.getD_append _ _ _ _ (by omega), getD_chain _ _ _ _ (by simp [hhi, hlo]; omega), getD_reverse_append hlo]

theorem getD_wrdata_succ {k : Nat} (hk : k < 342) :
    (wrdata cfg hi lo).getD (3 + (k + 1)) 0#8 = gcr cfg (plain hi lo k ^^^ plain hi lo (k + 1)) := by
  rw [getD_wrdata cfg hhi hlo (by omega), List.getD_cons_succ, getD_reverse_append hlo]

theorem slice_wrdata_epilogue : slice (wrdata cfg hi lo) 346 3 = epilogue := by
  have hlen : (dataPrologue ++ chain cfg 0#6 (lo.reverse ++ hi)).length = 346 := by simp [dataPrologue, hhi, hlo]
  rw [slice, wrdata, List.drop_left' hlen]
  rfl

end

/-- Settles O37: the chain runs over the plaintext of R65, and past the plaintext's end it reads 0, which leaves `p[341]` for the
checksum nibble. -/
theorem dataFieldFormat : Obligations.DataFieldFormat := by
  intro hi lo s hhi hlo
  refine ⟨wrdata s.cfg hi lo, rfl, by simp [hhi, hlo], rfl, slice_wrdata_epilogue _ hhi hlo, ?_, fun k h1 hk => ?_, ?_⟩
  · have hfirst := getD_wrdata s.cfg hhi hlo (k := 0) (by omega)
    rwa [List.getD_cons_zero, BitVec.zero_xor] at hfirst
  · obtain ⟨j, rfl⟩ := Nat.exists_eq_add_of_le' h1
    rw [getD_wrdata_succ _ hhi hlo (by omega), BitVec.xor_comm]
    rfl
  · have hend : plain hi lo 342 = 0#6 := List.getD_eq_default _ _ (by omega)
    rw [getD_wrdata_succ _ hhi hlo (k := 341) (by omega), hend, BitVec.xor_zero]
    rfl

end Sys2Proof.Encoding

/-! PROOFS. The statements of 40_peripheral.md: the null device. -/

namespace Sys2Proof.Peripheral

open Sys2Proof.Machine Sys2Proof.Claims Sys2Proof.Laws.EncodesItsRow

/-- An access that carries a number of the HOP table is a host operation that begins with it (D2). -/
theorem exists_host_of_carried {a : Access} {op : Byte} (h : carried a = some (.hop, op.toNat)) :
    ∃ rest, a = .host (op :: rest) := by
  match a with
  | .ioRead _ | .ioWrite _ _ | .host [] => simp [carried] at h
  | .host (b :: rest) =>
    have hop : b.toNat = op.toNat := by simpa [carried] using h
    exact ⟨rest, by rw [BitVec.eq_of_toNat_eq hop]⟩

/-! ### The null device (R91 to R95) -/

section
variable (addr : Nat) (v : Byte) (s : State)

theorem exec_niord : exec (.niord addr) s = .next (returnsNoise s) := rfl
theorem exec_nmemrd : exec (.nmemrd addr) s = .next (returnsNoise s) := rfl
theorem onlyReturns_niowr : OnlyReturns (.niowr addr v) s .none := rfl
theorem onlyReturns_nmemwr : OnlyReturns (.nmemwr addr v) s .none := rfl
theorem onlyReturns_nreset : OnlyReturns .nreset s .none := rfl

end

/-- Settles O28: both reads answer one noise draw, the other three only return, and each encodes with the number of its row. -/
theorem nullDeviceIsFloatingBus : Obligations.NullDeviceIsFloatingBus := by
  intro addr v s
  refine ⟨exec_niord addr s, exec_nmemrd addr s,
    onlyReturns_niowr addr v s, onlyReturns_nmemwr addr v s, onlyReturns_nreset s, ?_, ?_, ?_, ?_, rfl⟩
  · exact exists_host_of_carried (niord addr)
  · exact exists_host_of_carried (niowr addr v)
  · exact exists_host_of_carried (nmemrd addr)
  · exact exists_host_of_carried (nmemwr addr v)

end Sys2Proof.Peripheral

/-! PROOFS. The statements of 41_image_loader.md: the failed mounts, the checks of a 2IMG header, and the mounts that succeed. -/

namespace Sys2Proof.Loader

open Sys2Proof.Machine Sys2Proof.Claims

/-! ### The size of an image (R76) -/

@[simp] theorem trackBytes_dos : trackBytes .dos = 4096 := rfl
@[simp] theorem trackBytes_prodos : trackBytes .prodos = 4096 := rfl
@[simp] theorem trackBytes_nib : trackBytes .nib = 6656 := rfl

/-! ### The two outcomes of MOUNT (R109 to R111) -/

theorem exec_mount (d : Drive) (hint : Hint) (st : List Byte) (wp : Bool) (s : State) :
    exec (.mount d hint st wp) s = .next (mountResult d hint st wp s) := rfl

theorem mountFails_of_loadImage {hint : Hint} {st : List Byte} {wp : Bool} {why : FormatReason} (d : Drive)
    (h : ∀ cfg, loadImage cfg hint st wp = .error why) : MountFails d hint st wp why := by
  intro s
  rw [exec_mount, mountResult, h]
  rfl

theorem mountFails_of_readImage {hint : Hint} {st : List Byte} {wp : Bool} {why : FormatReason} (d : Drive)
    (h : ∀ cfg, readImage cfg hint st wp = .error why) : MountFails d hint st wp why :=
  mountFails_of_loadImage d fun cfg => by rw [loadImage, h]

/-- A payload that ends before its 35 tracks do. The image may depend on the parameters, its layout and payload may not. -/
theorem mountFails_truncated {hint : Hint} {st : List Byte} {wp : Bool} {layout : Layout} {payload : List Byte} (d : Drive)
    (h : ∀ cfg, ∃ image, readImage cfg hint st wp = .ok image ∧ image.layout = layout ∧ image.payload = payload)
    (hshort : payload.length < trackBytes layout * 35) : MountFails d hint st wp .truncated := by
  refine mountFails_of_loadImage d fun cfg => ?_
  obtain ⟨image, himage, rfl, rfl⟩ := h cfg
  rw [loadImage_of_image himage, if_pos hshort]

/-- What a commit of 35 full buffers leaves, buffer by buffer (R111, D22). -/
theorem mounted_commitMount (d : Drive) (wp : Bool) (s : State) {g : Nat → List Byte} (hg : ∀ k < 35, (g k).length = 6656) :
    Mounted s (returns .ok { s with disk := commitMount d wp ((List.range 35).map g) s.disk }) d wp g := by
  obtain ⟨hwf, hread⟩ := trkWriteAll_tracks g hg
  exact ⟨_, hwf, hread, by cases d <;> rfl⟩

/-- An image whose payload holds 35 tracks mounts: buffer `tr` is made from the payload's track `tr`. -/
theorem mounts_of_readImage {hint : Hint} {st : List Byte} {wp : Bool} {s : State} {image : Image} (d : Drive)
    (himage : readImage s.cfg hint st wp = .ok image) (hlong : trackBytes image.layout * 35 ≤ image.payload.length) :
    ∃ t, exec (.mount d hint st wp) s = .next t ∧
      Mounted s t d image.wp (fun tr => ingestTrack s.cfg image.layout image.volume tr
        (slice image.payload (trackBytes image.layout * tr) (trackBytes image.layout))) := by
  refine ⟨_, rfl, ?_⟩
  rw [mountResult, loadImage_of_image himage, if_neg (by omega)]
  refine mounted_commitMount d image.wp s fun k hk => length_ingestTrack _ _ _ _ _ ?_
  have hfits : trackBytes image.layout * (k + 1) ≤ trackBytes image.layout * 35 := Nat.mul_le_mul_left _ hk
  rw [Nat.mul_succ] at hfits
  simp only [List.length_take, List.length_drop]
  omega

/-- Settles O43: a load that fails raises its reason, and one that succeeds returns ok. -/
theorem failedMountWritesNothing : Obligations.FailedMountWritesNothing := by
  intro d hint st wp s t h hresult
  obtain rfl : mountResult d hint st wp s = t := Host.Outcome.next.inj h
  obtain ⟨why, -, hm⟩ | ⟨w, tracks, -, hm⟩ := mountResult_cases d hint st wp s
  · exact ⟨why, hm⟩
  · rw [hm] at hresult
    exact absurd rfl hresult

/-! ### The raw layouts (R108, R109) -/

/-- What a hint other than 2IMG says of the layout (R108). -/
def rawLayout : Hint → Option Layout
  | .nib => some .nib
  | .dos => some .dos
  | .po => some .prodos
  | .img2 => none

theorem readImage_of_rawLayout {hint : Hint} {layout : Layout} (h : rawLayout hint = some layout) (cfg : Config)
    (st : List Byte) (wp : Bool) :
    readImage cfg hint st wp = .ok { layout := layout, volume := cfg.defaultVolume, wp := wp, payload := st } := by
  cases hint <;> cases h <;> rfl

section
variable {hint : Hint} {layout : Layout} (d : Drive) {st : List Byte} (wp : Bool) (h : rawLayout hint = some layout)
include h

theorem mountFails_raw (hshort : st.length < trackBytes layout * 35) : MountFails d hint st wp .truncated :=
  mountFails_truncated d (fun cfg => ⟨_, readImage_of_rawLayout h cfg st wp, rfl, rfl⟩) hshort

theorem mounts_raw (s : State) (hlong : trackBytes layout * 35 ≤ st.length) :
    ∃ t, exec (.mount d hint st wp) s = .next t ∧
      Mounted s t d wp (fun tr => ingestTrack s.cfg layout s.cfg.defaultVolume tr
        (slice st (trackBytes layout * tr) (trackBytes layout))) :=
  mounts_of_readImage d (readImage_of_rawLayout h s.cfg st wp) hlong

end

/-- Settles O46: a raw stream is its own payload, with the requested flag and the default volume. -/
theorem rawImagesMount : Obligations.RawImagesMount := by
  intro d st wp s
  refine ⟨fun hlong => ?_, fun hlong => ?_, fun hlong => ?_⟩
  · exact mounts_raw (layout := .nib) d wp rfl s (by simpa using hlong)
  · exact mounts_raw (layout := .dos) d wp rfl s (by simpa using hlong)
  · exact mounts_raw (layout := .prodos) d wp rfl s (by simpa using hlong)

/-! ### The 2IMG header (R102 to R107) -/

/-- A field one byte longer has that byte as its highest (R71, D19). -/
theorem field_succ (h : List Byte) (off n : Nat) :
    field h off (n + 1) = field h off n + headerByte h (off + n) * 256 ^ n := by
  simp [field, headerByte, List.range_succ]

theorem field_zero (h : List Byte) (off : Nat) : field h off 0 = 0 := rfl

theorem header16_eq_field (h : List Byte) (off : Nat) : header16 h off = field h off 2 := by
  simp only [header16, field_succ, field_zero, Nat.add_zero]
  ring

theorem header32_eq_field (h : List Byte) (off : Nat) : header32 h off = field h off 4 := by
  simp only [header32, header16, field_succ, field_zero, Nat.add_assoc, Nat.reduceAdd, Nat.add_zero]
  ring

section
variable {st : List Byte}

theorem layoutOf_dos (h : field st 12 4 = 0) : layoutOf st = some .dos := by
  simp [layoutOf, header32_eq_field, h]

theorem layoutOf_prodos (h : field st 12 4 = 1) : layoutOf st = some .prodos := by
  simp [layoutOf, header32_eq_field, h]

theorem layoutOf_nib (h : field st 12 4 = 2) : layoutOf st = some .nib := by
  simp [layoutOf, header32_eq_field, h]

theorem layoutOf_eq_none (h : 2 < field st 12 4) : layoutOf st = none := by
  rw [layoutOf, header32_eq_field]
  split
  case h_4 => rfl
  all_goals omega

end

/-- The checks on a header before its format code: its length, its magic and its size field. -/
structure HeaderStarts (st : List Byte) : Prop where
  length : 64 ≤ st.length
  magic : slice st 0 4 = [0x32#8, 0x49#8, 0x4D#8, 0x47#8]
  size : field st 8 2 = 64

/-- All the checks of a header: its format code is that of `layout`, and a ProDOS image has 280 blocks. -/
structure HeaderPasses (st : List Byte) (layout : Layout) : Prop extends HeaderStarts st where
  format : layoutOf st = some layout
  blocks : layout = .prodos → field st 20 4 = 280

section
variable (cfg : Config) {st : List Byte} (wp : Bool)

theorem readHeader_truncated (h : st.length < 64) : readHeader cfg st wp = .error .truncated :=
  if_pos h

theorem readHeader_magic (hlen : 64 ≤ st.length) (h : slice st 0 4 ≠ [0x32#8, 0x49#8, 0x4D#8, 0x47#8]) :
    readHeader cfg st wp = .error .magic := by
  rw [readHeader, if_neg (Nat.not_lt.mpr hlen)]
  exact if_pos h

theorem readHeader_headerSize (hlen : 64 ≤ st.length) (hmagic : slice st 0 4 = [0x32#8, 0x49#8, 0x4D#8, 0x47#8])
    (h : field st 8 2 ≠ 64) : readHeader cfg st wp = .error .headerSize := by
  rw [readHeader, if_neg (Nat.not_lt.mpr hlen), if_neg (c := st.take 4 ≠ img2Magic) (not_not.mpr hmagic), header16_eq_field]
  exact if_pos h

/-- Once the first three checks have passed, the format code decides. -/
theorem readHeader_of_starts (hs : HeaderStarts st) :
    readHeader cfg st wp =
      (layoutOf st).elim (.error .imageFormat) fun layout =>
        if layout = .prodos ∧ field st 20 4 ≠ 280 then .error .numBlocks
        else .ok
          { layout := layout
            volume := flagsVolume cfg (field st 16 4)
            wp := wp || (field st 16 4).testBit 31
            payload := st.drop 64 } := by
  rw [readHeader, if_neg (Nat.not_lt.mpr hs.length), if_neg (c := st.take 4 ≠ img2Magic) (not_not.mpr hs.magic),
    header16_eq_field, if_neg (not_not.mpr hs.size), header32_eq_field, header32_eq_field]
  cases layoutOf st <;> rfl

theorem readHeader_imageFormat (hs : HeaderStarts st) (h : layoutOf st = none) :
    readHeader cfg st wp = .error .imageFormat := by
  rw [readHeader_of_starts cfg wp hs, h, Option.elim_none]

theorem readHeader_numBlocks (hs : HeaderStarts st) (h : layoutOf st = some .prodos) (hblocks : field st 20 4 ≠ 280) :
    readHeader cfg st wp = .error .numBlocks := by
  rw [readHeader_of_starts cfg wp hs, h, Option.elim_some, if_pos ⟨rfl, hblocks⟩]

theorem readImage_of_passes {layout : Layout} (hp : HeaderPasses st layout) :
    readImage cfg .img2 st wp = .ok
      { layout := layout
        volume := flagsVolume cfg (field st 16 4)
        wp := wp || (field st 16 4).testBit 31
        payload := st.drop 64 } := by
  rw [readImage, readHeader_of_starts cfg wp hp.toHeaderStarts, hp.format, Option.elim_some,
    if_neg fun hfails => hfails.2 (hp.blocks hfails.1)]

end

/-- Settles O44: each clause is the first check that fails. -/
theorem headerChecksInOrder : Obligations.HeaderChecksInOrder := by
  intro d st wp
  refine ⟨fun hlen => ?_, fun hlen hmagic => ?_, fun hlen hmagic hsize => ?_, fun hlen hmagic hsize hformat => ?_,
    fun hlen hmagic hsize hformat hblocks => ?_⟩ <;> refine mountFails_of_readImage d fun cfg => ?_
  · exact readHeader_truncated cfg wp hlen
  · exact readHeader_magic cfg wp hlen hmagic
  · exact readHeader_headerSize cfg wp hlen hmagic hsize
  · exact readHeader_imageFormat cfg wp ⟨hlen, hmagic, hsize⟩ (layoutOf_eq_none hformat)
  · exact readHeader_numBlocks cfg wp ⟨hlen, hmagic, hsize⟩ (layoutOf_prodos hformat) hblocks

/-! ### Behind a good header (R107, R109) -/

theorem slice_drop (l : List Byte) (k a n : Nat) : slice (l.drop k) a n = slice l (k + a) n := by
  rw [slice, List.drop_drop, slice]

/-- The volume byte is the low eight bits of the flags word. -/
theorem flagsVolume_eq (cfg : Config) (flags : Nat) :
    flagsVolume cfg flags = if flags.testBit 8 then BitVec.ofNat 8 (flags % 256) else cfg.defaultVolume := by
  have hlow : BitVec.ofNat 8 (flags % 256) = BitVec.ofNat 8 flags := BitVec.eq_of_toNat_eq (by simp)
  rw [flagsVolume, hlow]

section
variable {st : List Byte} {layout : Layout} (d : Drive) (wp : Bool) (hp : HeaderPasses st layout)
include hp

theorem mountFails_wrapped (hshort : st.length < 64 + trackBytes layout * 35) : MountFails d .img2 st wp .truncated := by
  refine mountFails_truncated (layout := layout) (payload := st.drop 64) d
    (fun cfg => ⟨_, readImage_of_passes cfg wp hp, rfl, rfl⟩) ?_
  have hlen : 64 ≤ st.length := hp.length
  rw [List.length_drop]
  omega

theorem mounts_wrapped (s : State) (hlong : 64 + trackBytes layout * 35 ≤ st.length) :
    ∃ t, exec (.mount d .img2 st wp) s = .next t ∧
      Mounted s t d (wp || (field st 16 4).testBit 31) (fun tr => ingestTrack s.cfg layout
        (flagsVolume s.cfg (field st 16 4)) tr (slice st (64 + trackBytes layout * tr) (trackBytes layout))) := by
  simp only [← slice_drop]
  exact mounts_of_readImage d (readImage_of_passes s.cfg wp hp) (by simpa using Nat.le_sub_of_add_le' hlong)

end

section
variable {st : List Byte} (hs : HeaderStarts st)
include hs

theorem HeaderStarts.passes_dos (h : field st 12 4 = 0) : HeaderPasses st .dos :=
  ⟨hs, layoutOf_dos h, nofun⟩

theorem HeaderStarts.passes_prodos (h : field st 12 4 = 1) (hblocks : field st 20 4 = 280) : HeaderPasses st .prodos :=
  ⟨hs, layoutOf_prodos h, fun _ => hblocks⟩

theorem HeaderStarts.passes_nib (h : field st 12 4 = 2) : HeaderPasses st .nib :=
  ⟨hs, layoutOf_nib h, nofun⟩

end

/-- Settles O45: raw or behind a good header, the payload does not hold its 35 tracks. -/
theorem shortStreamsAreTruncated : Obligations.ShortStreamsAreTruncated := by
  intro d st wp
  refine ⟨fun hshort => ⟨?_, ?_⟩, fun hshort => ?_, fun hlen hmagic hsize hcase => ?_⟩
  · exact mountFails_raw (layout := .dos) d wp rfl (by simpa using hshort)
  · exact mountFails_raw (layout := .prodos) d wp rfl (by simpa using hshort)
  · exact mountFails_raw (layout := .nib) d wp rfl (by simpa using hshort)
  · have hs : HeaderStarts st := ⟨hlen, hmagic, hsize⟩
    obtain ⟨hdos | ⟨hprodos, hblocks⟩, hshort⟩ | ⟨hnib, hshort⟩ := hcase
    · exact mountFails_wrapped d wp (hs.passes_dos hdos) (by simpa using hshort)
    · exact mountFails_wrapped d wp (hs.passes_prodos hprodos hblocks) (by simpa using hshort)
    · exact mountFails_wrapped d wp (hs.passes_nib hnib) (by simpa using hshort)

/-- Settles O47: a header that passes gives the flag and the volume, and the payload from byte 64 on its tracks. -/
theorem wrappedImagesMount : Obligations.WrappedImagesMount := by
  intro d st wp s vol hlen hmagic hsize hvol
  rw [← flagsVolume_eq] at hvol
  subst hvol
  have hs : HeaderStarts st := ⟨hlen, hmagic, hsize⟩
  refine ⟨fun hdos hlong => ?_, fun hprodos hblocks hlong => ?_, fun hnib hlong => ?_⟩
  · exact mounts_wrapped d wp (hs.passes_dos hdos) s (by simpa using hlong)
  · exact mounts_wrapped d wp (hs.passes_prodos hprodos hblocks) s (by simpa using hlong)
  · exact mounts_wrapped d wp (hs.passes_nib hnib) s (by simpa using hlong)

end Sys2Proof.Loader

/-! PROOFS. The statements of 42_nibble_codec.md: the closed forms of SPLIT62 and JOIN62, what RDADDR and RDDATA accept and read
back, and the layout of an encoded track. -/

namespace Sys2Proof.NibbleCodec

open Sys2Proof.Machine Sys2Proof.Claims

/-! ### What the operations return -/

theorem onlyReturns_unique {i : Instr} {s : State} {r r' : Result} (h : OnlyReturns i s r) (h' : OnlyReturns i s r') : r = r' :=
  congrArg State.result (Host.Outcome.next.inj (h.symm.trans h'))

section
variable (b n : List Byte) (hi lo : List Six) (v t c : Byte) (s : State)

theorem onlyReturns_split62 : OnlyReturns (.split62 b) s (.split (splitHigh b) (splitLow b)) := rfl
theorem onlyReturns_join62 : OnlyReturns (.join62 hi lo) s (.bytes (join62 hi lo)) := rfl
theorem onlyReturns_wraddr : OnlyReturns (.wraddr v t c) s (.nibbles (wraddr v t c)) := rfl
theorem onlyReturns_rdaddr : OnlyReturns (.rdaddr n) s (rdaddr n) := rfl
theorem onlyReturns_wrdata : OnlyReturns (.wrdata hi lo) s (.nibbles (wrdata s.cfg hi lo)) := rfl
theorem onlyReturns_enctrack (data : List Byte) (order : Order) :
    OnlyReturns (.enctrack data v t order) s (.nibbles (enctrack s.cfg data v t order)) := rfl

end

section
variable {b n : List Byte} {s : State}

/-- RDDATA where `ok` is true (R129). -/
theorem onlyReturns_rddata (h : rddata s.cfg n = some b) :
    OnlyReturns (.rddata n) s (.sector b true) := by
  show Host.Outcome.next (rddataResult n s) = _
  rw [rddataResult, h]
  rfl

/-- RDDATA where `ok` is false: 256 unspecified bytes, at the cost of one draw (R129; log 7). -/
theorem exec_rddata_rejected (h : rddata s.cfg n = none) :
    exec (.rddata n) s =
      .next { s with result := .sector ((List.range 256).map (Config.unspecified s.draws)) false, draws := s.draws + 1 } := by
  show Host.Outcome.next (rddataResult n s) = _
  rw [rddataResult, h]
  rfl

end

/-! ### The 6-and-2 code as arithmetic (R122 to R124) -/

/-- A value shifted up by two with two bits put below it. -/
theorem toNat_shiftLeft_two_or {w : Nat} (x y : BitVec w) (hx : 4 * x.toNat < 2 ^ w) (hy : y.toNat < 4) :
    (x <<< 2 ||| y).toNat = 4 * x.toNat + y.toNat := by
  have hshift : x.toNat <<< 2 = 4 * x.toNat := by rw [Nat.shiftLeft_eq]; omega
  rw [BitVec.toNat_or, BitVec.toNat_shiftLeft, hshift, Nat.mod_eq_of_lt hx, ← hshift,
    ← Nat.shiftLeft_add_eq_or_of_lt (i := 2) hy]

theorem toNat_swap2 (x : BitVec 2) : (swap2 x).toNat = 2 * (x.getLsbD 0).toNat + (x.getLsbD 1).toNat := by
  revert x
  decide

theorem toNat_foldBits (b : Byte) : (foldBits b).toNat = swapped b := by
  rw [foldBits, BitVec.toNat_setWidth_of_le (by omega), toNat_swap2, swapped]
  simp

theorem swapped_lt (b : Byte) : swapped b < 4 := by
  rw [← toNat_foldBits, foldBits, BitVec.toNat_setWidth_of_le (by omega)]
  exact (swap2 _).isLt

/-- A slot that three bytes were folded into. -/
theorem toNat_fold_three (a b c : Byte) :
    (((foldBits a <<< 2 ||| foldBits b) <<< 2) ||| foldBits c).toNat = 16 * swapped a + 4 * swapped b + swapped c := by
  have ha := swapped_lt a
  have hb := swapped_lt b
  have hc := swapped_lt c
  simp only [← toNat_foldBits] at ha hb hc ⊢
  have hab := toNat_shiftLeft_two_or (foldBits a) (foldBits b) (by omega) hb
  rw [toNat_shiftLeft_two_or _ _ (by omega) hc, hab]
  omega

theorem toNat_getD_splitHigh (b : List Byte) {i : Nat} (hi : i < 256) :
    ((splitHigh b).getD i 0#6).toNat = (b.getD i 0#8).toNat / 4 := by
  have hlt := (b.getD i 0#8).isLt
  rw [getD_splitHigh b i hi, BitVec.toNat_setWidth, BitVec.toNat_ushiftRight, Nat.shiftRight_eq_div_pow]
  omega

/-- Settles O32: each high value is a quotient, and each slot is three folds (`getD_splitLow`) read as a number. -/
theorem splitHasItsClosedForm : Obligations.SplitHasItsClosedForm := by
  intro b s _
  refine ⟨_, _, onlyReturns_split62 b s, length_splitHigh b, length_splitLow b, fun i hi => toNat_getD_splitHigh b hi,
    fun j hj => ?_⟩
  rw [getD_splitLow b j hj, toNat_fold_three]

theorem toNat_joinByte (hi lo : List Six) (i : Nat) :
    (joinByte hi lo i).toNat = 4 * (hi.getD i 0#6).toNat +
      (2 * ((lo.getD (85 - i % 86) 0#6).getLsbD (2 * (i / 86))).toNat +
        ((lo.getD (85 - i % 86) 0#6).getLsbD (2 * (i / 86) + 1)).toNat) := by
  generalize hx : hi.getD i 0#6 = x
  generalize hy : lo.getD (85 - i % 86) 0#6 = y
  have hlt := x.isLt
  have hwide : (x.setWidth 8).toNat = x.toNat := BitVec.toNat_setWidth_of_le (by omega)
  have hlow : ((swap2 ((y >>> (2 * (i / 86))).setWidth 2)).setWidth 8).toNat =
      (swap2 ((y >>> (2 * (i / 86))).setWidth 2)).toNat := BitVec.toNat_setWidth_of_le (by omega)
  rw [joinByte, hx, hy, toNat_shiftLeft_two_or _ _ (by omega) (by rw [hlow]; exact BitVec.isLt _), hwide, hlow, toNat_swap2]
  simp

/-- Settles O33: JOIN62's bytes are `joinByte`, which is the formula of R124 in arithmetic. -/
theorem joinFormula : Obligations.JoinFormula := by
  intro hi lo s _ _
  refine ⟨_, onlyReturns_join62 hi lo s, length_join62 hi lo, fun i hlt => ?_⟩
  rw [getD_join62 hi lo i hlt, toNat_joinByte]

/-- Settles O34, by R133 (b) on the model's lists. -/
theorem joinUndoesSplit : Obligations.JoinUndoesSplit := by
  intro b s hb
  have hjoin := onlyReturns_join62 (splitHigh b) (splitLow b) s
  rw [join62_split b hb] at hjoin
  exact ⟨_, _, onlyReturns_split62 b s, hjoin⟩

/-! ### The address field (R73, R127) -/

/-- A condition on every nibble of a slice, nibble by nibble. -/
theorem forall_mem_slice_iff {l : List Byte} {a n : Nat} (h : a + n ≤ l.length) (P : Byte → Prop) :
    (∀ x ∈ slice l a n, P x) ↔ ∀ k, a ≤ k → k < a + n → P (l.getD k 0#8) := by
  have hlen : (slice l a n).length = n := by simp [slice]; omega
  rw [List.forall_mem_iff_forall_getElem]
  constructor
  · intro hmem k hk hkn
    have hP := hmem (k - a) (by omega)
    rw [List.getD_eq_getElem _ _ (by omega)]
    simpa [slice, Nat.add_sub_cancel' hk] using hP
  · intro hk i hi
    have hP := hk (a + i) (by omega) (by omega)
    rw [List.getD_eq_getElem _ _ (by omega)] at hP
    simpa [slice] using hP

/-- RDADDR's `ok`, conjunct by conjunct, with R73's condition on the eight 4-and-4 nibbles. -/
theorem addressOk_iff_conditions {n : List Byte} (hn : n.length = 14) :
    addressOk n = true ↔ slice n 0 3 = addressPrologue ∧ slice n 11 3 = epilogue ∧
      field44 n 9 = field44 n 3 ^^^ field44 n 5 ^^^ field44 n 7 ∧
      ∀ k, 3 ≤ k → k < 11 → ∀ b < 8, b % 2 = 1 → (n.getD k 0#8).getLsbD b = true := by
  have hodd : ((n.drop 3).take 8).all oddBitsSet = true ↔
      ∀ k, 3 ≤ k → k < 11 → ∀ b < 8, b % 2 = 1 → (n.getD k 0#8).getLsbD b = true := by
    simp only [List.all_eq_true, oddBitsSet_iff]
    exact forall_mem_slice_iff (by omega) _
  simp only [addressOk, Bool.and_eq_true, beq_iff_eq, hodd, slice, List.drop_zero]
  tauto

/-- Settles O36: WRADDR's nibbles are accepted (R133 (c)); and what RDADDR accepts is what WRADDR writes (`addressOk_iff`). -/
theorem addressFieldReadsBack : Obligations.AddressFieldReadsBack := by
  refine ⟨fun v t c l s h => ?_, fun n s hn => ?_⟩
  · obtain rfl : l = wraddr v t c := Result.nibbles.inj (onlyReturns_unique h (onlyReturns_wraddr v t c s))
    rw [← rdaddr_wraddr]
    exact onlyReturns_rdaddr _ s
  · refine ⟨field44 n, addressOk n, onlyReturns_rdaddr n s, fun _ => rfl, addressOk_iff_conditions hn, fun hok => ?_⟩
    have hwritten := onlyReturns_wraddr (field44 n 3) (field44 n 5) (field44 n 7) s
    rwa [← (addressOk_iff n hn).mp hok] at hwritten

/-! ### The data field (R129) -/

/-- `n` is a data field that RDDATA accepts, with `x` the values of its 343 symbols (R129). -/
structure FieldHolds (cfg : Config) (n : List Byte) (x : List Six) : Prop where
  prologue : slice n 0 3 = dataPrologue
  epilogue : slice n 346 3 = epilogue
  symbols : x.map (gcr cfg) = slice n 3 343
  checksum : x.foldl (· ^^^ ·) 0#6 = 0#6

/-- The high and the low values that a data field with the symbol values `x` carries. -/
def carriedHigh (x : List Six) : List Six := ((unchain 0#6 x).drop 86).take 256
def carriedLow (x : List Six) : List Six := ((unchain 0#6 x).take 86).reverse

section
variable {cfg : Config} {n : List Byte} {x : List Six}

theorem length_of_symbols (hn : n.length = 349) (hx : x.map (gcr cfg) = slice n 3 343) : x.length = 343 := by
  have hlen := congrArg List.length hx
  simpa [slice, hn] using hlen

/-- The running XOR that RDDATA tests is the XOR of all 343 values. -/
theorem getD_unchain_checksum (hx : x.length = 343) : (unchain 0#6 x).getD 342 0#6 = x.foldl (· ^^^ ·) 0#6 := by
  rw [getD_unchain x 0#6 342 (by omega), List.take_of_length_le (by omega)]

theorem rddata_of_fieldHolds (h64 : cfg.gcr62.length = 64) (hd : cfg.gcr62.Nodup) (hn : n.length = 349)
    (h : FieldHolds cfg n x) : rddata cfg n = some (join62 (carriedHigh x) (carriedLow x)) := by
  obtain ⟨hprologue, hepilogue, hsymbols, hchecksum⟩ := h
  have hplain : fieldPlaintext cfg n = some (unchain 0#6 x) := by
    rw [fieldPlaintext, ← slice, ← hsymbols, mapM_inv62_map h64 hd]
    rfl
  have hzero := (getD_unchain_checksum (length_of_symbols hn hsymbols)).trans hchecksum
  simp only [slice, List.drop_zero] at hprologue hepilogue
  rw [rddata, if_pos (by simp [hprologue, hepilogue]), hplain]
  exact if_pos hzero

theorem exists_fieldHolds_of_rddata (h64 : cfg.gcr62.length = 64) (hn : n.length = 349) {b : List Byte}
    (h : rddata cfg n = some b) : ∃ x, FieldHolds cfg n x := by
  unfold rddata at h
  split at h
  case isFalse => cases h
  case isTrue hframe =>
    simp only [Bool.and_eq_true, beq_iff_eq] at hframe
    split at h
    case h_1 => cases h
    case h_2 p hp =>
      obtain ⟨x, hx, rfl⟩ := Option.map_eq_some_iff.mp hp
      have hsymbols := map_gcr_of_mapM_inv62 h64 hx
      split at h
      case isFalse => cases h
      case isTrue hzero =>
        rw [getD_unchain_checksum (length_of_symbols hn hsymbols)] at hzero
        exact ⟨x, hframe.1, hframe.2, hsymbols, hzero⟩

theorem length_carriedHigh (hx : x.length = 343) : (carriedHigh x).length = 256 := by simp [carriedHigh, hx]

theorem length_carriedLow (hx : x.length = 343) : (carriedLow x).length = 86 := by simp [carriedLow, hx]

/-- In the order of R65 the carried values are the running XORs. -/
theorem plain_carried (hx : x.length = 343) {k : Nat} (hk : k < 342) :
    plain (carriedHigh x) (carriedLow x) k = (x.take (k + 1)).foldl (· ^^^ ·) 0#6 := by
  have hjoined : (carriedLow x).reverse ++ carriedHigh x = (unchain 0#6 x).take 342 := by
    rw [carriedLow, carriedHigh, List.reverse_reverse, ← List.take_add]
  rw [← Encoding.getD_reverse_append (length_carriedLow hx), hjoined, ← getD_unchain x 0#6 k (by omega)]
  simp [List.getD_eq_getElem?_getD, hk]

end

/-- Settles O39: a field that holds reads as JOIN62 of what it carries; where none holds RDDATA gives no bytes of its own. -/
theorem dataFieldAcceptance : Obligations.DataFieldAcceptance := by
  intro n s h64 hd hn
  refine ⟨fun x hprologue hepilogue hsymbols hchecksum => ?_, fun hnot => exec_rddata_rejected ?_⟩
  · have hx := length_of_symbols hn hsymbols
    have hread := rddata_of_fieldHolds h64 hd hn ⟨hprologue, hepilogue, hsymbols, hchecksum⟩
    exact ⟨carriedHigh x, carriedLow x, _, length_carriedHigh hx, length_carriedLow hx, length_join62 ..,
      fun k => plain_carried hx, onlyReturns_join62 _ _ s, onlyReturns_rddata hread⟩
  · refine Option.eq_none_iff_forall_ne_some.mpr fun b hb => hnot ?_
    obtain ⟨x, hprologue, hepilogue, hsymbols, hchecksum⟩ := exists_fieldHolds_of_rddata h64 hn hb
    exact ⟨hprologue, hepilogue, x, hsymbols, hchecksum⟩

theorem rddata_wrdata_split {cfg : Config} (h64 : cfg.gcr62.length = 64) (hd : cfg.gcr62.Nodup) {b : List Byte}
    (hb : b.length = 256) : rddata cfg (wrdata cfg (splitHigh b) (splitLow b)) = some b := by
  rw [rddata_wrdata h64 hd (length_splitHigh b) (length_splitLow b), join62_split b hb]

/-- Settles O38: RDDATA undoes WRDATA up to JOIN62, and JOIN62 undoes SPLIT62. -/
theorem dataFieldReadsBack : Obligations.DataFieldReadsBack := fun b s h64 hd hb =>
  ⟨_, _, _, onlyReturns_split62 b s, onlyReturns_wrdata _ _ s, onlyReturns_rddata (rddata_wrdata_split h64 hd hb)⟩

/-! ### The encoded track (R66, R130 to R132) -/

theorem length_interleave {cfg : Config} (h : ConfigLegal cfg) (order : Order) : (interleave cfg order).length = 16 := by
  obtain ⟨-, -, -, -, -, hdos, -, hprodos, -⟩ := h
  cases order
  case dos => exact hdos
  case prodos => exact hprodos

/-- The logical sector that physical sector `p` of a track holds (R69). -/
def logicalSector (cfg : Config) (order : Order) (p : Fin 16) : Fin 16 := (interleave cfg order).getD p.val 0

theorem getElem?_interleave {cfg : Config} (h : ConfigLegal cfg) (order : Order) (p : Fin 16) :
    (interleave cfg order)[p.val]? = some (logicalSector cfg order p) := by
  have hp : p.val < (interleave cfg order).length := by rw [length_interleave h]; exact p.isLt
  rw [logicalSector, List.getD_eq_getElem _ _ hp, List.getElem?_eq_getElem hp]

section
variable (cfg : Config) (data : List Byte) (v t : Byte) (order : Order) (p : Fin 16)

/-- A part of a physical sector, cut from the track. -/
theorem slice_enctrack {a n : Nat} (h : a + n ≤ 383) :
    slice (enctrack cfg data v t order) (383 * p.val + a) n = slice (encSector cfg data v t order p.val) a n :=
  field_of_enctrack data v t order p.val a n p.isLt h

/-! The first 34 nibbles of a sector have fixed places, so their slices are computed. -/

theorem slice_enctrack_gapBeforeAddress :
    slice (enctrack cfg data v t order) (383 * p.val) 12 = List.replicate 12 0xFF#8 :=
  slice_enctrack cfg data v t order p (a := 0) (by omega)

theorem slice_enctrack_address :
    slice (enctrack cfg data v t order) (383 * p.val + 12) 14 = wraddr v t (BitVec.ofNat 8 p.val) :=
  slice_enctrack cfg data v t order p (by omega)

theorem slice_enctrack_gapBeforeData :
    slice (enctrack cfg data v t order) (383 * p.val + 26) 8 = List.replicate 8 0xFF#8 :=
  slice_enctrack cfg data v t order p (by omega)

theorem slice_enctrack_data :
    slice (enctrack cfg data v t order) (383 * p.val + 34) 349 =
      wrdata cfg (splitHigh (sectorData data (logicalSector cfg order p)))
        (splitLow (sectorData data (logicalSector cfg order p))) := by
  rw [slice_enctrack cfg data v t order p (by omega), encSector, slice,
    List.drop_left' (by simp [syncBeforeAddress, syncBeforeData])]
  exact List.take_of_length_le (by simp)

theorem slice_enctrack_pad : slice (enctrack cfg data v t order) 6128 528 = List.replicate 528 0x7F#8 := by
  rw [enctrack, padTrack, length_encSectors, slice, List.drop_left' (length_encSectors ..)]
  exact List.take_of_length_le (by simp)

end

theorem length_sectorData {data : List Byte} (h : data.length = 4096) (l : Fin 16) : (sectorData data l).length = 256 := by
  have hl := l.isLt
  simp only [sectorData, List.length_take, List.length_drop]
  omega

/-- Settles O40: each part of an encoded track, sliced out of it. -/
theorem trackLayout : Obligations.TrackLayout := by
  intro data v t order s hcfg _
  refine ⟨_, onlyReturns_enctrack v t s data order, length_enctrack .., fun p => ⟨_, getElem?_interleave hcfg order p,
    slice_enctrack_gapBeforeAddress .., ?_, slice_enctrack_gapBeforeData .., _, _, onlyReturns_split62 _ s, ?_⟩,
    slice_enctrack_pad ..⟩
  · rw [slice_enctrack_address]
    exact onlyReturns_wraddr ..
  · rw [slice_enctrack_data]
    exact onlyReturns_wrdata ..

theorem eq_enctrack_of_onlyReturns {data nib : List Byte} {v t : Byte} {order : Order} {s : State}
    (h : OnlyReturns (.enctrack data v t order) s (.nibbles nib)) : nib = enctrack s.cfg data v t order :=
  Result.nibbles.inj (onlyReturns_unique h (onlyReturns_enctrack ..))

/-- Settles O41: the address field and the data field of a sector are what WRADDR and WRDATA write, and each reads back. -/
theorem trackReadsBack : Obligations.TrackReadsBack := by
  intro data nib v t order s hcfg hdata hnib p
  obtain rfl := eq_enctrack_of_onlyReturns hnib
  have hentry := getElem?_interleave hcfg order p
  obtain ⟨h64, hd, -⟩ := hcfg
  refine ⟨logicalSector s.cfg order p, hentry, ?_, ?_⟩
  · rw [slice_enctrack_address, ← rdaddr_wraddr]
    exact onlyReturns_rdaddr _ s
  · rw [slice_enctrack_data]
    exact onlyReturns_rddata (rddata_wrdata_split h64 hd (length_sectorData hdata _))

/-- Settles O42, by R133 (f) on the model's lists. -/
theorem structuredNibblesHaveBit7 : Obligations.StructuredNibblesHaveBit7 := by
  intro data nib v t order s hcfg h7 hdata hnib
  obtain rfl := eq_enctrack_of_onlyReturns hnib
  obtain ⟨h64, hd, -⟩ := hcfg
  exact (codecLaws h64 hd h7).structuredNibbles data v t order hdata

end Sys2Proof.NibbleCodec

/-! PROOFS. The statements of 43_disk2_controller.md: the machine's invariant, the switches, the shift/latch cycle and the ROM
window. -/

namespace Sys2Proof.DiskController

open Sys2Proof.Machine Sys2Proof.Claims Sys2Proof.Scope Sys2Proof.Registers

/-! ### The tracks stay canonical (R42, R111, R173, R181) -/

theorem diskLegal_iff {k : Disk} : DiskLegal k ↔ ∀ d, Memory.wf trackUnlisted driveBytes (driveState k d).trk := by
  constructor
  · rintro ⟨h0, h1⟩ (_ | _)
    · exact h0
    · exact h1
  · exact fun h => ⟨h .d0, h .d1⟩

theorem commitMount_diskLegal {cfg : Config} {hint : Hint} {stream : List Byte} {wp w : Bool} {tracks : List (List Byte)}
    {k : Disk} (hk : DiskLegal k) (hload : loadImage cfg hint stream wp = .ok (w, tracks)) (d : Drive) :
    DiskLegal (commitMount d w tracks k) := by
  obtain ⟨g, rfl, hg⟩ := tracks_of_loadImage hload
  refine diskLegal_iff.mpr fun e => ?_
  rw [driveState_commitMount]
  split_ifs
  · exact (trkWriteAll_tracks g hg).1
  · exact diskLegal_iff.mp hk e

theorem mountResult_diskLegal {s : State} (hs : DiskLegal s.disk) (d : Drive) (hint : Hint) (stream : List Byte) (wp : Bool) :
    DiskLegal (mountResult d hint stream wp s).disk := by
  obtain ⟨e, -, hm⟩ | ⟨w, tracks, hload, hm⟩ := mountResult_cases d hint stream wp s <;> rw [hm]
  · exact hs
  · exact commitMount_diskLegal hs hload d

/-- A drive's tracks are left alone, stored to at one place, or replaced by a mount, whatever the operation. -/
theorem exec_diskLegal {i : Instr} {s t : State} (h : exec i s = .next t) (hs : DiskLegal s.disk) : DiskLegal t.disk := by
  refine diskLegal_iff.mpr fun d => ?_
  have hd := diskLegal_iff.mp hs d
  obtain ⟨-, htrk | ⟨-, -, -, htrk⟩⟩ | ⟨⟨hint, stream, wp, rfl⟩, -⟩ := (exec_diskChange h).driveState_cases d
  · rwa [htrk]
  · rw [htrk]
    exact trkWrite_wf hd _ _ _
  · obtain rfl : mountResult d hint stream wp s = t := Host.Outcome.next.inj h
    exact diskLegal_iff.mp (mountResult_diskLegal hs d hint stream wp) d

/-! ### The synthesizer stays legal (R196, R204 to R206, R212) -/

theorem fill_speakerLegal {c : Config} {k : Speaker} (f : FlipRing) (e : Clock) (hk : SpeakerLegal c k) :
    SpeakerLegal c (fill c.flipRingSize f e k).2 := by
  obtain ⟨hrd, hpcm, hcps⟩ := hk
  obtain ⟨m, -, -, -, hfill⟩ := fill_spec (size := c.flipRingSize) (f := f) e k
  rw [hfill]
  exact ⟨samples_ringRd_lt m 0 k hrd, by simpa using hpcm, by simpa using hcps⟩

theorem refresh_speakerLegal {c : Config} {k : Speaker} (f : FlipRing) (e : Clock) (hk : SpeakerLegal c k) :
    SpeakerLegal c (refresh c.flipRingSize f e k).2 := by
  unfold refresh
  split_ifs
  · exact hk
  · exact (refreshLoop_induct (P := SpeakerLegal c) (Q := fun _ => True)
      (fun x hx => ⟨fill_speakerLegal f e hx, fun _ => trivial⟩) refreshBound k hk).1

theorem refreshed_speakerLegal {s : State} (hs : SpeakerLegal s.cfg s.spk) : SpeakerLegal s.cfg (refreshed s).spk := by
  obtain ⟨-, h⟩ | ⟨-, -, h⟩ | ⟨-, -, h⟩ := refreshed_cases s <;> rw [h]
  · exact hs
  · exact hs
  · exact refresh_speakerLegal s.flips s.inp.clockNow hs

theorem closeSink_speakerLegal {s : State} (hs : SpeakerLegal s.cfg s.spk) : SpeakerLegal s.cfg (closeSink s).spk := by
  obtain ⟨hrd, hpcm, -⟩ := hs
  rw [closeSink_spk]
  exact ⟨hrd, hpcm, fun h => by simp at h⟩

/-- SPKRESUME opens the sink only with a step of at least 1 (R205). -/
theorem resume_speakerLegal {s : State} (hs : SpeakerLegal s.cfg s.spk) : SpeakerLegal s.cfg (resume s).spk := by
  obtain ⟨hrd, -, -⟩ := id hs
  unfold resume
  split_ifs with hstep
  · exact hs
  · split
    · exact hs
    · exact ⟨hrd, by simp [unspecifiedBytes], fun _ => Nat.pos_of_ne_zero hstep⟩

theorem exec_speakerLegal {i : Instr} {s t : State} (h : exec i s = .next t) (hs : SpeakerLegal s.cfg s.spk) :
    SpeakerLegal s.cfg t.spk := by
  obtain ⟨-, hspk, -⟩ := unitsShareNoState i s t h
  by_cases hp : partOf i = .speaker
  · cases i <;> cases hp <;> cases h
    case pos.spkfill e => exact fill_speakerLegal s.flips e hs
    case pos.spkrefresh => exact refreshed_speakerLegal hs
    case pos.spkvol | pos.spkreset => exact hs
    case pos.spkpause => exact closeSink_speakerLegal hs
    case pos.spkresume =>
      have hclosed := closeSink_speakerLegal hs
      rw [← closeSink_cfg s] at hclosed ⊢
      exact resume_speakerLegal hclosed
  · rwa [hspk hp]

/-! ### The flip ring and the paddles stay legal (R190, R216) -/

theorem exec_ringLegal {i : Instr} {s t : State} (h : exec i s = .next t) (hs : RingLegal s.cfg s.flips) :
    RingLegal s.cfg t.flips := by
  obtain ⟨-, -, hflips, -⟩ := unitsShareNoState i s t h
  by_cases hp : partOf i = .flips
  · cases i <;> cases hp
    cases h
    obtain ⟨hlen, hwr⟩ := hs
    exact ⟨(List.length_set ..).trans hlen, Nat.mod_lt _ (Nat.zero_lt_of_lt hwr)⟩
  · rwa [hflips hp]

theorem set_paddleLegal {p : Paddle} (hp : PaddleLegal p) (a : Index4) (value : Byte) :
    PaddleLegal { p with inc := p.inc.set a.val (paddleIncrement value) a.isLt } := by
  intro b
  show ∃ v : Byte, (p.inc.set a.val (paddleIncrement value) a.isLt)[b.val] = v.toNat * 11 + 8
  rw [Vector.getElem_set]
  split_ifs
  · exact ⟨value, rfl⟩
  · exact hp b

theorem exec_paddleLegal {i : Instr} {s t : State} (h : exec i s = .next t) (hs : PaddleLegal s.pdl) :
    PaddleLegal t.pdl := by
  obtain ⟨-, -, -, hpdl, -⟩ := unitsShareNoState i s t h
  by_cases hp : partOf i = .paddle
  · cases i <;> cases hp <;> cases h
    case pos.pdlset a value => exact set_paddleLegal hs (index4 a) value
    all_goals exact hs
  · rwa [hpdl hp]

/-! ### The invariant (R181, R212) -/

theorem exec_legal {i : Instr} {s t : State} (h : exec i s = .next t) (hs : Legal s) : Legal t := by
  obtain ⟨hcfg, hdisk, hspk, hflips, hpdl, hinp, hqueue⟩ := hs
  obtain ⟨-, -, -, -, hcfg', hinp', hqueue', -⟩ := unitsShareNoState i s t h
  have hspk' := exec_speakerLegal h hspk
  have hflips' := exec_ringLegal h hflips
  rw [← hcfg'] at hcfg hspk' hflips'
  exact ⟨hcfg, exec_diskLegal h hdisk, hspk', hflips', exec_paddleLegal h hpdl, hinp' ▸ hinp, hqueue' ▸ hqueue⟩

/-- Settles O3: the step is idle or runs the oldest request, whose inputs are legal, and every operation keeps every unit legal. -/
theorem everyStepKeepsTheInvariant : Obligations.EveryStepKeepsTheInvariant := by
  intro s t hs hstep
  obtain ⟨-, rfl⟩ | ⟨r, q, i, hq, -, hexec⟩ := step_next_cases hstep
  · exact hs
  · obtain ⟨hcfg, hdisk, hspk, hflips, hpdl, -, hqueue⟩ := hs
    rw [hq] at hqueue
    obtain ⟨hr, hrest⟩ := List.forall_mem_cons.mp hqueue
    exact exec_legal hexec ⟨hcfg, hdisk, hspk, hflips, hpdl, hr, hrest⟩

theorem memory_wf_nil (u : Byte) (size : Nat) : Memory.wf u size [] := ⟨.nil, fun _ h => nomatch h⟩

theorem configLegal_standard : ConfigLegal Config.standard :=
  ⟨by decide, by decide, by decide, by decide, by decide, by decide, by decide, by decide, by decide,
    by simp [Config.standard], by decide, by decide, memory_wf_nil _ _, memory_wf_nil _ _⟩

theorem powerOn_legal {c : Config} (hc : ConfigLegal c) : Legal (State.powerOn c) := by
  obtain ⟨-, -, -, -, -, -, -, -, -, -, -, hring, hd0, hd1⟩ := id hc
  refine ⟨hc, ⟨hd0, hd1⟩, ⟨hring, rfl, fun _ => le_rfl⟩, ⟨List.length_replicate, hring⟩, fun a => ⟨0#8, ?_⟩,
    memory_wf_nil _ _, fun _ h => nomatch h⟩
  exact Vector.getElem_replicate ..

/-- Settles O2: reset is power-on with the spec's own parameters, which are legal. -/
theorem powerOnIsLegal : Obligations.PowerOnIsLegal :=
  ⟨powerOn_legal configLegal_standard, fun _ => powerOn_legal⟩

/-! ### What a bus access answers (R164, R165, R167) -/

theorem writeAccess_eq (s : State) (v : Byte) (k : Disk) : writeAccess s v k = .next (afterWrite s k v) := by
  simp [writeAccess, writeLatch, writeLatchOpen, afterWrite, returns, and_assoc]

/-- Every read is its switch effect and then the latch or a draw, by the parity of the address nibble (R164, R167). -/
theorem exec_of_read {i : Instr} {a : Nat} (hn : nibbleOf i = some a) (hw : writtenByte i = none) (s : State) :
    exec i s = .next (if a % 2 = 0 then returnLatch s (switchEffect s.cfg s.inp s.disk i)
      else returnNoise s (switchEffect s.cfg s.inp s.disk i)) := by
  cases i <;> cases hn <;> cases hw <;> rfl

/-- Every write is its switch effect and then the write-latch rule (R165, R167). -/
theorem exec_of_write {i : Instr} {v : Byte} (hw : writtenByte i = some v) (s : State) :
    exec i s = .next (afterWrite s (switchEffect s.cfg s.inp s.disk i) v) := by
  rw [← writeAccess_eq]
  cases i <;> cases hw <;> rfl

theorem nibbleOf_of_decodeRead {addr : Nat} {i : Instr} (h : decodeAccess (.ioRead addr) = .ok i) :
    nibbleOf i = some (addr % 16) ∧ writtenByte i = none := by
  obtain ⟨-, -, ⟨j, hj, hn, hw⟩, -⟩ := Encoding.busDecodeUsesLowFourBits addr 0#8
  cases h.symm.trans hj
  exact ⟨hn, hw⟩

theorem nibbleOf_of_decodeWrite {addr : Nat} {v : Byte} {i : Instr} (h : decodeAccess (.ioWrite addr v) = .ok i) :
    nibbleOf i = some (addr % 16) ∧ writtenByte i = some v := by
  obtain ⟨-, -, -, j, hj, hn, hw⟩ := Encoding.busDecodeUsesLowFourBits addr v
  cases h.symm.trans hj
  exact ⟨hn, hw⟩

/-- Settles O18: a read answers the latch or a draw by the parity of its address nibble. -/
theorem evenReadsReturnTheLatch : Obligations.EvenReadsReturnTheLatch := by
  intro addr i s h
  obtain ⟨hn, hw⟩ := nibbleOf_of_decodeRead h
  refine ⟨_, exec_of_read hn hw s, fun heven => ?_, fun hodd => ?_⟩
  · rw [if_pos (by omega)]
    exact ⟨rfl, rfl⟩
  · rw [if_neg (by omega)]
    exact ⟨rfl, rfl⟩

/-- Only SHIFT and a read of LOAD touch the latch before the write-latch rule does. -/
theorem switchEffect_latch {i : Instr} (hshift : nibbleOf i ≠ some 0xC) (hload : i ≠ .rdLoad) (cfg : Config) (inp : Inputs)
    (k : Disk) : (switchEffect cfg inp k i).latch = k.latch := by
  cases i
  case rdShift | wrShift => exact absurd rfl hshift
  case rdLoad => exact absurd rfl hload
  case rdPh0off | rdPh0on | rdPh1off | rdPh1on | rdPh2off | rdPh2on | rdPh3off | rdPh3on
      | wrPh0off | wrPh0on | wrPh1off | wrPh1on | wrPh2off | wrPh2on | wrPh3off | wrPh3on => exact stepper_latch _
  all_goals rfl

/-- Settles O19: a write ends with the write-latch rule, and before it only SHIFT's cycle writes the latch. -/
theorem anyWriteAddressLoadsTheLatch : Obligations.AnyWriteAddressLoadsTheLatch := by
  intro addr v i s h
  obtain ⟨hn, hw⟩ := nibbleOf_of_decodeWrite h
  refine ⟨_, exec_of_write hw s, rfl, fun hopen => if_pos hopen, fun hclosed haddr => ?_⟩
  have hload : i ≠ .rdLoad := by
    rintro rfl
    cases hw
  exact (if_neg hclosed).trans (switchEffect_latch (by simpa [hn] using haddr) hload _ _ _)

theorem senseProtect_eq (k : Disk) : senseProtect k = { k with latch := (senseProtect k).latch } := by
  unfold senseProtect
  split <;> rfl

/-- A bus access leaves what its switch effect leaves, the latch apart. -/
theorem exec_bus_disk {i : Instr} {a : Nat} {s t : State} (hn : nibbleOf i = some a) (h : exec i s = .next t) (l : Byte) :
    { t.disk with latch := l } = { switchEffect s.cfg s.inp s.disk i with latch := l } := by
  rw [(exec_diskSide h).1]
  cases i <;> cases hn <;> rfl

/-- Selectors 16 apart have the same switch effect but for the sense, which only a read of LOAD makes. -/
theorem switchEffect_read_write {n : Nat} (hn : n < 16) (cfg : Config) (inp : Inputs) (k : Disk) (l v : Byte) :
    { switchEffect cfg inp k (decodeSelector (BitVec.ofNat 5 n) 0#8) with latch := l } =
      { switchEffect cfg inp k (decodeSelector (BitVec.ofNat 5 (16 + n)) v) with latch := l } := by
  obtain hlt | rfl | hgt := lt_trichotomy n 13
  · interval_cases n <;> rfl
  · show { senseProtect { k with loadMode := true } with latch := l } = _
    rw [senseProtect_eq]
    rfl
  · interval_cases n <;> rfl

theorem selector_eq (w : Bool) (addr : Nat) : selector w addr = BitVec.ofNat 5 ((if w then 16 else 0) + addr % 16) := by
  rw [← selector_toNat, BitVec.ofNat_toNat, BitVec.setWidth_eq]

theorem decodeAccess_ioRead (addr : Nat) : decodeAccess (.ioRead addr) = .ok (decodeSelector (BitVec.ofNat 5 (addr % 16)) 0#8) := by
  simp [decodeAccess, selector_eq]

theorem decodeAccess_ioWrite (addr : Nat) (v : Byte) :
    decodeAccess (.ioWrite addr v) = .ok (decodeSelector (BitVec.ofNat 5 (16 + addr % 16)) v) := by
  simp [decodeAccess, selector_eq]

/-- Settles O20: both forms make the switch effect, and then only the latch can differ. -/
theorem readsAndWritesShareTheSwitchEffect : Obligations.ReadsAndWritesShareTheSwitchEffect := by
  intro addr v i j s t u hi hj ht hu
  rw [exec_bus_disk (nibbleOf_of_decodeRead hi).1 ht, exec_bus_disk (nibbleOf_of_decodeWrite hj).1 hu]
  rw [decodeAccess_ioRead] at hi
  rw [decodeAccess_ioWrite] at hj
  cases hi
  cases hj
  exact switchEffect_read_write (Nat.mod_lt _ (by decide)) ..

/-! ### The switches (R150 to R161, R176, R177) -/

theorem encoded_of_selectors {a : Nat} {rd : Instr} {wr : Byte → Instr} (hrd : decodeSelector (BitVec.ofNat 5 a) 0#8 = rd)
    (hwr : ∀ v, decodeSelector (BitVec.ofNat 5 (16 + a)) v = wr v) : Encoded a rd wr := by
  rintro addr rfl
  exact ⟨by rw [decodeAccess_ioRead, hrd], fun v => by rw [decodeAccess_ioWrite, hwr]⟩

section
variable {a : Nat} {rd : Instr} {wr : Byte → Instr} {effect : Disk → Disk → Prop} (f : Disk → Disk)
  (hrd : decodeSelector (BitVec.ofNat 5 a) 0#8 = rd) (hwr : ∀ v, decodeSelector (BitVec.ofNat 5 (16 + a)) v = wr v)

include hrd hwr

theorem evenSwitch (hread : ∀ s, exec rd s = readEven s (f s.disk))
    (hwrite : ∀ s v, exec (wr v) s = writeAccess s v (f s.disk)) (heffect : ∀ k k', effect k k' → k' = f k) :
    EvenSwitch a rd wr effect := by
  refine ⟨encoded_of_selectors hrd hwr, fun s k hk => ?_⟩
  rw [heffect _ _ hk]
  exact ⟨hread s, fun v => (hwrite s v).trans (writeAccess_eq ..)⟩

theorem oddSwitch (hread : ∀ s, exec rd s = readOdd s (f s.disk))
    (hwrite : ∀ s v, exec (wr v) s = writeAccess s v (f s.disk)) (heffect : ∀ k k', effect k k' → k' = f k) :
    OddSwitch a rd wr effect := by
  refine ⟨encoded_of_selectors hrd hwr, fun s k hk => ?_⟩
  rw [heffect _ _ hk]
  exact ⟨hread s, fun v => (hwrite s v).trans (writeAccess_eq ..)⟩

end

theorem eq_clampPos_of_headMoves {phases : BitVec 4} {p q : HalfTrack} (h : HeadMoves phases p q) :
    q = clampPos ((p.val : Int) + stepDirection phases p) := by
  apply Fin.ext
  have hclamp := clampPos_val ((p.val : Int) + stepDirection phases p)
  rw [stepDirection_eq] at hclamp ⊢
  unfold HeadMoves magnetBit at h
  omega

theorem eq_stepper_of_steps {g : BitVec 4 → BitVec 4} {k k' : Disk} (h : Steps g k k') :
    k' = stepper { k with phases := g k.phases } := by
  obtain ⟨drive, _⟩ := k
  cases drive <;> obtain ⟨q, hq, rfl⟩ := h <;> rw [eq_clampPos_of_headMoves hq] <;> rfl

/-- Settles O12: each phase switch writes its magnet and re-evaluates the stepper. -/
theorem phaseSwitchesStepTheHead : Obligations.PhaseSwitchesStepTheHead :=
  ⟨evenSwitch (phaseOff 0) rfl (fun _ => rfl) (fun _ => rfl) (fun _ _ => rfl) fun _ _ => eq_stepper_of_steps,
    oddSwitch (phaseOn 0) rfl (fun _ => rfl) (fun _ => rfl) (fun _ _ => rfl) fun _ _ => eq_stepper_of_steps,
    evenSwitch (phaseOff 1) rfl (fun _ => rfl) (fun _ => rfl) (fun _ _ => rfl) fun _ _ => eq_stepper_of_steps,
    oddSwitch (phaseOn 1) rfl (fun _ => rfl) (fun _ => rfl) (fun _ _ => rfl) fun _ _ => eq_stepper_of_steps,
    evenSwitch (phaseOff 2) rfl (fun _ => rfl) (fun _ => rfl) (fun _ _ => rfl) fun _ _ => eq_stepper_of_steps,
    oddSwitch (phaseOn 2) rfl (fun _ => rfl) (fun _ => rfl) (fun _ _ => rfl) fun _ _ => eq_stepper_of_steps,
    evenSwitch (phaseOff 3) rfl (fun _ => rfl) (fun _ => rfl) (fun _ _ => rfl) fun _ _ => eq_stepper_of_steps,
    oddSwitch (phaseOn 3) rfl (fun _ => rfl) (fun _ => rfl) (fun _ _ => rfl) fun _ _ => eq_stepper_of_steps⟩

/-- Settles O13: each of these switches writes its field. -/
theorem motorDriveAndModeSwitches : Obligations.MotorDriveAndModeSwitches :=
  ⟨evenSwitch (fun k => { k with motorOn := false }) rfl (fun _ => rfl) (fun _ => rfl) (fun _ _ => rfl) fun _ _ => id,
    oddSwitch (fun k => { k with motorOn := true }) rfl (fun _ => rfl) (fun _ => rfl) (fun _ _ => rfl) fun _ _ => id,
    evenSwitch (fun k => { k with drive := .d0 }) rfl (fun _ => rfl) (fun _ => rfl) (fun _ _ => rfl) fun _ _ => id,
    oddSwitch (fun k => { k with drive := .d1 }) rfl (fun _ => rfl) (fun _ => rfl) (fun _ _ => rfl) fun _ _ => id,
    evenSwitch (fun k => { k with writeMode := false }) rfl (fun _ => rfl) (fun _ => rfl) (fun _ _ => rfl) fun _ _ => id,
    oddSwitch (fun k => { k with writeMode := true }) rfl (fun _ => rfl) (fun _ => rfl) (fun _ _ => rfl) fun _ _ => id⟩

/-! ### The head (R166) -/

/-- A change of the controller moves a head only by a phase switch and the stepper. -/
theorem pos_cases_of_diskChange {i : Instr} {r : Result} {k k' : Disk} (h : DiskChange i r k k') (d : Drive) :
    (driveState k' d).pos = (driveState k d).pos ∨
    d = k.drive ∧ (∃ a, nibbleOf i = some a ∧ a < 8) ∧
      (driveState k' d).pos =
        clampPos (((driveState k d).pos.val : Int) + stepDirection k'.phases (driveState k d).pos) := by
  induction h with
  | nothing => exact .inl rfl
  | phases p hn ha =>
    have hsame : driveState { k with phases := p } d = driveState k d := by cases d <;> rfl
    rw [driveState_stepper, hsame]
    split_ifs with hd
    · exact .inr ⟨hd, ⟨_, hn, ha⟩, by rw [stepper_phases]⟩
    · exact .inl rfl
  | motor | drive | load | mode => cases d <;> exact .inl rfl
  | shift =>
    rw [driveState_shiftCycle]
    split_ifs <;> exact .inl rfl
  | sense => cases d <;> simp
  | write _ _ ih => simpa using ih
  | mount =>
    rw [driveState_commitMount]
    split_ifs with hd
    · exact .inl (by rw [hd])
    · exact .inl rfl

/-- Settles O21: the stepper's clamped sum moves by one at most, towards the one neighbour magnet that is on alone. -/
theorem headMovesOnlyTowardsOneMagnet : Obligations.HeadMovesOnlyTowardsOneMagnet := by
  intro i s t d h
  dsimp only
  obtain hsame | ⟨hd, hphase, hpos⟩ := pos_cases_of_diskChange (exec_diskChange h) d
  · exact .inl (by rw [hsame])
  · rw [hpos]
    obtain hstays | hmoves := clampPos_step t.disk.phases (driveState s.disk d).pos
    · exact .inl hstays.symm
    · exact .inr ⟨hd, hphase, hmoves⟩

/-! ### LOAD and the write-protect sense (R163, R265) -/

theorem activeDrive_eq_selected (k : Disk) : activeDrive k = selected k := (selected_eq k).symm

theorem exec_rdLoad (s : State) :
    exec .rdLoad s = .next (returnNoise s (senseProtect { s.disk with loadMode := true })) := rfl

theorem exec_wrLoad (v : Byte) (s : State) :
    exec (.wrLoad v) s = .next (afterWrite s { s.disk with loadMode := true } v) := writeAccess_eq ..

theorem senseEnabled_iff (k : Disk) : senseEnabled k = true ↔ k.motorOn = true ∧ k.writeMode = false := by
  simp [senseEnabled]

/-- Settles O14: the sense leaves everything but the latch, whose bits it gives one by one. -/
theorem loadArmsAndSenses : Obligations.LoadArmsAndSenses := by
  refine ⟨encoded_of_selectors rfl fun _ => rfl, fun s =>
    ⟨⟨(senseProtect { s.disk with loadMode := true }).latch, fun hmodes => ?_, fun hmodes => ?_, ?_⟩, fun v => exec_wrLoad v s⟩⟩
  · have hbit := senseProtect_latch_getLsbD { s.disk with loadMode := true } ((senseEnabled_iff _).mpr hmodes)
    refine ⟨?_, fun b hb => ?_⟩
    · rw [hbit 7 (by omega), if_pos rfl, activeDrive_eq_selected]
      rfl
    · rw [hbit b (by omega), if_neg (by omega)]
  · have hoff : senseEnabled { s.disk with loadMode := true } = false :=
      Bool.eq_false_iff.mpr (mt (senseEnabled_iff _).mp hmodes)
    rw [senseProtect_of_disabled _ hoff]
  · rw [exec_rdLoad, senseProtect_eq]

/-- Settles O24: after the sense of a LOAD read no even switch but SHIFT changes the latch it returns. -/
theorem senseIsSeenByTheNextEvenRead : Obligations.SenseIsSeenByTheNextEvenRead := by
  intro addr i s t hm hw hi heven haddr ht
  obtain ⟨⟨l, hsense, -, hrd⟩, -⟩ := loadArmsAndSenses.2 s
  cases hrd.symm.trans ht
  obtain ⟨hn, hnone⟩ := nibbleOf_of_decodeRead hi
  have hload : i ≠ .rdLoad := by
    rintro rfl
    have hD : 0xD = addr % 16 := Option.some.inj hn
    omega
  refine ⟨_, _, exec_of_read hn hnone _, by rw [if_pos (by omega)]; rfl, ?_⟩
  rw [switchEffect_latch (by simpa [hn] using haddr) hload]
  exact (hsense ⟨hm, hw⟩).1

/-! ### SHIFT (R162, R168 to R175) -/

/-- Both forms make the cycle; after it load mode is clear, so a write drops its byte. -/
theorem exec_shift {s : State} {k : Disk} (h : shiftCycle (pollMatches s.cfg s.inp) s.disk = k) :
    exec .rdShift s = .next (returnLatch s k) ∧
    ∀ v : Byte, exec (.wrShift v) s = .next { s with disk := k, result := .none } := by
  subst h
  refine ⟨rfl, fun v => ?_⟩
  show writeAccess s v (shiftCycle (pollMatches s.cfg s.inp) s.disk) = _
  rw [writeAccess, writeLatch_shiftCycle]
  rfl

/-- Settles O15: the counter wraps from 15 to 0, which cuts the cycle short. -/
theorem spinShortCircuit : Obligations.SpinShortCircuit := by
  rintro s k hw hm hspin rfl
  apply exec_shift
  rw [shiftCycle_of_motorOff hw hm, hspin]
  rfl

/-- A read-mode cycle that SPIN does not cut short. -/
theorem shiftCycle_of_readMode {poll : Bool} {k : Disk} (hw : k.writeMode = false) (h : k.motorOn = true ∨ k.spin ≠ 15#4) :
    shiftCycle poll k =
      readCycle poll { k with loadMode := false, spin := if k.motorOn = true then k.spin else k.spin + 1#4 } := by
  obtain ⟨hw', -⟩ | ⟨-, hm, he⟩ | ⟨-, hm, hwrap, -⟩ | ⟨-, hm, -, he⟩ := shiftCycle_cases poll k
  · simp [hw] at hw'
  · simp only [he, hm, if_true]
  · have hspin : k.spin = 15#4 := by bv_omega
    simp [hm, hspin] at h
  · simp only [he, hm, Bool.false_eq_true, if_false]

theorem ahead_eq_headRead (k : Disk) (j : Nat) : ahead k j = headRead k (offsetAfter k.off j) := by
  rw [headRead_eq, activeDrive_eq_selected]
  rfl

theorem eq_pollAddress_iff {s : State} {k a : Nat} :
    (a : Int) = ((s.inp.pc.toNat : Int) + s.cfg.pollWindowBase + k) % 65536 ↔ a = pollAddress s.cfg s.inp.pc k := by
  unfold pollAddress
  omega

theorem pollMatches_iff {s : State} : pollMatches s.cfg s.inp = true ↔ Polls s := by
  simp only [pollMatches, Polls, Bool.and_eq_true, List.all_eq_true, List.mem_range, beq_iff_eq, eq_pollAddress_iff,
    exists_eq_left, Fin.forall_iff]
  rfl

theorem scanStops_of_readHead {wanted : Byte → Bool} {p : Byte → Prop} {k : Disk} {j : Nat} (hp : ∀ b, wanted b = true ↔ p b)
    (hj : j ≤ scanBound) (hbefore : ∀ i < j, wanted (headRead k (offsetAfter k.off i)) = false)
    (hat : j < scanBound → wanted (headRead k (offsetAfter k.off j)) = true) : ScanStops k p j := by
  refine ⟨hj, fun i hi => ?_, fun hlt => ?_⟩
  · rw [ahead_eq_headRead, ← hp, hbefore i hi]
    simp
  · rw [ahead_eq_headRead, ← hp, hat hlt]

/-- Settles O16: the cycle takes the byte and the place its scan stops at. -/
theorem readCycleScansAndAdvances : Obligations.ReadCycleScansAndAdvances := by
  intro s hw hspin
  obtain ⟨j, hj, hbefore, hat, hread⟩ := readHead_spec (pollMatches s.cfg s.inp) s.disk
  refine ⟨j, nextOffset (offsetAfter s.disk.off j), fun hpoll => ?_, fun hpoll => ?_, ?_, ?_⟩
  · rw [← pollMatches_iff] at hpoll
    rw [hpoll] at hbefore hat
    exact scanStops_of_readHead (by simp [isPrologue]) hj hbefore hat
  · rw [← pollMatches_iff, Bool.not_eq_true] at hpoll
    rw [hpoll] at hbefore hat
    exact scanStops_of_readHead (by simp [isNotPad]) hj hbefore hat
  · rw [nextOffset_offsetAfter]
    rfl
  · rintro k rfl
    apply exec_shift
    rw [shiftCycle_of_readMode hw hspin, readCycle, readHead_of_modes, hread, ← ahead_eq_headRead]

theorem trackOf_val (p : HalfTrack) : (trackOf p).val = p.val / 2 := Nat.shiftRight_eq_div_pow _ 1

/-- A store in a canonical track memory, place by place (R42). -/
theorem memRead_trkWrite {m : Memory} (hm : Memory.wf trackUnlisted driveBytes m) (t : TrackIndex) (o : Offset) (v : Byte)
    {tr b : Nat} (hb : b < 6656) :
    memRead trackUnlisted (trkWrite m t o v) (6656 * tr + b) =
      if tr = t.val ∧ b = o.val then v else memRead trackUnlisted m (6656 * tr + b) := by
  split_ifs with hplace
  · obtain ⟨rfl, rfl⟩ := hplace
    exact trkRead_trkWrite_self hm t o v
  · by_contra hne
    exact hplace (place_of_trkWrite_ne hb hne)

/-- Settles O17: in write mode the cycle is one store under the head, and the offset advances. -/
theorem writeCycleStoresTheLatch : Obligations.WriteCycleStoresTheLatch := by
  intro s hs hw
  have hsel : Memory.wf trackUnlisted driveBytes (selected s.disk).trk := by
    rw [selected_eq]
    exact diskLegal_iff.mp hs _
  refine ⟨storeCycle { s.disk with loadMode := false }, nextOffset s.disk.off,
    trkWrite (selected s.disk).trk (trackOf (selected s.disk).pos) s.disk.off s.disk.latch, rfl, ?_, fun t _ b hb => ?_,
    exec_shift (shiftCycle_of_writeMode hw)⟩
  · generalize s.disk = k
    obtain ⟨drive, _⟩ := k
    cases drive <;> rfl
  · rw [← trackOf_val]
    exact memRead_trkWrite hsel _ _ _ hb

/-- Settles O25: WR.LOAD leaves `v` in the latch, and the cycle stores the latch. -/
theorem writtenNibbleIsOnTheTrack : Obligations.WrittenNibbleIsOnTheTrack := by
  intro s t v hs hm hw h
  have hlegal := exec_diskLegal h hs
  cases (exec_wrLoad v s).symm.trans h
  obtain ⟨k, o, m, ho, hk, hread, hshift, -⟩ := writeCycleStoresTheLatch _ hlegal hw
  have hlatch : (afterWrite s { s.disk with loadMode := true } v).disk.latch = v := if_pos ⟨hm, hw, rfl⟩
  have hpos := (selected s.disk).pos.isLt
  have hplace := hread ((selected s.disk).pos.val / 2) (by omega) s.disk.off.val s.disk.off.isLt
  rw [if_pos ⟨rfl, rfl⟩, hlatch] at hplace
  rw [show (afterWrite s { s.disk with loadMode := true } v).disk.drive = s.disk.drive from rfl] at hk
  refine ⟨_, hshift, ?_⟩
  cases hd : s.disk.drive
  all_goals
    simp only [hd] at hk
    subst hk
    exact ⟨congrArg Result.byte hlatch, rfl, ho, hplace⟩

/-! ### The ROM window (R48, R179, R180) -/

theorem onlyReturns_dmemrd (n : Nat) (s : State) : OnlyReturns (.dmemrd n) s (.byte (s.cfg.rom.getD (romIndex n) 0#8)) := rfl

theorem onlyReturns_dmemwr (n : Nat) (v : Byte) (s : State) : OnlyReturns (.dmemwr n v) s .none := rfl

/-- Settles O29: the index is below the 256 bytes of the ROM, and both operations only return. -/
theorem romWindow : Obligations.RomWindow := by
  intro n v s hrom
  have hindex : romIndex n < s.cfg.rom.length := by
    rw [hrom]
    exact Nat.mod_lt _ (by decide)
  refine ⟨⟨_, ?_, onlyReturns_dmemrd n s⟩, onlyReturns_dmemwr n v s, ?_, ?_⟩
  · rw [List.getD_eq_getElem _ _ hindex]
    exact List.getElem?_eq_getElem hindex
  · exact Peripheral.exists_host_of_carried (Laws.EncodesItsRow.dmemrd n)
  · exact Peripheral.exists_host_of_carried (Laws.EncodesItsRow.dmemwr n v)

end Sys2Proof.DiskController

/-! PROOFS. The statements of 44_speaker.md: the flip ring, the volume and the sink, one fill, and the refresh as the stream of
the samples that are due. -/

namespace Sys2Proof.Synthesizer

open Sys2Proof.Machine Sys2Proof.Claims

/-! ### The flip ring, the volume and the sink (R190, R203 to R205) -/

/-- Settles O48: the one store and the one cursor of the meaning; the row 40 has no operand. -/
theorem toggleAppendsTheClock : Obligations.ToggleAppendsTheClock := fun _ => ⟨rfl, rfl⟩

/-- Giving up the sink, held or not, as one update. -/
theorem closeSink_eq_update (s : State) :
    closeSink s =
      { s with
        spk := { s.spk with sinkOpen := false }
        sinkCalls := s.sinkCalls ++ (if s.spk.sinkOpen = true then [.closeAudio] else []) } := by
  rw [← closeSink_spk, ← closeSink_sinkCalls]
  unfold closeSink
  split <;> rfl

theorem exec_spkpause (s : State) : exec .spkpause s = .next { closeSink s with result := .none } := rfl

/-- Settles O49: the volume is the operand modulo 8; a pause is one call where the sink is held and no update where it is not. -/
theorem volumeAndPause : Obligations.VolumeAndPause := by
  refine fun v s => ⟨⟨volumeOf v, BitVec.toNat_ofNat v 3, rfl⟩, fun hopen => ?_, fun hclosed => ?_⟩
  · rw [exec_spkpause, closeSink_eq_update, if_pos hopen]
  · rw [OnlyReturns, exec_spkpause, closeSink, hclosed]
    rfl

theorem exec_spkresume (s : State) : exec .spkresume s = .next (resume (closeSink s)) := rfl

/-- A step of 0 is refused before the sink is asked. -/
theorem resume_of_standing {s : State} (h : clocksPerSample s.cfg s.inp = 0) :
    resume s = { s with result := .failed .resourceUnavailable } := if_pos h

theorem resume_of_sink_fails {s : State} (h : clocksPerSample s.cfg s.inp ≠ 0) (hsink : s.inp.initAudio = none) :
    resume s =
      { s with sinkCalls := s.sinkCalls ++ [.initAudio none], result := .failed .resourceUnavailable } := by
  rw [resume, if_neg h, hsink]
  rfl

theorem resume_of_sink_answers {s : State} {r : Nat} (h : clocksPerSample s.cfg s.inp ≠ 0) (hsink : s.inp.initAudio = some r) :
    resume s =
      { s with
        spk := { s.spk with cps := clocksPerSample s.cfg s.inp, bufSize := r,
                            pcm := (List.range r).map (Config.unspecified s.draws), sinkOpen := true }
        sinkCalls := s.sinkCalls ++ [.initAudio (some r)]
        draws := s.draws + 1
        result := .ok } := by
  rw [resume, if_neg h, hsink]
  rfl

/-- Settles O50: the sink is given up first, which changes neither the step nor the sink's answer; then one of the three ways of
`resume`. -/
theorem resumeAcquiresTheSink : Obligations.ResumeAcquiresTheSink := by
  rintro s _ _ rfl rfl
  rw [exec_spkresume, closeSink_eq_update]
  exact ⟨fun hc => congrArg _ (resume_of_standing hc), fun hc hsink => congrArg _ (resume_of_sink_fails hc hsink),
    fun r hc hsink => congrArg _ (resume_of_sink_answers hc hsink)⟩

/-! ### What SPKREFRESH leaves and hands to the sink (R206) -/

theorem exec_spkrefresh (s : State) : exec .spkrefresh s = .next { refreshed s with result := .none } := rfl

/-- Settles O53: the first two ways a refresh goes. -/
theorem refreshReturnsEarly : Obligations.RefreshReturnsEarly := by
  refine fun s => ⟨fun hclosed => ?_, fun hopen hna => ?_⟩
  · rw [OnlyReturns, exec_spkrefresh, refreshed, if_pos hclosed]
  · rw [exec_spkrefresh, refreshed, hopen, if_neg (by decide), if_pos hna]
    rfl

/-- The third way: the chunks of `refresh`, each handed to the sink. -/
theorem exec_spkrefresh_of_available {s : State} (hopen : s.spk.sinkOpen = true) (havail : s.inp.audioAvailable = true) :
    exec .spkrefresh s =
      .next { s with
              spk := (refresh s.cfg.flipRingSize s.flips s.inp.clockNow s.spk).2
              sinkCalls := s.sinkCalls ++ [.isAudioAvailable true] ++
                (refresh s.cfg.flipRingSize s.flips s.inp.clockNow s.spk).1.map SinkCall.audioWrite
              result := .none } := by
  rw [exec_spkrefresh, refreshed, hopen, havail, if_neg (by decide), if_neg (by decide)]
  rfl

/-- What the sink was handed is read back from its log. -/
theorem delivered_of_sinkCalls {s t : State} {available : Bool} {chunks : List (List Byte)}
    (h : t.sinkCalls = s.sinkCalls ++ [.isAudioAvailable available] ++ chunks.map SinkCall.audioWrite) :
    delivered s t = chunks := by
  rw [delivered, h, List.append_assoc, List.drop_left]
  simp [List.filterMap_map]

/-- A refresh of an open and available sink, from its outcome. -/
theorem refresh_of_next {s t : State} (hopen : s.spk.sinkOpen = true) (havail : s.inp.audioAvailable = true)
    (h : exec .spkrefresh s = .next t) :
    t = { s with
          spk := (refresh s.cfg.flipRingSize s.flips s.inp.clockNow s.spk).2
          sinkCalls := t.sinkCalls
          result := .none } ∧
    delivered s t = (refresh s.cfg.flipRingSize s.flips s.inp.clockNow s.spk).1 := by
  cases (exec_spkrefresh_of_available hopen havail).symm.trans h
  exact ⟨rfl, delivered_of_sinkCalls rfl⟩

/-! ### One fill (R196 to R202) -/

section
variable {size : Nat} {f : FlipRing}

theorem exec_spkfill (e : Clock) (s : State) :
    exec (.spkfill e) s =
      .next { s with
              spk := (fill s.cfg.flipRingSize s.flips e s.spk).2
              result := .count (fill s.cfg.flipRingSize s.flips e s.spk).1 } := rfl

/-- STOP in the words of R197. -/
theorem fillStops_iff (e : Clock) (k : Speaker) :
    fillStops k e = true ↔ Earlier e k.sclk ∨ Earlier e (k.sclk + BitVec.ofNat 31 k.cps) := by
  rw [fillStops, Bool.or_eq_true, before, before, decide_eq_true_iff, decide_eq_true_iff]
  rfl

/-- A fill that produces nothing leaves everything as it is. -/
theorem fill_of_count_zero {e : Clock} {k : Speaker} (h : (fill size f e k).1 = 0) : fill size f e k = (0, k) := by
  obtain ⟨m, -, -, -, hfill⟩ := fill_spec (size := size) (f := f) e k
  rw [hfill] at h ⊢
  obtain rfl : m = 0 := by simpa using h
  rfl

/-- STOP on entry: the fill produces nothing. -/
theorem fill_of_stops {e : Clock} {k : Speaker} (h : fillStops k e = true) : (fill size f e k).1 = 0 := by
  obtain ⟨m, -, hrun, -, hfill⟩ := fill_spec (size := size) (f := f) e k
  have hm : m = 0 := by
    by_contra hne
    exact absurd h (by simpa [samples] using hrun 0 (by omega))
  rw [hfill, hm]

/-- A fill counts 0 exactly when STOP holds on entry or the buffer is shorter than a sample (R202). -/
theorem fill_count_eq_zero_iff (e : Clock) (k : Speaker) :
    (fill size f e k).1 = 0 ↔ fillStops k e = true ∨ k.bufSize < 2 := by
  obtain ⟨m, hm, -, hstop, hfill⟩ := fill_spec (size := size) (f := f) e k
  constructor
  · intro h
    obtain rfl : m = 0 := by simpa [hfill] using h
    by_cases hroom : 0 < k.bufSize / 2
    · exact .inl (hstop hroom)
    · exact .inr (by omega)
  · rintro (h | h)
    · exact fill_of_stops h
    · rw [hfill]
      show 2 * m = 0
      omega

/-- Settles O51: the fill is a run of samples that ends at STOP or at the end of the buffer. -/
theorem fillCountsAndClock : Obligations.FillCountsAndClock := by
  intro e s
  have hzero := fill_count_eq_zero_iff (size := s.cfg.flipRingSize) (f := s.flips) e s.spk
  obtain ⟨m, hm, -, hstop, hfill⟩ := fill_spec (size := s.cfg.flipRingSize) (f := s.flips) e s.spk
  rw [hfill, fillStops_iff, or_assoc] at hzero
  have hclock := samples_sclk (size := s.cfg.flipRingSize) (f := s.flips) m 0 s.spk
  refine ⟨2 * m, samples s.cfg.flipRingSize s.flips m 0 s.spk, by rw [exec_spkfill, hfill], by omega, by omega, hzero, ?_, ?_,
    by simp, by simp, by simp, by simp, by simp, fun i hi => ?_⟩
  · rw [hclock, Nat.mul_div_cancel_left m (by decide)]
  · intro hroom
    have hstops := hstop (by omega)
    rwa [fillStops_iff, samples_cps] at hstops
  · rw [List.getD_eq_getElem?_getD, List.getD_eq_getElem?_getD, samples_pcm_of_ge m 0 s.spk i (by omega)]

/-! ### One sample (R198 to R201) -/

/-- An event of the statement is an event of the drain. -/
theorem eventDue_iff (s : State) (c : Clock) (i : Nat) :
    EventDue s c i ↔
      flipDue s.flips { s.spk with ringRd := cursorAfter s.cfg.flipRingSize s.spk i, sclk := c } = true := by
  rw [flipDue_iff]
  rfl

/-- One sample's drain stops before it goes round the ring (R198, R226). -/
theorem advance_spec (k : Speaker) (hk : k.ringRd < size) (hf : f.ringWr < size) :
    ∃ c < size,
      (∀ i < c, flipDue f { k with ringRd := cursorAfter size k i, sclk := sampleEnd k } = true) ∧
      flipDue f { k with ringRd := cursorAfter size k c, sclk := sampleEnd k } = false ∧
      advance size f k =
        { k with ringRd := cursorAfter size k c, sclk := sampleEnd k, level := k.level ^^ decide (c % 2 = 1) } := by
  obtain ⟨c, hc, hdue, hend, hdrain⟩ := drain_spec (f := f) size { k with sclk := sampleEnd k } hk
  obtain ⟨b, hb, hbound⟩ := drain_bound (f := f) { k with sclk := sampleEnd k } hk hf
  have hlt : c < size := by
    by_contra hge
    exact absurd (hdue b (by omega)) (by simp [hbound])
  exact ⟨c, hlt, hdue, hend hlt, hdrain⟩

/-- The two bytes of a sample are those of plus or minus the amplitude cut to 16 bits (R200, R201). -/
theorem bytes_of_sample (level : Bool) (volume : BitVec 3) (a : Int)
    (ha : a = (if level then 1 else -1) * 2 ^ (volume.toNat + 8)) :
    (sample level volume).setWidth 8 = BitVec.ofNat 8 (a % 256).toNat ∧
    (sample level volume >>> 8).setWidth 8 = BitVec.ofNat 8 (a % 65536 / 256).toNat := by
  subst ha
  revert level volume
  decide

/-- Settles O52: the first slot of the fill is a drain and the two bytes of its sample, and the fill of the rest follows. -/
theorem oneSampleDrainsAndEmits : Obligations.OneSampleDrainsAndEmits := by
  rintro e s ⟨-, hwr⟩ hrd hbuf hpcm hgap hend
  have hstop : fillStops s.spk e = false :=
    Bool.eq_false_iff.mpr fun h => ((fillStops_iff e s.spk).mp h).elim hgap hend
  obtain ⟨c, hc, hdue, hnot, hadv⟩ := advance_spec (f := s.flips) s.spk hrd hwr
  have hfill := fill_of_not_stops (size := s.cfg.flipRingSize) (f := s.flips) e s.spk hbuf hpcm hstop
  obtain ⟨hlow, hhigh⟩ := bytes_of_sample (s.spk.level ^^ decide (c % 2 = 1)) s.spk.volume _ rfl
  rw [hadv] at hfill
  refine ⟨c, _, _, _, _, hc, fun i hi => (eventDue_iff s _ i).mpr (hdue i hi), ?_, rfl, rfl, exec_spkfill e _, ?_⟩
  · rw [eventDue_iff]
    exact Bool.eq_false_iff.mp hnot
  · rw [exec_spkfill, hfill, ← hlow, ← hhigh]
    rfl

/-! ### The refresh as a stream of samples (R206 to R208) -/

/-- What `Refreshing` asks of the synthesizer itself: a step within the half window and room for a sample (R206; log 14). -/
def Ready (k : Speaker) : Prop := 1 ≤ k.cps ∧ k.cps ≤ 2 ^ 30 ∧ 2 ≤ k.bufSize ∧ k.pcm.length = k.bufSize

theorem refreshing_iff (s : State) :
    Refreshing s ↔ s.spk.sinkOpen = true ∧ s.inp.audioAvailable = true ∧ Ready s.spk := Iff.rfl

/-- The number of samples a refresh at `e` produces: `gap div cps` within the half window, else 0 (R206). -/
def dueSamples (e : Clock) (k : Speaker) : Nat := if gap e k < 2 ^ 30 then gap e k / k.cps else 0

theorem dueSamples_of_gap_lt {e : Clock} {k : Speaker} (h : gap e k < 2 ^ 30) : dueSamples e k = gap e k / k.cps := if_pos h

theorem dueSamples_mul_cps_le (e : Clock) (k : Speaker) : dueSamples e k * k.cps ≤ gap e k := by
  unfold dueSamples
  split_ifs
  · exact Nat.div_mul_le_self ..
  · rw [Nat.zero_mul]
    exact Nat.zero_le _

theorem dueSamples_buffer (e : Clock) (k : Speaker) (p : List Byte) (b : Nat) :
    dueSamples e { k with pcm := p, bufSize := b } = dueSamples e k := rfl

/-- The gap test: beyond the half window no sample is produced. -/
theorem fillStops_of_gap_ge {e : Clock} {k : Speaker} (h : ¬ gap e k < 2 ^ 30) : fillStops k e = true :=
  (fillStops_iff e k).mpr (.inl (Nat.le_of_not_lt h))

/-- A refresh delivers the stream of the samples that are due, in nonempty chunks of which all but the last are full, and leaves
what those samples leave. -/
theorem refresh_eq {k : Speaker} (hk : Ready k) (e : Clock) :
    (refresh size f e k).1.flatten = stream size f (dueSamples e k) k ∧
    (∃ p : List Byte, p.length = k.bufSize ∧ (refresh size f e k).2 = { after size f (dueSamples e k) k with pcm := p }) ∧
    (∀ c ∈ (refresh size f e k).1, 0 < c.length) ∧
    ∀ c ∈ (refresh size f e k).1.dropLast, c.length = 2 * (k.bufSize / 2) := by
  obtain ⟨hcps, hcps', hbuf, hpcm⟩ := hk
  by_cases hg : gap e k < 2 ^ 30
  · have hfuel : gap e k / k.cps < refreshBound := by
      have := Nat.div_le_self (gap e k) k.cps
      unfold refreshBound
      omega
    rw [refresh_of_moves e k hcps hcps', dueSamples_of_gap_lt hg]
    exact refreshLoop_eq e refreshBound k hcps hcps' hbuf hpcm hg hfuel
  · rw [refresh_of_fill_zero e k (fill_of_stops (fillStops_of_gap_ge hg)), dueSamples, if_neg hg]
    exact ⟨rfl, ⟨k.pcm, hpcm, rfl⟩, by simp, by simp⟩

/-- A refresh whose first fill produces something hands it on and goes on as a refresh from there. -/
theorem refresh_of_fill_pos {e : Clock} {k : Speaker} (hk : Ready k) (h : (fill size f e k).1 ≠ 0) :
    refresh size f e k =
      ((fill size f e k).2.pcm.take (fill size f e k).1 :: (refresh size f e (fill size f e k).2).1,
        (refresh size f e (fill size f e k).2).2) := by
  obtain ⟨hcps, hcps', hbuf, hpcm⟩ := hk
  have hg : gap e k < 2 ^ 30 := by
    by_contra hge
    exact h (fill_of_stops (fillStops_of_gap_ge hge))
  rw [fill_eq e k hcps hcps' hg] at h ⊢
  generalize hm : min (gap e k / k.cps) (k.bufSize / 2) = m at h ⊢
  have hgap : gap e (samples size f m 0 k) ≤ gap e k := by
    rw [gap_samples, gap_after e m k (by rw [← Nat.le_div_iff_mul_le hcps]; omega)]
    exact Nat.sub_le ..
  have hdiv := Nat.div_le_self (gap e (samples size f m 0 k)) k.cps
  rw [refresh_of_moves e k hcps hcps', refresh_of_moves e _ (by simpa using hcps) (by simpa using hcps'),
    refreshLoop_fuel e refreshBound (2 ^ 31) (samples size f m 0 k) (by simpa using hcps) (by simpa using hcps')
      (by simpa using hbuf) (by omega) (by rw [samples_cps]; unfold refreshBound; omega) (by rw [samples_cps]; omega)]
  show refreshLoop size f e (2 ^ 31 + 1) k = _
  generalize (2 ^ 31 : Nat) = fuel
  rw [refreshLoop, fill_eq e k hcps hcps' hg, hm]
  exact if_neg h

/-- Settles O55: the stream of the due samples, its clock, and what those samples drain. -/
theorem refreshCatchesUp : Obligations.RefreshCatchesUp := by
  intro s hs hgap
  obtain ⟨hopen, havail, hready⟩ := (refreshing_iff s).mp hs
  obtain ⟨hbytes, ⟨p, -, hleft⟩, hnonempty, hfull⟩ :=
    refresh_eq (size := s.cfg.flipRingSize) (f := s.flips) hready s.inp.clockNow
  rw [dueSamples_of_gap_lt hgap] at hbytes hleft
  have hticks : gap s.inp.clockNow s.spk = ticks s.spk.sclk s.inp.clockNow := rfl
  refine ⟨_, _, exec_spkrefresh_of_available hopen havail, ?_, ?_, hnonempty, hfull, ?_⟩
  · rw [hleft]
    show gap s.inp.clockNow (after s.cfg.flipRingSize s.flips _ s.spk) < s.spk.cps
    rw [gap_after _ _ _ (Nat.div_mul_le_self ..), Nat.mul_comm, ← Nat.mod_eq_sub_mul_div]
    exact Nat.mod_lt _ hready.1
  · rw [hbytes, length_stream, hticks]
  · rw [hleft]
    refine ⟨after_volume .., after_cps .., after_bufSize .., (after_sinkOpen ..).trans hopen, fun ⟨_, hwr⟩ hrd => ?_⟩
    obtain ⟨c, hc, hcursor, hlevel, hdrained, hnext⟩ :=
      after_cursor (f := s.flips) (gap s.inp.clockNow s.spk / s.spk.cps) s.spk hrd hwr
    refine ⟨c, hc, hcursor, hlevel, fun i hi => ?_, fun hchunks => ?_⟩
    · obtain ⟨m, hm, hm', hdue⟩ := hdrained i hi
      exact ⟨m, hm, hm', (eventDue_iff ..).mpr hdue⟩
    · have hsome : gap s.inp.clockNow s.spk / s.spk.cps ≠ 0 := by
        intro hzero
        obtain ⟨chunk, hmem⟩ := List.exists_mem_of_ne_nil _ hchunks
        have hempty := List.flatten_eq_nil_iff.mp (by rw [hbytes, hzero]; rfl) chunk hmem
        exact absurd (hnonempty chunk hmem) (by simp [hempty])
      rw [eventDue_iff]
      exact Bool.eq_false_iff.mp (hnext (Nat.one_le_iff_ne_zero.mpr hsome))

end

/-! ### The amplitude of what is delivered (R200, R201, R266) -/

/-- A chunk of samples at `volume`: an even number of bytes, each pair the low and the high byte of plus or minus the
amplitude. -/
def HasAmplitude (volume : BitVec 3) (c : List Byte) : Prop :=
  c.length % 2 = 0 ∧ ∀ m, 2 * m + 1 < c.length →
    c.getD (2 * m) 0#8 = 0x00#8 ∧
    ((c.getD (2 * m + 1) 0#8).toNat = 2 ^ volume.toNat ∨ (c.getD (2 * m + 1) 0#8).toNat = 256 - 2 ^ volume.toNat) ∧
    (volume = 7#3 → c.getD (2 * m + 1) 0#8 = 0x80#8)

/-- The high byte of a sample; at volume 7 both levels give 80 (R266). -/
theorem high_byte_of_sample (level : Bool) (volume : BitVec 3) :
    (((sample level volume >>> 8).setWidth 8 : Byte).toNat = 2 ^ volume.toNat ∨
      ((sample level volume >>> 8).setWidth 8 : Byte).toNat = 256 - 2 ^ volume.toNat) ∧
    (volume = 7#3 → ((sample level volume >>> 8).setWidth 8 : Byte) = 0x80#8) := by
  obtain ⟨-, hhigh⟩ := sample_bytes level volume
  refine ⟨?_, ?_⟩
  · cases level
    · exact .inr hhigh
    · exact .inl hhigh
  · rintro rfl
    revert level
    decide

/-- The chunk of a fill is a run of samples at the current volume. -/
theorem fill_hasAmplitude {size : Nat} {f : FlipRing} (e : Clock) (k : Speaker) (hpcm : k.pcm.length = k.bufSize) :
    HasAmplitude k.volume ((fill size f e k).2.pcm.take (fill size f e k).1) := by
  obtain ⟨m, hm, -, -, hfill⟩ := fill_spec (size := size) (f := f) e k
  rw [hfill]
  have hlen : ((samples size f m 0 k).pcm.take (2 * m)).length = 2 * m := by
    rw [List.length_take, samples_length]
    omega
  refine ⟨by rw [hlen]; omega, fun j hj => ?_⟩
  rw [hlen] at hj
  obtain ⟨level, hlow, hhigh⟩ := samples_pcm (size := size) (f := f) m 0 k j (by omega) (by omega)
  rw [Nat.zero_add] at hlow hhigh
  simp only [List.getD_eq_getElem?_getD, List.getElem?_take, if_pos hj, if_pos (show 2 * j < 2 * m by omega), hlow, hhigh,
    Option.getD_some]
  exact ⟨(sample_bytes level k.volume).1, high_byte_of_sample level k.volume⟩

/-- Every chunk of a refresh is the chunk of a fill, and fills keep the volume and the buffer's size. -/
theorem refresh_hasAmplitude {size : Nat} {f : FlipRing} (e : Clock) (k : Speaker) (hpcm : k.pcm.length = k.bufSize) :
    ∀ c ∈ (refresh size f e k).1, HasAmplitude k.volume c := by
  unfold refresh
  split_ifs
  · simp
  · refine (refreshLoop_induct (P := fun x => x.volume = k.volume ∧ x.pcm.length = x.bufSize) ?_ refreshBound k
      ⟨rfl, hpcm⟩).2
    rintro x ⟨hvolume, hlen⟩
    refine ⟨?_, fun _ => hvolume ▸ fill_hasAmplitude e x hlen⟩
    obtain ⟨m, -, -, -, hfill⟩ := fill_spec (size := size) (f := f) e x
    rw [hfill]
    exact ⟨(samples_volume ..).trans hvolume, by simpa using hlen⟩

/-- Settles O57: a refresh that returns early delivers nothing, and every chunk of the others has the amplitude. -/
theorem deliveredSamplesHaveTheAmplitude : Obligations.DeliveredSamplesHaveTheAmplitude := by
  intro s t hpcm h
  by_cases hearly : s.spk.sinkOpen = true ∧ s.inp.audioAvailable = true
  · obtain ⟨hopen, havail⟩ := hearly
    obtain ⟨-, hdelivered⟩ := refresh_of_next hopen havail h
    rw [hdelivered]
    exact refresh_hasAmplitude s.inp.clockNow s.spk hpcm
  · have hnone : delivered s t = [] := by
      cases (exec_spkrefresh s).symm.trans h
      obtain ⟨-, hr⟩ | ⟨-, -, hr⟩ | ⟨hopen, havail, -⟩ := refreshed_cases s
      · simp [delivered, hr]
      · simp [delivered, hr, callSink]
      · exact absurd ⟨hopen, havail⟩ hearly
    simp [hnone]

/-! ### Where the stream is cut does not change it (R208) -/

section
variable {size : Nat} {f : FlipRing}

/-- `t` is `s` after a refresh that delivers the stream of the due samples and leaves what they leave. -/
theorem refresh_of_refreshing {s t : State} (hs : Refreshing s) (h : exec .spkrefresh s = .next t) :
    (delivered s t).flatten = stream s.cfg.flipRingSize s.flips (dueSamples s.inp.clockNow s.spk) s.spk ∧
    ∃ p : List Byte, p.length = s.spk.bufSize ∧
      t = { s with
            spk := { after s.cfg.flipRingSize s.flips (dueSamples s.inp.clockNow s.spk) s.spk with pcm := p }
            sinkCalls := t.sinkCalls
            result := .none } := by
  obtain ⟨hopen, havail, hready⟩ := (refreshing_iff s).mp hs
  obtain ⟨hleft, hdelivered⟩ := refresh_of_next hopen havail h
  obtain ⟨hbytes, ⟨p, hp, hspk⟩, -, -⟩ := refresh_eq (size := s.cfg.flipRingSize) (f := s.flips) hready s.inp.clockNow
  exact ⟨by rw [hdelivered, hbytes], p, hp, by rw [← hspk]; exact hleft⟩

/-- The ring later holds `a` more events after the `p` pending ones, none of them due by the end of one of the next `m` samples:
those samples are the same. -/
theorem after_of_appended {g : FlipRing} {m p a : Nat} {k : Speaker} (hk : k.ringRd < size) (hpa : p + a < size)
    (hf : f.ringWr = (k.ringRd + p) % size) (hg : g.ringWr = (k.ringRd + p + a) % size)
    (hring : ∀ i < p, g.ring.getD ((k.ringRd + i) % size) 0#31 = f.ring.getD ((k.ringRd + i) % size) 0#31)
    (hnew : 0 < a → ∀ j ≤ m,
      ¬ Earlier (g.ring.getD ((k.ringRd + p) % size) 0#31) (k.sclk + BitVec.ofNat 31 (j * k.cps))) :
    after size f m k = after size g m k ∧ stream size f m k = stream size g m k := by
  refine after_congr m k hk p (by omega) hf (fun i hi => ⟨fun heq => ?_, hring i hi⟩) fun j _ hj => ?_
  · have hmod : i ≡ p + a [MOD size] := by
      refine Nat.ModEq.add_left_cancel' k.ringRd ?_
      rw [← Nat.add_assoc]
      exact (hg.symm.trans heq).symm
    have := hmod.eq_of_lt_of_lt (by omega) hpa
    omega
  · rw [Bool.eq_false_iff, Ne, flipDue_iff]
    rintro ⟨hpending, hearlier⟩
    rcases Nat.eq_zero_or_pos a with rfl | ha
    · exact hpending hg.symm
    · exact hnew ha j hj hearlier

/-- An event that is not before the first nor the last of some ticks within the half window is before none of them. -/
theorem not_earlier_of_between {event c : Clock} {d n : Nat} (hd : d ≤ n) (hn : n < 2 ^ 30) (hfirst : ¬ Earlier event c)
    (hlast : ¬ Earlier event (c + BitVec.ofNat 31 n)) : ¬ Earlier event (c + BitVec.ofNat 31 d) := by
  unfold Earlier ticks at *
  bv_omega

/-- The samples due at a later clock are those due at an earlier one and those due after them. -/
theorem dueSamples_later {e e' : Clock} {k : Speaker} (hle : gap e k ≤ gap e' k) (hlt : gap e' k < 2 ^ 30) :
    dueSamples e' k = dueSamples e k + dueSamples e' (after size f (dueSamples e k) k) := by
  have hgap := gap_after (size := size) (f := f) e' (dueSamples e k) k (Nat.le_trans (dueSamples_mul_cps_le e k) hle)
  rw [dueSamples_of_gap_lt hlt, dueSamples_of_gap_lt (k := after size f (dueSamples e k) k) (by omega), hgap, after_cps,
    Nat.mul_comm, Nat.sub_mul_div]
  have : dueSamples e k ≤ gap e' k / k.cps := by
    rw [dueSamples_of_gap_lt (Nat.lt_of_le_of_lt hle hlt)]
    exact Nat.div_le_div_right hle
  omega

theorem stream_update_pcm (m : Nat) (k : Speaker) (p : List Byte) : stream size f m { k with pcm := p } = stream size f m k :=
  stream_buffer m k p k.bufSize

theorem after_update_pcm (m : Nat) (k : Speaker) (p : List Byte) :
    after size f m { k with pcm := p } = { after size f m k with pcm := p } :=
  (after_buffer m k p k.bufSize).trans (by rw [← after_bufSize (size := size) (f := f) m k])

/-- Where the appended events change none of the first samples, the samples due then and the samples due after them are the
samples due later. -/
theorem stream_of_later {g : FlipRing} {e e' : Clock} {k : Speaker} {m : Nat} (hm : dueSamples e k = m)
    (hle : gap e k ≤ gap e' k) (hlt : gap e' k < 2 ^ 30) (hafter : after size f m k = after size g m k)
    (hstream : stream size f m k = stream size g m k) (q : List Byte) :
    let k' := { after size f m k with pcm := q }
    stream size f m k ++ stream size g (dueSamples e' k') k' = stream size g (dueSamples e' k) k ∧
    after size g (dueSamples e' k') k' = { after size g (dueSamples e' k) k with pcm := q } := by
  have hlater := dueSamples_later (size := size) (f := g) hle hlt
  rw [hm] at hlater
  rw [hlater, stream_add, after_add, hstream, hafter]
  exact ⟨congrArg _ (stream_update_pcm ..), after_update_pcm ..⟩

end

/-- What a refresh leaves can be refreshed again, whatever the ring and the inputs become, if the sink is available. -/
theorem refreshing_after {s : State} {m : Nat} {q : List Byte} {calls : List SinkCall} {r : Result} {x : Inputs}
    {f' : FlipRing} (hs : Refreshing s) (hq : q.length = s.spk.bufSize) (havail : x.audioAvailable = true) :
    Refreshing { s with
      spk := { after s.cfg.flipRingSize s.flips m s.spk with pcm := q }
      sinkCalls := calls
      result := r
      inp := x
      flips := f' } := by
  obtain ⟨hopen, -, hcps, hcps', hbuf, -⟩ := hs
  exact ⟨(after_sinkOpen ..).trans hopen, havail, by simpa using hcps, by simpa using hcps', by simpa using hbuf,
    by simpa using hq⟩

/-- A buffer of another size only cuts the samples elsewhere (R208, first half). -/
theorem samples_of_other_buffer {s t t' : State} {b : Nat} {q : List Byte} (hs : Refreshing s)
    (hs' : Refreshing { s with spk := { s.spk with bufSize := b, pcm := q } }) (h : exec .spkrefresh s = .next t)
    (h' : exec .spkrefresh { s with spk := { s.spk with bufSize := b, pcm := q } } = .next t') :
    (delivered s t).flatten = (delivered { s with spk := { s.spk with bufSize := b, pcm := q } } t').flatten ∧
    t.spk.sclk = t'.spk.sclk ∧ t.spk.ringRd = t'.spk.ringRd ∧ t.spk.level = t'.spk.level := by
  obtain ⟨hbytes, p, -, hleft⟩ := refresh_of_refreshing hs h
  obtain ⟨hbytes', p', -, hleft'⟩ := refresh_of_refreshing hs' h'
  rw [dueSamples_buffer, stream_buffer] at hbytes'
  rw [dueSamples_buffer, after_buffer] at hleft'
  rw [hbytes, hbytes', hleft, hleft']
  exact ⟨rfl, rfl, rfl, rfl⟩

/-- Settles O56: the stream and what its samples leave do not depend on the buffer; and the samples due at the later clock are the
first refresh's and then the second's, where the appended events change none of the first. -/
theorem chunkingDoesNotChangeTheSamples : Obligations.ChunkingDoesNotChangeTheSamples := by
  constructor
  · intro s s' t t' hs hs' heq h h'
    obtain ⟨b, q, rfl⟩ : ∃ b q, s' = { s with spk := { s.spk with bufSize := b, pcm := q } } := ⟨_, _, heq⟩
    exact samples_of_other_buffer hs hs' h h'
  · intro s t u w x f' p a hs havail hle hlt _ hrd hpa hf hf' hring h hnew hu hw
    obtain ⟨hopen, -, hready⟩ := (refreshing_iff s).mp hs
    obtain ⟨hbytes, q, hq, hleft⟩ := refresh_of_refreshing hs h
    obtain ⟨calls, rfl⟩ : ∃ calls, t = { s with
        spk := { after s.cfg.flipRingSize s.flips (dueSamples s.inp.clockNow s.spk) s.spk with pcm := q }
        sinkCalls := calls
        result := .none } := ⟨_, hleft⟩
    generalize hm : dueSamples s.inp.clockNow s.spk = m at *
    have hspan : m * s.spk.cps < 2 ^ 30 :=
      Nat.lt_of_le_of_lt (hm ▸ dueSamples_mul_cps_le ..) (Nat.lt_of_le_of_lt hle hlt)
    obtain ⟨hafter, hstream⟩ : after s.cfg.flipRingSize s.flips m s.spk = after s.cfg.flipRingSize f' m s.spk ∧
        stream s.cfg.flipRingSize s.flips m s.spk = stream s.cfg.flipRingSize f' m s.spk := by
      refine after_of_appended hrd hpa hf hf' hring fun ha j hj => ?_
      obtain ⟨hlast, hfirst⟩ := hnew p le_rfl (by omega)
      rw [after_sclk] at hlast
      exact not_earlier_of_between (Nat.mul_le_mul_right _ hj) hspan hfirst hlast
    obtain ⟨hcut, hend⟩ := stream_of_later hm hle hlt hafter hstream q
    obtain ⟨hbytes₂, q₂, -, hleft₂⟩ := refresh_of_refreshing (refreshing_after hs hq havail) hu
    obtain ⟨hbytes₃, q₃, -, hleft₃⟩ := refresh_of_refreshing
      (show Refreshing { s with inp := x, flips := f' } from ⟨hopen, havail, hready⟩) hw
    rw [hbytes, hbytes₂, hbytes₃, hleft₂, hleft₃]
    dsimp only at hend ⊢
    rw [hend]
    exact ⟨hcut, rfl, rfl, rfl⟩

/-! ### A refresh is a loop of fills (R206) -/

/-- A fill with the sink held leaves it held, and the refresh goes on from there. -/
theorem fill_sinkOpen {size : Nat} {f : FlipRing} (e : Clock) (k : Speaker) : (fill size f e k).2.sinkOpen = k.sinkOpen := by
  obtain ⟨m, -, -, -, hfill⟩ := fill_spec (size := size) (f := f) e k
  rw [hfill]
  exact samples_sinkOpen m 0 k

theorem exec_spkrefresh_of_fill_zero {s : State} (hs : Refreshing s)
    (h : (fill s.cfg.flipRingSize s.flips s.inp.clockNow s.spk).1 = 0) :
    exec .spkrefresh s =
      .next { s with
              spk := (fill s.cfg.flipRingSize s.flips s.inp.clockNow s.spk).2
              sinkCalls := s.sinkCalls ++ [.isAudioAvailable true], result := .none } := by
  obtain ⟨hopen, havail, -⟩ := (refreshing_iff s).mp hs
  rw [exec_spkrefresh_of_available hopen havail, refresh_of_fill_zero _ _ h, fill_of_count_zero h, List.map_nil, List.append_nil]

/-- The refresh is the chunk of its first fill and then the refresh from what that fill leaves. -/
theorem exec_spkrefresh_of_fill_pos {s : State} (hs : Refreshing s)
    (h : (fill s.cfg.flipRingSize s.flips s.inp.clockNow s.spk).1 ≠ 0) :
    let r := fill s.cfg.flipRingSize s.flips s.inp.clockNow s.spk
    ∃ (k' : Speaker) (chunks : List (List Byte)),
      exec .spkrefresh { s with spk := r.2 } =
        .next { s with
                spk := k'
                sinkCalls := s.sinkCalls ++ [.isAudioAvailable true] ++ chunks.map SinkCall.audioWrite
                result := .none } ∧
      exec .spkrefresh s =
        .next { s with
                spk := k'
                sinkCalls := s.sinkCalls ++ [.isAudioAvailable true] ++ (r.2.pcm.take r.1 :: chunks).map SinkCall.audioWrite
                result := .none } := by
  obtain ⟨hopen, havail, hready⟩ := (refreshing_iff s).mp hs
  refine ⟨_, _, exec_spkrefresh_of_available ((fill_sinkOpen ..).trans hopen) havail, ?_⟩
  rw [exec_spkrefresh_of_available hopen havail, refresh_of_fill_pos hready h]

/-! ### The source's twelve samples (R209) -/

/-- Both rings hold the same events at the indices below `w`, their write cursor: neither has come round. -/
structure SameEvents (w size : Nat) (f : FlipRing) (size' : Nat) (g : FlipRing) : Prop where
  lt : w < size
  lt' : w < size'
  wr : f.ringWr = w
  wr' : g.ringWr = w
  events : ∀ i < w, f.ring.getD i 0#31 = g.ring.getD i 0#31

section
variable {w size size' : Nat} {f g : FlipRing}

theorem SameEvents.flipDue_eq (h : SameEvents w size f size' g) {k : Speaker} (hk : k.ringRd ≤ w) :
    flipDue f k = flipDue g k := by
  rw [Bool.eq_iff_iff, flipDue_iff, flipDue_iff, h.wr, h.wr']
  refine and_congr_right fun hne => ?_
  rw [h.events k.ringRd (by omega)]

/-- Two such rings are drained alike, whatever their sizes. -/
theorem SameEvents.drain_eq (h : SameEvents w size f size' g) {fuel fuel' : Nat} {k : Speaker} (hk : k.ringRd ≤ w)
    (hfuel : w - k.ringRd ≤ fuel) (hfuel' : w - k.ringRd ≤ fuel') :
    drain size f fuel k = drain size' g fuel' k ∧ (drain size f fuel k).ringRd ≤ w := by
  by_cases hdue : flipDue f k = true
  · have hne : k.ringRd ≠ w := h.wr ▸ ((flipDue_iff f k).mp hdue).1
    obtain ⟨n, rfl⟩ : ∃ n, fuel = n + 1 := ⟨fuel - 1, by omega⟩
    obtain ⟨n', rfl⟩ : ∃ n', fuel' = n' + 1 := ⟨fuel' - 1, by omega⟩
    have hnext : nextInRing size k.ringRd = k.ringRd + 1 := Nat.mod_eq_of_lt (by have := h.lt; omega)
    have hnext' : nextInRing size' k.ringRd = k.ringRd + 1 := Nat.mod_eq_of_lt (by have := h.lt'; omega)
    rw [drain, drain, ← h.flipDue_eq hk, if_pos hdue, if_pos hdue, hnext, hnext']
    exact h.drain_eq (by show k.ringRd + 1 ≤ w; omega) (by show w - (k.ringRd + 1) ≤ n; omega)
      (by show w - (k.ringRd + 1) ≤ n'; omega)
  · have hstay : drain size f fuel k = k := by cases fuel <;> simp [drain, hdue]
    have hstay' : drain size' g fuel' k = k := by cases fuel' <;> simp [drain, ← h.flipDue_eq hk, hdue]
    exact ⟨hstay.trans hstay'.symm, by rwa [hstay]⟩
termination_by fuel

theorem SameEvents.stream_eq (h : SameEvents w size f size' g) (m : Nat) {k : Speaker} (hk : k.ringRd ≤ w) :
    stream size f m k = stream size' g m k ∧ after size f m k = after size' g m k := by
  induction m generalizing k with
  | zero => exact ⟨rfl, rfl⟩
  | succ m ih =>
    obtain ⟨hadvance, hle⟩ : advance size f k = advance size' g k ∧ (advance size f k).ringRd ≤ w :=
      h.drain_eq hk (by have := h.lt; omega) (by have := h.lt'; omega)
    obtain ⟨hstream, hafter⟩ := ih hle
    rw [stream, stream, after, after, ← hadvance, hstream, hafter]
    exact ⟨rfl, rfl⟩

end

/-- R209: flips at 100, 150 and 500. -/
def exampleRing : FlipRing := { ring := [100#31, 150#31, 500#31], ringWr := 3 }

/-- R209: 50 ticks a sample from 0, level 0, volume 4, room for 12 samples. -/
def exampleSpeaker : Speaker :=
  { volume := 4#3, ringRd := 0, level := false, cps := 50, sclk := 0#31, bufSize := 24, pcm := [], sinkOpen := true }

/-- The twelve samples - - + - - - - - - - + +. -/
def exampleBytes : List Byte :=
  [0x00#8, 0xF0#8, 0x00#8, 0xF0#8, 0x00#8, 0x10#8, 0x00#8, 0xF0#8, 0x00#8, 0xF0#8, 0x00#8, 0xF0#8,
    0x00#8, 0xF0#8, 0x00#8, 0xF0#8, 0x00#8, 0xF0#8, 0x00#8, 0xF0#8, 0x00#8, 0x10#8, 0x00#8, 0x10#8]

theorem example_stream :
    stream 4 exampleRing 12 exampleSpeaker = exampleBytes ∧
    after 4 exampleRing 12 exampleSpeaker = { exampleSpeaker with sclk := 600#31, ringRd := 3, level := true } := by
  decide

theorem sameEvents_exampleRing {size : Nat} {f : FlipRing} (hsize : 3 < size) (hwr : f.ringWr = 3)
    (hring : f.ring.take 3 = exampleRing.ring) : SameEvents 3 size f 4 exampleRing := by
  refine ⟨hsize, by decide, hwr, rfl, fun i hi => ?_⟩
  rw [← hring, List.getD_eq_getElem?_getD, List.getD_eq_getElem?_getD, List.getElem?_take, if_pos hi]

/-- Nonempty chunks of which all but the last are as long as the whole are one chunk. -/
theorem eq_singleton_of_full_chunks {chunks : List (List Byte)} (hne : chunks.flatten ≠ [])
    (hpos : ∀ c ∈ chunks, 0 < c.length) (hfull : ∀ c ∈ chunks.dropLast, chunks.flatten.length ≤ c.length) :
    chunks = [chunks.flatten] := by
  match chunks with
  | [] => exact absurd rfl hne
  | [c] => simp
  | c :: d :: rest =>
    have hc := hfull c (by simp)
    have hd := hpos d (by simp)
    simp only [List.flatten_cons, List.length_append] at hc
    omega

/-- R209 in any state that meets its conditions. -/
theorem refresh_of_example {s t : State} (hs : Refreshing s)
    (hspk : ∃ p b, s.spk = { exampleSpeaker with bufSize := b, pcm := p }) (hbuf : 24 ≤ s.spk.bufSize)
    (hclock : s.inp.clockNow = 600#31) (hsame : SameEvents 3 s.cfg.flipRingSize s.flips 4 exampleRing)
    (h : exec .spkrefresh s = .next t) :
    delivered s t = [exampleBytes] ∧ t.spk.sclk = 600#31 ∧ t.spk.ringRd = 3 ∧ t.spk.level = true := by
  obtain ⟨hbytes, q, -, hleft⟩ := refresh_of_refreshing hs h
  obtain ⟨p, b, hk⟩ := hspk
  obtain ⟨hstream, hafter⟩ := hsame.stream_eq 12 (k := s.spk) (by rw [hk]; exact Nat.zero_le 3)
  have hdue : dueSamples s.inp.clockNow s.spk = 12 := by
    rw [hclock, hk, dueSamples_buffer]
    decide
  rw [hdue, hstream, hk, stream_buffer, example_stream.1] at hbytes
  rw [hdue, hafter, hk, after_buffer, example_stream.2] at hleft
  obtain ⟨hopen, havail, hready⟩ := (refreshing_iff s).mp hs
  obtain ⟨-, -, hpos, hfull⟩ := refresh_eq (size := s.cfg.flipRingSize) (f := s.flips) hready s.inp.clockNow
  rw [← (refresh_of_next hopen havail h).2] at hpos hfull
  have hone := eq_singleton_of_full_chunks (hbytes ▸ by decide) hpos fun c hc => by
    rw [hfull c hc, hbytes, show exampleBytes.length = 24 from rfl]
    omega
  rw [hone, hbytes, hleft]
  exact ⟨rfl, rfl, rfl, rfl⟩

/-- Settles O6: the loop's first round, taken or not; and the example, whose samples depend on the three events alone. -/
theorem refreshRepeatsFills : Obligations.RefreshRepeatsFills := by
  constructor
  · intro s hs
    exact ⟨_, _, exec_spkfill s.inp.clockNow s, exec_spkrefresh_of_fill_zero hs,
      fun hpos => exec_spkrefresh_of_fill_pos hs (by omega)⟩
  · intro s t hs hcps hsclk hlevel hrd hvolume hbuf hclock hsize hwr hring h
    refine refresh_of_example hs ⟨s.spk.pcm, s.spk.bufSize, ?_⟩ hbuf hclock (sameEvents_exampleRing hsize hwr hring) h
    rw [exampleSpeaker, ← hcps, ← hsclk, ← hlevel, ← hrd, ← hvolume, ← hs.1]

end Sys2Proof.Synthesizer

/-! PROOFS. The statements of 45_paddle.md: the axes, the buttons, and how long a triggered axis reads high. -/

namespace Sys2Proof.Paddles

open Sys2Proof.Machine Sys2Proof.Claims

/-! ### What each operation does (R216 to R220) -/

section
variable (a n : Nat) (v : Byte) (pressed : Bool) (s : State)

theorem exec_pdlset :
    exec (.pdlset a v) s =
      .next { s with
              pdl := { s.pdl with inc := s.pdl.inc.set (index4 a).val (v.toNat * 11 + 8) (index4 a).isLt }
              result := .none } := rfl

theorem exec_pdltrig :
    exec .pdltrig s =
      .next { s with
              pdl := { s.pdl with event := s.pdl.inc.map (fun d => s.inp.clockNow + BitVec.ofNat 31 d) }
              result := .none } := rfl

theorem onlyReturns_pdlread :
    OnlyReturns (.pdlread a) s (.byte (bit7 (before s.inp.clockNow (s.pdl.event.get (index4 a))))) := rfl

theorem exec_btnset :
    exec (.btnset n pressed) s =
      .next { s with
              pdl := { s.pdl with button := s.pdl.button.set (index4 n).val pressed (index4 n).isLt }
              result := .none } := rfl

theorem onlyReturns_btnread : OnlyReturns (.btnread n) s (.byte (bit7 (s.pdl.button.get (index4 n)))) := rfl

end

/-! ### The index (R221) -/

theorem index4_val (n : Nat) : (index4 n).val = n % 4 := rfl

theorem eq_index4 {n : Nat} {b : Fin 4} (h : b.val = n % 4) : b = index4 n := Fin.ext h

/-- A write at an index changes the entry of its low two bits and no other. -/
theorem get_set_index4 {α : Type} (xs : Vector α 4) (n : Nat) (x : α) (b : Fin 4) :
    (xs.set (index4 n).val x (index4 n).isLt).get b = if b.val = n % 4 then x else xs.get b := by
  rw [Vector.get_eq_getElem, Vector.getElem_set]
  exact if_congr eq_comm rfl rfl

/-! ### The comparison (R218, C7) -/

theorem before_iff_earlier (a b : Clock) : before a b = true ↔ Earlier a b := decide_eq_true_iff

theorem onlyReturns_pdlread_high {a : Nat} {s : State} (h : Earlier s.inp.clockNow (s.pdl.event.get (index4 a))) :
    OnlyReturns (.pdlread a) s (.byte 0x80#8) := by
  have hread := onlyReturns_pdlread a s
  rwa [(before_iff_earlier ..).mpr h] at hread

theorem onlyReturns_pdlread_low {a : Nat} {s : State} (h : ¬ Earlier s.inp.clockNow (s.pdl.event.get (index4 a))) :
    OnlyReturns (.pdlread a) s (.byte 0x00#8) := by
  have hread := onlyReturns_pdlread a s
  rwa [Bool.eq_false_iff.mpr (mt (before_iff_earlier ..).mp h)] at hread

/-- The comparison is modular: tick `k` after `c` is earlier than tick `d` until `d` comes, and again from 2^30 ticks after it. -/
theorem earlier_after_iff (c : Clock) {d k : Nat} (hd : d ≤ 2 ^ 30) (hk : k < d + 2 ^ 31) :
    Earlier (c + BitVec.ofNat 31 k) (c + BitVec.ofNat 31 d) ↔ k < d ∨ d + 2 ^ 30 ≤ k := by
  unfold Earlier ticks
  bv_omega

/-- A trigger stamps an axis with the clock plus what the last PDLSET of that axis stored (R216, R217). -/
theorem event_of_pdlset_pdltrig {a : Nat} {v : Byte} {s t u : State} (hset : exec (.pdlset a v) s = .next t)
    (htrig : exec .pdltrig t = .next u) :
    u.pdl.event.get (index4 a) = s.inp.clockNow + BitVec.ofNat 31 (v.toNat * 11 + 8) := by
  rw [exec_pdlset] at hset
  cases hset
  rw [exec_pdltrig] at htrig
  cases htrig
  rw [Vector.get_map, get_set_index4, if_pos (index4_val a)]

/-! ### The statements -/

/-- Settles O60: the read compares T + k with the event T + D, and k < D or D + 2^30 ≤ k is when that comparison holds. -/
theorem paddleReadsHighForItsInterval : Obligations.PaddleReadsHighForItsInterval := by
  intro a k v s t u x hset htrig hclock
  have hd : v.toNat * 11 + 8 ≤ 2 ^ 30 := by have := v.isLt; omega
  have hevent := event_of_pdlset_pdltrig hset htrig
  have hearlier (hk : k < v.toNat * 11 + 8 + 2 ^ 31) :
      Earlier x.clockNow (u.pdl.event.get (index4 a)) ↔ k < v.toNat * 11 + 8 ∨ v.toNat * 11 + 8 + 2 ^ 30 ≤ k := by
    rw [hclock, hevent]
    exact earlier_after_iff _ hd hk
  refine ⟨fun hlt => ?_, fun hle hlt => ?_, fun hle hlt => ?_⟩
  · exact onlyReturns_pdlread_high ((hearlier (by omega)).mpr (.inl hlt))
  · exact onlyReturns_pdlread_low fun h => by have := (hearlier (by omega)).mp h; omega
  · exact onlyReturns_pdlread_high ((hearlier hlt).mpr (.inr hle))

/-- Settles O58: the set writes one increment, the trigger adds the clock to each, and the read answers the comparison. -/
theorem paddleAxes : Obligations.PaddleAxes := by
  intro a v s
  refine ⟨⟨_, exec_pdlset a v s, rfl, rfl, fun b => get_set_index4 ..⟩,
    ⟨_, exec_pdltrig s, rfl, rfl, fun b => ?_⟩, fun b hb => ?_⟩
  · rw [Vector.get_map, BitVec.toNat_add, BitVec.toNat_ofNat, Nat.add_mod_mod]
  · rw [eq_index4 hb]
    exact ⟨onlyReturns_pdlread_high, onlyReturns_pdlread_low⟩

/-- Settles O59: the set writes one latch, and the read answers it in bit 7 and writes none. -/
theorem buttonsAreLatches : Obligations.ButtonsAreLatches := by
  refine fun n pressed s => ⟨⟨_, exec_btnset n pressed s, rfl, rfl, fun b => get_set_index4 ..⟩, fun b hb => ?_⟩
  rw [eq_index4 hb]
  exact onlyReturns_btnread n s

end Sys2Proof.Paddles

/-! PROOFS. The statement of 60_exceptions.md: every operation completes (R234, R249). -/

namespace Sys2Proof.Exceptions

open Sys2Proof.Machine Sys2Proof.Scope

/-- Settles O5: the shape of an operation's answer, unit by unit, is a next state whatever the operands and the state. -/
theorem everyOperationAnswersNext : Obligations.EveryOperationAnswersNext := by
  intro i s
  obtain ⟨_, _, _, _, _, hshape, -⟩ := exec_shape i s
  exact ⟨_, hshape⟩

end Sys2Proof.Exceptions

/-! PROOFS. The statements of 70_reset_and_hazards.md: the power-on values, the resets, and the refresh with a stale clock. -/

namespace Sys2Proof.ResetAndHazards

open Sys2Proof.Machine Sys2Proof.Claims Sys2Proof.Laws.EncodesItsRow Sys2Proof.Peripheral Sys2Proof.Synthesizer

/-! ### A refresh that delivers nothing (R206, R268) -/

/-- Beyond the half window STOP holds on entry, and without room for a sample the first fill is empty; a step of 0 modulo 2^31 is
left out before the first fill (log 14). -/
theorem refresh_of_nothing_due {size : Nat} {f : FlipRing} {e : Clock} {k : Speaker}
    (h : 2 ^ 30 ≤ gap e k ∨ k.bufSize < 2 ∨ k.cps % 2 ^ 31 = 0) : refresh size f e k = ([], k) := by
  rcases h with hstale | hbuf | hstands
  · exact refresh_of_fill_zero e k (fill_of_stops (fillStops_of_gap_ge (Nat.not_lt.mpr hstale)))
  · exact refresh_of_fill_zero e k ((fill_count_eq_zero_iff e k).mpr (.inr hbuf))
  · exact refresh_of_stands e k (decide_eq_true hstands)

/-- Settles O54: with the sink available the refresh asks it, hands it no chunk and leaves the synthesizer as it is. -/
theorem staleClockDeliversNothing : Obligations.StaleClockDeliversNothing := by
  intro s hopen havail hnothing
  rw [exec_spkrefresh_of_available hopen havail, refresh_of_nothing_due hnothing, List.map_nil, List.append_nil]

/-! ### Power-on (R250) -/

theorem paddle_powerOn_inc (a : Fin 4) : Paddle.powerOn.inc.get a = 8 := Vector.getElem_replicate a.isLt
theorem paddle_powerOn_event (a : Fin 4) : Paddle.powerOn.event.get a = 0#31 := Vector.getElem_replicate a.isLt
theorem paddle_powerOn_button (a : Fin 4) : Paddle.powerOn.button.get a = false := Vector.getElem_replicate a.isLt

/-- Settles O1: the units other than the paddles are the table's records, and each axis and button holds the table's value. -/
theorem powerOnValues : Obligations.PowerOnValues :=
  ⟨rfl, fun _ => ⟨rfl, rfl, rfl, rfl,
    fun a => ⟨paddle_powerOn_inc a, paddle_powerOn_event a, paddle_powerOn_button a⟩, rfl, rfl⟩⟩

/-! ### The resets and UNMOUNT (R112, R252 to R254) -/

section
variable (s : State)

theorem exec_dreset :
    exec .dreset s = .next { s with disk := { s.disk with motorOn := false }, result := .none } := rfl

theorem onlyReturns_spkreset : OnlyReturns .spkreset s .none := rfl
theorem onlyReturns_pdlreset : OnlyReturns .pdlreset s .none := rfl
theorem onlyReturns_unmount (d : Drive) : OnlyReturns (.unmount d) s .none := rfl

end

/-- Settles O30: DRESET writes one field, the other three only return, and each encodes with the number of its row. -/
theorem resetsAndUnmount : Obligations.ResetsAndUnmount := fun s d =>
  ⟨exec_dreset s, onlyReturns_spkreset s, onlyReturns_pdlreset s, onlyReturns_unmount s d, rfl, rfl, rfl,
    exists_host_of_carried (unmount d)⟩

end Sys2Proof.ResetAndHazards
